-- ==== Sys2Proof/Word.lean ====
section
/-!
DEFINITION. The words of the block: bytes, the 32-bit counts, bit strings (spec 00_scope.md R8).
All quantities are unsigned.
-/

namespace Sys2Proof

/-- One byte of a stream; also a symbol, "one possible byte value (0-255)" (R8, R40, glossary). -/
abbrev Byte := BitVec 8

/-- A frequency count or a content length: 32 bits (R11, R12). -/
abbrev Word32 := BitVec 32

/-- A bit string, first bit first (R8). -/
abbrev BitString := List Bool

/-- A table with one entry per symbol 0..255 (R11, R16). -/
abbrev SymbolTable (α : Type) := Vector α 256

/-- The length-count table: entry `L - 1` counts the symbols of code length `L`, for `L` in 1..16;
each counter has 9 bits (R19). -/
abbrev LengthTable := Vector (BitVec 9) 16

end Sys2Proof
end

