-- ==== Sys2Proof/Config.lean ====
section
/-!
DEFINITION. What is fixed for this hardware (the parameter table of spec 00_scope.md R5) and the one
open parameter that reaches a state, PROG_HDR_UNITS.
-/

namespace Sys2Proof.Config

/-- MARKER_HUFF: the marker of the Huffman form and of the empty form (R5, R74). -/
def markerHuff : Byte := 0x48

/-- MARKER_RAW: the marker of the raw form (R5, R74). -/
def markerRaw : Byte := 0x4E

/-- EMPTY_HLEN: the header length of the empty form (R5, R76, R142). -/
def emptyHlen : Nat := 2

/-- MAX_CODE_LEN: the longest code the stream format can carry (R5, R126). -/
def maxCodeLen : Nat := 16

/-- SYM_CAP: the capacity of the symbol-length sequence (R5, R144). -/
def symCap : Nat := 256

/-- NODE_CAP: the capacity of the node arena (R5, R18). -/
def nodeCap : Nat := 511

/-- PAD_VALUE: the value of padding bits and of flush filler bits (R5, R47, R80). -/
def padValue : Bool := false

/-- TIE_BREAK: among equal frequencies, does insertion number `a` pop before insertion number `b`?
On this hardware the lower insertion number pops first (R5, R103). -/
def tieBreak (a b : Nat) : Bool := decide (a < b)

/-- PROG_HDR_UNITS, the value of the one progress event of a header read. The spec leaves it open
(R5, R148, 93_implementation_defined.md U10): it is a FREE VALUE, with no body, so nothing can be
proved about which number it is (assumption log 6). -/
opaque progHdrUnits : Nat

end Sys2Proof.Config
end

