-- ==== Sys2Proof/Syntax.lean ====
section
/-!
DEFINITION. The commands of the block: one constructor for each row of spec/opcode_table.json
(30_encoding.md R72, R73). No command has an operand field (R70, R71).
-/

namespace Sys2Proof

/-- The thirteen commands of R72 and the three reserved codes of R73. -/
inductive Instr where
  /-- `0x1`: reset the context to clean (R180). -/
  | clear
  /-- `0x2`: count the byte frequencies of IS (R90). -/
  | count
  /-- `0x3`: build the tree from FREQ (R100). -/
  | build
  /-- `0x4`: code lengths, canonical sort, codes, padding (R110). -/
  | gencode
  /-- `0x5`: fill LCNT and MAXLEN from SYMLEN (R125). -/
  | hist
  /-- `0x6`: evaluate the disable conditions (R126). -/
  | policy
  /-- `0x7`: write the header to OS (R135). -/
  | wrhdr
  /-- `0x8`: write the content to OS (R150). -/
  | encbits
  /-- `0x9`: read and check a header from IS (R139). -/
  | rdhdr
  /-- `0xA`: rebuild the tree from SYMLEN (R160). -/
  | rebuild
  /-- `0xB`: decode the content to OS (R166). -/
  | decbits
  /-- `0xC`: the whole encode call (R181). -/
  | encode
  /-- `0xD`: the whole decode call (R182). -/
  | decode
  /-- `0x0`: reserved, completes with E_CMD (R73). -/
  | reserved0
  /-- `0xE`: reserved, completes with E_CMD (R73). -/
  | reservedE
  /-- `0xF`: reserved, completes with E_CMD (R73). -/
  | reservedF
deriving DecidableEq, Repr

end Sys2Proof
end

