-- ==== Sys2Proof/WellFormed.lean ====
section
/-!
DEFINITION. What the outside world may hand the block: a command word fits the 4-bit CMD port (30_encoding.md R70),
an input stream's cursor lies within the stream (10_state.md R24), an output stream's accumulator
holds no more bits than it counts (R25). Commands have no operands, so every command is well-formed.
-/

namespace Sys2Proof

/-- A command is a 4-bit word (R70). -/
def commandWordOk (w : Nat) : Bool := decide (w < 16)

/-- A command carries no field, so nothing about it can be ill-formed (R70, R71). -/
def Instr.wellFormed (_ : Instr) : Bool := true

/-- `0 ≤ IS.POS ≤ 8 * IS.LEN`, the cursor counted in bits (R24). -/
def cursorOk (len pos : Nat) : Bool := decide (pos ≤ 8 * len)

/-- OS.ACC is an OS.NACC-bit value, OS.NACC being 0 to 7 (R25). -/
def accumulatorOk (acc : Byte) (nacc : Fin 8) : Bool := decide (acc.toNat < 2 ^ nacc.val)

end Sys2Proof
end

