-- ==== Sys2Proof/Decode.lean ====
section
/-!
DEFINITION. The command encoding: the decoder of a word written to CMD, and the encoder (30_encoding.md R70, R72,
R73). The format CMD has one field, OP, bits 3:0.
-/

namespace Sys2Proof

/-- Why a number is no command word. -/
inductive DecodeError where
  /-- The number does not fit the 4 bits of the CMD port (R70). -/
  | widerThanPort
deriving DecidableEq, Repr

/-- The command a 4-bit word selects; every word selects a row of the table, the three reserved
codes included (R72, R73). -/
def decodeOp (op : BitVec 4) : Instr :=
  match op.toNat with
  | 0x1 => .clear
  | 0x2 => .count
  | 0x3 => .build
  | 0x4 => .gencode
  | 0x5 => .hist
  | 0x6 => .policy
  | 0x7 => .wrhdr
  | 0x8 => .encbits
  | 0x9 => .rdhdr
  | 0xA => .rebuild
  | 0xB => .decbits
  | 0xC => .encode
  | 0xD => .decode
  | 0xE => .reservedE
  | 0xF => .reservedF
  | _ => .reserved0

/-- Decoding a number offered as a command word: refused by name when it does not fit the port. -/
def decodeWord (w : Nat) : Except DecodeError Instr :=
  if commandWordOk w then .ok (decodeOp (BitVec.ofNat 4 w)) else .error .widerThanPort

/-- The OP code of each command (R72, R73). -/
def encode (i : Instr) : BitVec 4 :=
  match i with
  | .clear => 0x1
  | .count => 0x2
  | .build => 0x3
  | .gencode => 0x4
  | .hist => 0x5
  | .policy => 0x6
  | .wrhdr => 0x7
  | .encbits => 0x8
  | .rdhdr => 0x9
  | .rebuild => 0xA
  | .decbits => 0xB
  | .encode => 0xC
  | .decode => 0xD
  | .reserved0 => 0x0
  | .reservedE => 0xE
  | .reservedF => 0xF

/-- The instruction the decoder reads from an instruction whose bits, numbered as
spec/opcode_table.json numbers them, are `w`. A command is one 4-bit word and has no second word
(R70), so the number of bits the table gives the row plays no part. -/
def decodeTableWord (nbits w : Nat) : Option Instr :=
  match decodeWord (w % 2 ^ nbits) with
  | .ok i => some i
  | .error _ => none

end Sys2Proof
end

