-- ==== Sys2Proof/Machine/State.lean ====
section
/-!
DEFINITION. The state of the block (10_state.md): the Coder Context, the completion register, the streams and the
progress port, the stream-valid inputs, and the host's queue of actions; the reasons a step can stop;
the state after reset. INVENTORY.md, heading State, lists every field with its rule and reset value.
-/

namespace Sys2Proof.Machine

/-- The named values of PHASE, a 4-bit register (R21). Its reserved values 9..15 are "never written
by any rule", so they are no value of the type. -/
inductive Phase where
  /-- 0: clean context, no call in progress. -/
  | idle
  /-- 1: FREQ and CLEN hold the input's counts. -/
  | counted
  /-- 2: TREE holds the encoder's tree. -/
  | built
  /-- 3: SYMLEN, CODE, PAD are valid. -/
  | coded
  /-- 4: LCNT, MAXLEN are valid. -/
  | histed
  /-- 5: DISABLE is valid. -/
  | policed
  /-- 6: the header is in OS. -/
  | hdrWritten
  /-- 7: a header has been parsed. -/
  | hdrRead
  /-- 8: TREE holds the decoder's tree. -/
  | rebuilt
deriving DecidableEq, Repr

/-- The completion codes RES, 3 bits; ERR latches one of them (R22, R195). -/
inductive Res where
  /-- 0: success. -/
  | ok
  /-- 1: invalid header marker (R196). -/
  | eMarker
  /-- 2: header length mismatch (R197). -/
  | eHdrlen
  /-- 3: tree reconstruction failure (R198). -/
  | eTree
  /-- 4: null stream arguments (R199). -/
  | eNull
  /-- 5: input stream exhausted (R200). -/
  | eEos
  /-- 6: command not allowed in this phase (R201). -/
  | eSeq
  /-- 7: reserved command code (R202). -/
  | eCmd
deriving DecidableEq, Repr

/-- A Symbol-Length Record (R15). -/
structure SymLen where
  sym : Byte
  len : BitVec 8
deriving DecidableEq, Repr

/-- A tree reference and what it reaches: ABSENT (and NIL, for the root), or a node of R17. Each node
carries the arena index R18 assigns it, so that the inductive tree and the arena say the same. -/
inductive Node where
  | absent
  | leaf (idx : BitVec 9) (sym : Byte) (freq : Word32)
  | internal (idx : BitVec 9) (left right : Node) (freq : Word32)
deriving DecidableEq, Repr

/-- The Coder Context (R10 to R18) with the fields the spec adds to it (R19 to R21): all that
`cleanup()` resets (R30, R180). -/
structure Context where
  /-- FREQ: occurrences of each symbol, 256 x 32 bits (R11). -/
  freq : SymbolTable Word32
  /-- CLEN: the total decoded-content length (R12). -/
  clen : Word32
  /-- PAD: the padding-bit count, 8 bits wide (R13). -/
  pad : BitVec 8
  /-- DISABLE: raw pass-through mode (R14). -/
  disable : Bool
  /-- SYMLEN: the ordered symbol-length records (R15). -/
  symlen : List SymLen
  /-- NSYM: the number of records, 9 bits (R15). -/
  nsym : BitVec 9
  /-- CODE: the bit string of each symbol, empty for "no code" (R16). -/
  code : SymbolTable BitString
  /-- ROOT and the nodes it reaches; `absent` is NIL (R17, R18). -/
  root : Node
  /-- NODE_CNT: the arena's allocation count, 0 to 511 (R18). -/
  nodeCnt : BitVec 9
  /-- LCNT: the code-length histogram (R19). -/
  lcnt : LengthTable
  /-- MAXLEN: the largest code length in SYMLEN (R19). -/
  maxlen : BitVec 8
  /-- EMPTY: the current call handles the empty form (R20). -/
  empty : Bool
  /-- PHASE: how far the current call has got (R21). -/
  phase : Phase
deriving DecidableEq, Repr

/-- The context in which every field has its clean value: the predicate CLEAN of R30 is equality with
it, and it is the reset value of every field (R31). -/
def Context.clean : Context where
  freq := Vector.replicate 256 0
  clen := 0
  pad := 0
  disable := false
  symlen := []
  nsym := 0
  code := Vector.replicate 256 []
  root := .absent
  nodeCnt := 0
  lcnt := Vector.replicate 16 0
  maxlen := 0
  empty := false
  phase := .idle

/-- IS, the input stream: `IS.B` (its length is `IS.LEN`) and the cursor `IS.POS`, in bits (R24). -/
structure IStream where
  bytes : List Byte
  pos : Nat
deriving DecidableEq, Repr

/-- OS, the output stream: `OS.B`, and the partial byte OS.ACC holding OS.NACC (0 to 7) bits,
first-written bit most significant (R25). -/
structure OStream where
  bytes : List Byte
  acc : Byte
  nacc : Fin 8
deriving DecidableEq, Repr

/-- What a command can move: the two streams of the current call and the events emitted on the
output-only progress port PROG, oldest first (R24, R25, R27). -/
structure Streams where
  is : IStream
  os : OStream
  prog : List Nat
deriving DecidableEq, Repr

/-- One action of the host, the one agent outside the block (R6): a write to CMD (R23), the
attaching or detaching of a stream (R26, R84, R222), or a hardware reset (R220). Actions happen
between commands only (R7, R221). -/
inductive HostAction where
  /-- Writing a command code to the CMD port (R23, R70). -/
  | command (op : BitVec 4)
  /-- Attaching an input stream with whatever position it has; IS_VALID becomes 1 (R24, R26). -/
  | attachIS (is : IStream)
  /-- Attaching an output stream; OS_VALID becomes 1 (R25, R26). -/
  | attachOS (os : OStream)
  /-- Detaching the input stream; IS_VALID becomes 0 (R26, R84). -/
  | detachIS
  /-- Detaching the output stream; OS_VALID becomes 0 (R26, R84). -/
  | detachOS
  /-- Hardware reset (R220). -/
  | reset
deriving DecidableEq, Repr

/-- The reasons the machine stops with a fault: none. The block has no trap that stops it; every
error is a completion code, and "after any error the block is ready for the next command at once"
(R195, R206, R208). Raised by nobody; safe. -/
inductive Fault : Type
deriving DecidableEq, Repr

/-- The reasons the model gives a step no meaning. No command ends in one of the last two. -/
inductive Refusal where
  /-- Raised by `exec` for a command that has no meaning yet. Safe: nothing is claimed of it. -/
  | notModelled (mnemonic : String)
  /-- Raised by attaching a stream the spec says cannot exist: a cursor past the end, or an
  accumulator with more bits than it counts (R24, R25). Safe. -/
  | streamMalformed
  /-- Raised by attaching an input with other bytes while an encode is under way: the host must keep
  IS.B and IS.LEN unchanged, and the spec's treatment is `refuse` (R223,
  93_implementation_defined.md U2). Safe. -/
  | inputChangedDuringEncode
deriving DecidableEq, Repr

/-- The whole machine. -/
structure State where
  /-- The Coder Context. -/
  ctx : Context
  /-- ERR: the completion code of the most recent command, 3 bits (R22). -/
  err : Res
  /-- IS, OS and PROG. -/
  io : Streams
  /-- IS_VALID: an input stream is attached (R26). -/
  isValid : Bool
  /-- OS_VALID: an output stream is attached (R26). -/
  osValid : Bool
  /-- What the host is going to do, first action first. The model's own field: the spec's host stands
  outside the block (assumption log 2). -/
  pending : List HostAction
deriving DecidableEq, Repr

/-- The machine right after reset: clean context, PHASE = IDLE, ERR = OK (R31, R220). The streams and
valid inputs are the host's, "not reset by the block": here no stream is attached yet, both streams
are empty, PROG has emitted nothing and the host has queued nothing (assumption log 1). -/
def State.reset : State where
  ctx := Context.clean
  err := .ok
  io := { is := { bytes := [], pos := 0 }, os := { bytes := [], acc := 0, nacc := 0 }, prog := [] }
  isValid := false
  osValid := false
  pending := []

end Sys2Proof.Machine
end

