-- ==== Sys2Proof/Machine/Flags.lean ====
section
/-!
DEFINITION. Every flag and status computation: the numeric codes of PHASE and RES, the STATUS word, NONE_SEEN, CLEAN,
and the two disable conditions.
-/

namespace Sys2Proof.Machine

/-- The 4-bit value of each phase (R21). -/
def Phase.code : Phase → BitVec 4
  | .idle => 0
  | .counted => 1
  | .built => 2
  | .coded => 3
  | .histed => 4
  | .policed => 5
  | .hdrWritten => 6
  | .hdrRead => 7
  | .rebuilt => 8

/-- The 3-bit value of each completion code (R195). -/
def Res.code : Res → BitVec 3
  | .ok => 0
  | .eMarker => 1
  | .eHdrlen => 2
  | .eTree => 3
  | .eNull => 4
  | .eEos => 5
  | .eSeq => 6
  | .eCmd => 7

/-- A one-bit field of STATUS. -/
def bitOf (b : Bool) : BitVec 1 := if b then 1 else 0

/-- STATUS, the read-only 16-bit view, from bit 15 down: five zero bits, OS_VALID, IS_VALID, EMPTY,
DISABLE, PHASE, ERR (R23). -/
def State.status (s : State) : BitVec 16 :=
  (0 : BitVec 5) ++ bitOf s.osValid ++ bitOf s.isValid ++ bitOf s.ctx.empty ++ bitOf s.ctx.disable
    ++ s.ctx.phase.code ++ s.err.code

/-- Every symbol, ascending (R11, R100). -/
def allSymbols : List Byte := (List.range 256).map (BitVec.ofNat 8)

/-- Entry `s` of a symbol table (R56: a byte is always in range). -/
def symAt {α : Type} (t : SymbolTable α) (s : Byte) : α := t[s.toNat]'s.isLt

/-- `T[s] <- v` on a symbol table (R8). -/
def symPut {α : Type} (t : SymbolTable α) (s : Byte) (v : α) : SymbolTable α := t.set s.toNat v s.isLt

/-- `LCNT[L]`, for `L` in 1..16 (R19). No rule reads another entry; the model's value there is 0. -/
def lenAt (t : LengthTable) (L : Nat) : BitVec 9 :=
  if h : 1 ≤ L ∧ L ≤ 16 then t[L - 1]'(by omega) else 0

/-- `LCNT[L] <- v`, for `L` in 1..16; another `L` names no counter and nothing is written (R56). -/
def lenPut (t : LengthTable) (L : Nat) (v : BitVec 9) : LengthTable :=
  if h : 1 ≤ L ∧ L ≤ 16 then t.set (L - 1) v (by omega) else t

/-- NONE_SEEN: no symbol has a nonzero count (R93). -/
def Context.noneSeen (c : Context) : Bool := allSymbols.all fun s => symAt c.freq s == 0

/-- CLEAN: every field of the context has its clean value (R30). -/
def Context.isClean (c : Context) : Bool := decide (c = Context.clean)

/-- The first disable condition: the maximum code length exceeds 16 (R126). -/
def Context.tooLong (c : Context) : Bool := decide (Config.maxCodeLen < c.maxlen.toNat)

/-- The second disable condition: all 256 symbols are present and the first and the last record of the
sorted sequence have one length (R126). -/
def Context.allEqual (c : Context) : Bool :=
  decide (c.nsym = 256) && decide ((c.symlen[0]?).map SymLen.len = (c.symlen[255]?).map SymLen.len)

/-- An encode call is under way: COUNT has scanned the input and ENCBITS has not yet (R223). -/
def Phase.encoding : Phase → Bool
  | .counted | .built | .coded | .histed | .policed | .hdrWritten => true
  | .idle | .hdrRead | .rebuilt => false

end Sys2Proof.Machine
end

