-- ==== Sys2Proof/Machine/Operands.lean ====
section
/-!
DEFINITION. The operand forms. A command names no operand (30_encoding.md R70, R71): what it works on are the input
and output stream, through the ten bit-stream operations of 20_memory.md R41 to R47.
-/

namespace Sys2Proof.Machine

/-- `bin(v, n)`: the `n`-bit string `v[n-1], …, v[0]` (R8). -/
def bin (v : Nat) : Nat → BitString
  | 0 => []
  | n + 1 => v.testBit n :: bin v n

/-- A read of the input stream: a value, or `raise E_EOS`, and in both cases the stream as the read
left it (R50, R58). -/
abbrev Reader := EStateM Res IStream

/-- `at_end()`: no bit is left (R45). -/
def IStream.atEnd (is : IStream) : Bool := decide (8 * is.bytes.length ≤ is.pos)

/-- `rewind()` (R45). -/
def IStream.rewind (is : IStream) : IStream := { is with pos := 0 }

/-- `rd_bit()`: the first bit read from a byte is its bit 7; no bit left raises E_EOS (R41, R50). -/
def rdBit : Reader Bool := fun is =>
  if is.atEnd then .error .eEos is
  else .ok ((is.bytes.getD (is.pos / 8) 0).getLsbD (7 - is.pos % 8)) { is with pos := is.pos + 1 }

/-- `n` times `v <- 2 * v + rd_bit()` (R42). -/
def rdBits : Nat → Nat → Reader Nat
  | 0, v => pure v
  | n + 1, v => do
    let b ← rdBit
    rdBits n (2 * v + b.toNat)

/-- `rd_byte()`: eight bits, first bit read most significant, at any bit position (R42). -/
def rdByte : Reader Byte := do
  let v ← rdBits 8 0
  pure (BitVec.ofNat 8 v)

/-- `n` bytes, in stream order. -/
def rdBytes : Nat → Reader (List Byte)
  | 0 => pure []
  | n + 1 => do
    let b ← rdByte
    let bs ← rdBytes n
    pure (b :: bs)

/-- `rd_u16()`: big-endian (R43). -/
def rdU16 : Reader (BitVec 16) := do
  let a ← rdByte
  let b ← rdByte
  pure (BitVec.ofNat 16 (256 * a.toNat + b.toNat))

/-- `rd_u32()`: big-endian (R44). -/
def rdU32 : Reader Word32 := do
  let a ← rdByte
  let b ← rdByte
  let c ← rdByte
  let d ← rdByte
  pure (BitVec.ofNat 32 (a.toNat * 2 ^ 24 + b.toNat * 2 ^ 16 + c.toNat * 2 ^ 8 + d.toNat))

/-- `wr_bit(b)`: the accumulator takes the bit at its low end, and a full byte goes out (R46). -/
def OStream.wrBit (os : OStream) (b : Bool) : OStream :=
  let acc := BitVec.ofNat 8 (2 * os.acc.toNat + b.toNat)
  if h : os.nacc.val + 1 = 8 then
    { bytes := os.bytes ++ [acc], acc := 0, nacc := 0 }
  else
    { os with acc := acc, nacc := ⟨os.nacc.val + 1, by omega⟩ }

/-- One `wr_bit` for each bit of a string, first bit first. -/
def OStream.wrBits (os : OStream) (bits : BitString) : OStream := bits.foldl OStream.wrBit os

/-- `wr_byte(v)`: `wr_bit(v[7])` down to `wr_bit(v[0])` (R46). -/
def OStream.wrByte (os : OStream) (v : Byte) : OStream := os.wrBits (bin v.toNat 8)

/-- One `wr_byte` for each byte, in order. -/
def OStream.wrBytes (os : OStream) (bs : List Byte) : OStream := bs.foldl OStream.wrByte os

/-- The four bytes of `wr_u32(v)`: `v[31:24]`, `v[23:16]`, `v[15:8]`, `v[7:0]` (R46). -/
def u32Bytes (v : Word32) : List Byte :=
  [v.extractLsb' 24 8, v.extractLsb' 16 8, v.extractLsb' 8 8, v.extractLsb' 0 8]

/-- `wr_u32(v)`: big-endian (R46). -/
def OStream.wrU32 (os : OStream) (v : Word32) : OStream := os.wrBytes (u32Bytes v)

/-- `flush()`: pending bits go out at the top of a byte, zeros below; nothing when none is pending
(R47). -/
def OStream.flush (os : OStream) : OStream :=
  if 0 < os.nacc.val then
    { bytes := os.bytes ++ [BitVec.ofNat 8 (os.acc.toNat * 2 ^ (8 - os.nacc.val))], acc := 0, nacc := 0 }
  else os

end Sys2Proof.Machine
end

