-- ==== Sys2Proof/Machine/Ops.lean ====
section
/-!
DEFINITION. The shared operations: `cleanup()`, the completion of a command, error entry (there is no return from
it), the acceptance check, the actions of a command body on the state, and the host's actions.
-/

namespace Sys2Proof.Machine

/-- What a command body does: it moves the state, and it may `raise` a completion code (R8). The state
a raise leaves holds every stream operation done before it (R58, R207). -/
abbrev Cmd := EStateM Res State

/-- `cleanup()`: every context field goes to its clean value; ERR, IS, OS, IS_VALID and OS_VALID are
not touched (R180). -/
def State.cleanup (s : State) : State := { s with ctx := Context.clean }

/-- Success: RES = OK is latched into ERR (R22, R185). -/
def State.succeed (s : State) : State := { s with err := .ok }

/-- Error at acceptance: "nothing but ERR changes (no cleanup, no stream access)" (R183, R206). -/
def State.reject (s : State) (e : Res) : State := { s with err := e }

/-- Error entry after acceptance: the command stops where it is, `cleanup()` runs, and ERR takes the
code. Nothing else is saved and no control is transferred (R206). There is no return from an
error: nothing is saved, and the block is ready for the next command at once (R208). -/
def State.raise (s : State) (e : Res) : State := { s.cleanup with err := e }

/-- Running the body of an accepted command to its end (R185, R206). -/
def complete (body : Cmd Unit) (s : State) : State :=
  match body s with
  | .ok _ t => t.succeed
  | .error e t => t.raise e

/-- Is the command one of the thirteen of R72? The three reserved codes are not (R73). -/
def isCommand : Instr → Bool
  | .reserved0 | .reservedE | .reservedF => false
  | .clear | .count | .build | .gencode | .hist | .policy | .wrhdr | .encbits | .rdhdr | .rebuild
  | .decbits | .encode | .decode => true

/-- The allowed PHASE and extra condition of each command (R183, second check). -/
def phaseAllows (i : Instr) (c : Context) : Bool :=
  match i with
  | .clear => true
  | .count | .rdhdr | .encode | .decode => decide (c.phase = .idle)
  | .build => decide (c.phase = .counted) && !c.noneSeen
  | .gencode => decide (c.phase = .built)
  | .hist => decide (c.phase = .coded)
  | .policy => decide (c.phase = .histed)
  | .wrhdr => decide (c.phase = .policed) || (decide (c.phase = .counted) && c.noneSeen)
  | .encbits => decide (c.phase = .hdrWritten)
  | .rebuild => decide (c.phase = .hdrRead) && !c.disable && !c.empty
  | .decbits => decide (c.phase = .rebuilt) || (decide (c.phase = .hdrRead) && (c.disable || c.empty))
  | .reserved0 | .reservedE | .reservedF => false

/-- The command needs an input stream (R183, third check). -/
def needsIS : Instr → Bool
  | .count | .encbits | .rdhdr | .decbits | .encode | .decode => true
  | .clear | .build | .gencode | .hist | .policy | .wrhdr | .rebuild | .reserved0 | .reservedE
  | .reservedF => false

/-- The command needs an output stream (R183, third check). -/
def needsOS : Instr → Bool
  | .wrhdr | .encbits | .decbits | .encode | .decode => true
  | .clear | .count | .build | .gencode | .hist | .policy | .rdhdr | .rebuild | .reserved0 | .reservedE
  | .reservedF => false

/-- The acceptance check: E_CMD, then E_SEQ, then E_NULL; OK when all three pass (R183, R205). -/
def acceptance (i : Instr) (s : State) : Res :=
  if !isCommand i then .eCmd
  else if !phaseAllows i s.ctx then .eSeq
  else if (needsIS i && !s.isValid) || (needsOS i && !s.osValid) then .eNull
  else .ok

/-- Issuing a command: the acceptance check, then what an accepted command does (R183). -/
def issue (i : Instr) (accepted : State → State) (s : State) : State :=
  match acceptance i s with
  | .ok => accepted s
  | e => s.reject e

/-- The next unit command of an expansion: it runs only if the one before it completed with RES = OK
(R85, R182). -/
def State.andThen (s : State) (next : State → State) : State :=
  match s.err with
  | .ok => next s
  | _ => s

/-- A read of the input stream, as part of a command body. -/
def Cmd.read {α : Type} (r : Reader α) : Cmd α := fun s =>
  match r s.io.is with
  | .ok a is => .ok a { s with io := { s.io with is := is } }
  | .error e is => .error e { s with io := { s.io with is := is } }

/-- `rewind()`, as part of a command body (R45). -/
def Cmd.rewind : Cmd Unit := modify fun s => { s with io := { s.io with is := s.io.is.rewind } }

/-- `at_end()`, as part of a command body (R45). -/
def Cmd.atEnd : Cmd Bool := fun s => .ok s.io.is.atEnd s

/-- Writing to the output stream, as part of a command body. -/
def Cmd.write (f : OStream → OStream) : Cmd Unit :=
  modify fun s => { s with io := { s.io with os := f s.io.os } }

/-- `progress(n)`: one event on PROG (R27). -/
def Cmd.progress (n : Nat) : Cmd Unit :=
  modify fun s => { s with io := { s.io with prog := s.io.prog ++ [n] } }

/-- Writing context fields, as part of a command body. -/
def Cmd.modifyCtx (f : Context → Context) : Cmd Unit := modify fun s => { s with ctx := f s.ctx }

/-- The context, as part of a command body. -/
def Cmd.ctx : Cmd Context := fun s => .ok s.ctx s

/-- `cleanup()` at the end of a command body (R154, R172). -/
def Cmd.cleanup : Cmd Unit := modify State.cleanup

/-- `IS.LEN` (R24), as part of a command body: the bound of the loops over the input (R230). -/
def Cmd.inputLength : Cmd Nat := fun s => .ok s.io.is.bytes.length s

/-- The number of bits of IS not yet read, as part of a command body: the bound of the bit loops
(R230). -/
def Cmd.bitsLeft : Cmd Nat := fun s => .ok (8 * s.io.is.bytes.length - s.io.is.pos) s

/-- Hardware reset, between commands: clean context and ERR = OK; the streams and the valid inputs are
the host's and are not touched (R31, R220). -/
def State.hardwareReset (s : State) : State := { s.cleanup with err := .ok }

/-- The host attaches an input stream. A stream whose cursor lies outside it does not exist (R24).
While an encode is under way the host must keep IS.B and IS.LEN unchanged (R223), and the spec
gives the other case no meaning (93_implementation_defined.md U2). R224 lets nothing but the block use
IS inside a call and defines nothing else: that an attachment there has its effect (other bytes or
another position in HDR_READ and REBUILT, another position during an encode) is a DESIGN CHOICE
(assumption log 25), unsafe. -/
def attachInput (is : IStream) (s : State) : Host.Outcome State Fault Refusal :=
  if !cursorOk is.bytes.length is.pos then .refused .streamMalformed
  else if s.ctx.phase.encoding && !decide (is.bytes = s.io.is.bytes) then
    .refused .inputChangedDuringEncode
  else .next { s with io := { s.io with is := is }, isValid := true }

/-- The host attaches an output stream (R25, R26). That it has its effect inside a call too, in any PHASE, is
a DESIGN CHOICE (assumption log 25), unsafe: R224 lets nothing but the block use OS there. -/
def attachOutput (os : OStream) (s : State) : Host.Outcome State Fault Refusal :=
  if !accumulatorOk os.acc os.nacc then .refused .streamMalformed
  else .next { s with io := { s.io with os := os }, osValid := true }

/-- The host detaches the input stream: IS_VALID is 0; what the stream holds stays the host's (R26). Inside
a call: DESIGN CHOICE (assumption log 25). -/
def detachInput (s : State) : State := { s with isValid := false }

/-- The host detaches the output stream: OS_VALID is 0 (R26). Inside a call: DESIGN CHOICE (assumption log
25). -/
def detachOutput (s : State) : State := { s with osValid := false }

end Sys2Proof.Machine
end

