-- ==== Sys2Proof/Machine/Builder.lean ====
section
/-!
DEFINITION. The Huffman tree builder: BUILD (41_tree_builder.md).
-/

namespace Sys2Proof.Machine

/-- The frequency a node carries (R17). -/
def Node.freq : Node → Word32
  | .absent => 0
  | .leaf _ _ f => f
  | .internal _ _ _ f => f

/-- An entry of the priority queue Q: a node and its insertion number SEQ; its key is
`(node.freq, seq)` (R100, R103). -/
structure Entry where
  node : Node
  seq : Nat
deriving DecidableEq, Repr

/-- Lexicographic order on keys: lower frequency first and, among equal frequencies, the tie-break
(R103). -/
def Entry.before (a b : Entry) : Bool :=
  decide (a.node.freq.toNat < b.node.freq.toNat) ||
    (decide (a.node.freq.toNat = b.node.freq.toNat) && Config.tieBreak a.seq b.seq)

/-- `pop_min(Q)`: the entry with the smallest key, and the queue without it (R103). -/
def popMin : List Entry → Option (Entry × List Entry)
  | [] => none
  | e :: es =>
    match popMin es with
    | none => some (e, [])
    | some (m, rest) => if m.before e then some (m, e :: rest) else some (e, m :: rest)

/-- The symbols with a nonzero count, ascending, each with its count (R101). -/
def seenSymbols (freq : SymbolTable Word32) : List (Byte × Word32) :=
  (allSymbols.map fun s => (s, symAt freq s)).filter fun p => p.2 != 0

/-- One leaf per seen symbol, inserted in ascending symbol order: the insertion number and the arena
index both run 0, 1, … (R18, R101). -/
def leafEntries : Nat → List (Byte × Word32) → List Entry
  | _, [] => []
  | n, (s, f) :: rest => ⟨.leaf (BitVec.ofNat 9 n) s f, n⟩ :: leafEntries (n + 1) rest

/-- The merge loop: pop two, first pop left, second pop right, reinsert the parent, until one node
remains (R102). The last argument is the next insertion number and the next arena index, which
advance together (R18). The first argument bounds the passes: each takes one entry off. -/
def mergeLoop : Nat → List Entry → Nat → List Entry × Nat
  | 0, q, n => (q, n)
  | passes + 1, q, n =>
    match popMin q with
    | none => (q, n)
    | some (a, q1) =>
      match popMin q1 with
      | none => (q, n)
      | some (b, q2) =>
        mergeLoop passes
          (⟨.internal (BitVec.ofNat 9 n) a.node b.node (a.node.freq + b.node.freq), n⟩ :: q2) (n + 1)

/-- The tree BUILD makes of a frequency table, and how many nodes it allocates (R100). -/
def buildTree (freq : SymbolTable Word32) : Node × Nat :=
  let leaves := leafEntries 0 (seenSymbols freq)
  let (q, n) := mergeLoop leaves.length leaves leaves.length
  match popMin q with
  | none => (.absent, n)
  | some (e, _) => (e.node, n)

/-- What BUILD does to the context (R100). -/
def Context.build (c : Context) : Context :=
  { c with root := (buildTree c.freq).1, nodeCnt := BitVec.ofNat 9 (buildTree c.freq).2, phase := .built }

/-- BUILD as a unit command. -/
def build (s : State) : State := issue .build (complete (Cmd.modifyCtx Context.build)) s

/-- BUILD (R100). -/
def execBuild (s : State) : Host.Outcome State Fault Refusal := .next (build s)

end Sys2Proof.Machine
end

