-- ==== Sys2Proof/Machine/CodeGen.lean ====
section
/-!
DEFINITION. The canonical code generator: GENCODE (42_canonical_code_generator.md).
-/

namespace Sys2Proof.Machine

/-- Step 1: a (symbol, depth) pair for every leaf, left child before right (R111). -/
def leafDepths : Node → Nat → List (Byte × Nat)
  | .absent, _ => []
  | .leaf _ sym _, d => [(sym, d)]
  | .internal _ l r _, d => leafDepths l (d + 1) ++ leafDepths r (d + 1)

/-- A record of the sequence SYMLEN; its length field has 8 bits (R15). -/
def toRecord (p : Byte × Nat) : SymLen := { sym := p.1, len := BitVec.ofNat 8 p.2 }

/-- The canonical order: ascending length, then ascending symbol value (R112). -/
def SymLen.before (a b : SymLen) : Bool :=
  decide (a.len.toNat < b.len.toNat) ||
    (decide (a.len.toNat = b.len.toNat) && decide (a.sym.toNat ≤ b.sym.toNat))

/-- Placing a record in a sorted sequence. -/
def insertRecord (r : SymLen) : List SymLen → List SymLen
  | [] => [r]
  | x :: xs => if r.before x then r :: x :: xs else x :: insertRecord r xs

/-- Step 2: the sequence sorted into canonical order (R112). -/
def sortRecords : List SymLen → List SymLen
  | [] => []
  | r :: rs => insertRecord r (sortRecords rs)

/-- Step 3: a single symbol's depth 0 is normalised to length 1 (R113). -/
def normaliseSingle (rs : List SymLen) : List SymLen :=
  match rs with
  | [r] => if r.len = 0 then [{ r with len := 1 }] else [r]
  | _ => rs

/-- Steps 1 to 3: SYMLEN from the tree (R110). -/
def symlenOf (root : Node) : List SymLen :=
  normaliseSingle (sortRecords ((leafDepths root 0).map toRecord))

/-- Step 4, the recurrence `v_i = (v_(i-1) + 1) << (l_i - l_(i-1))` over the records after the first,
given the value and length of the record before (R115). -/
def codeValuesFrom (v l : Nat) : List SymLen → List (SymLen × Nat)
  | [] => []
  | r :: rs =>
    let v' := (v + 1) * 2 ^ (r.len.toNat - l)
    (r, v') :: codeValuesFrom v' r.len.toNat rs

/-- Step 4: each record with its code value; the first group starts at value 0 (R114, R115). -/
def codeValues : List SymLen → List (SymLen × Nat)
  | [] => []
  | r :: rs => (r, 0) :: codeValuesFrom 0 r.len.toNat rs

/-- Step 4, rendering: `CODE[sym] <- bin(v, l)` for each record in order (R116). -/
def assignCodes (code : SymbolTable BitString) (rs : List SymLen) : SymbolTable BitString :=
  (codeValues rs).foldl (fun t p => symPut t p.1.sym (bin p.2 p.1.len.toNat)) code

/-- Step 5: `(code_length_of_symbol * frequency_of_symbol) mod 8`, summed mod 8 (R117). -/
def paddingSum (freq : SymbolTable Word32) (rs : List SymLen) : Nat :=
  rs.foldl (fun acc r => (acc + (r.len.toNat * (symAt freq r.sym).toNat) % 8) % 8) 0

/-- Step 5: the padding count `(8 - acc) mod 8` (R117). -/
def paddingOf (freq : SymbolTable Word32) (rs : List SymLen) : BitVec 8 :=
  BitVec.ofNat 8 ((8 - paddingSum freq rs) % 8)

/-- What GENCODE does to the context (R110). -/
def Context.gencode (c : Context) : Context :=
  let rs := symlenOf c.root
  { c with
    symlen := rs
    nsym := BitVec.ofNat 9 rs.length
    code := assignCodes c.code rs
    pad := paddingOf c.freq rs
    phase := .coded }

/-- GENCODE as a unit command. -/
def gencode (s : State) : State := issue .gencode (complete (Cmd.modifyCtx Context.gencode)) s

/-- GENCODE (R110). -/
def execGencode (s : State) : Host.Outcome State Fault Refusal := .next (gencode s)

end Sys2Proof.Machine
end

