-- ==== Sys2Proof/Machine/Counter.lean ====
section
/-!
DEFINITION. The frequency counter: COUNT (40_frequency_counter.md).
-/

namespace Sys2Proof.Machine

/-- One counted byte: its count and the content length go up by one, modulo 2^32 (R90, R91). -/
def Context.countByte (c : Context) (b : Byte) : Context :=
  { c with freq := symPut c.freq b (symAt c.freq b + 1), clen := c.clen + 1 }

/-- `while not at_end(): b <- rd_byte(); …` (R90). The first argument bounds the passes: one per input
byte (R230). -/
def countLoop : Nat → Cmd Unit
  | 0 => pure ()
  | passes + 1 => do
    let done ← Cmd.atEnd
    if done then pure ()
    else do
      let b ← Cmd.read rdByte
      Cmd.modifyCtx fun c => c.countByte b
      countLoop passes

/-- The body of COUNT (R90). -/
def countBody : Cmd Unit := do
  Cmd.rewind
  let n ← Cmd.inputLength
  countLoop n
  Cmd.modifyCtx fun c => { c with phase := .counted }

/-- COUNT as a unit command. -/
def count (s : State) : State := issue .count (complete countBody) s

/-- COUNT (R90). -/
def execCount (s : State) : Host.Outcome State Fault Refusal := .next (count s)

end Sys2Proof.Machine
end

