-- ==== Sys2Proof/Machine/Histogram.lean ====
section
/-!
DEFINITION. The code-length histogram and the disable policy: HIST and POLICY (43_histogram_and_policy.md).
-/

namespace Sys2Proof.Machine

/-- The records the count NSYM covers: `SYMLEN[0]` to `SYMLEN[NSYM-1]` (R15, R56). -/
def Context.records (c : Context) : List SymLen := c.symlen.take c.nsym.toNat

/-- One pass of HIST's loop: a length in 1..16 is counted in its bucket, and any length may raise
MAXLEN (R125). -/
def histRecord (acc : LengthTable × BitVec 8) (r : SymLen) : LengthTable × BitVec 8 :=
  ( if 1 ≤ r.len.toNat ∧ r.len.toNat ≤ 16 then lenPut acc.1 r.len.toNat (lenAt acc.1 r.len.toNat + 1)
    else acc.1,
    if acc.2.toNat < r.len.toNat then r.len else acc.2 )

/-- LCNT and MAXLEN of a sequence of records (R125). -/
def histogram (rs : List SymLen) : LengthTable × BitVec 8 :=
  rs.foldl histRecord (Vector.replicate 16 0, 0)

/-- What HIST does to the context (R125). -/
def Context.hist (c : Context) : Context :=
  { c with lcnt := (histogram c.records).1, maxlen := (histogram c.records).2, phase := .histed }

/-- What POLICY does to the context (R126). -/
def Context.policy (c : Context) : Context :=
  { c with disable := c.tooLong || c.allEqual, phase := .policed }

/-- HIST as a unit command. -/
def hist (s : State) : State := issue .hist (complete (Cmd.modifyCtx Context.hist)) s

/-- POLICY as a unit command. -/
def policy (s : State) : State := issue .policy (complete (Cmd.modifyCtx Context.policy)) s

/-- HIST (R125). -/
def execHist (s : State) : Host.Outcome State Fault Refusal := .next (hist s)

/-- POLICY (R126). -/
def execPolicy (s : State) : Host.Outcome State Fault Refusal := .next (policy s)

end Sys2Proof.Machine
end

