-- ==== Sys2Proof/Machine/Decoder.lean ====
section
/-!
DEFINITION. The bit decoder: REBUILD and DECBITS (46_bit_decoder.md).
-/

namespace Sys2Proof.Machine

/-- A decode-side internal node with both slots absent; its freq is 0 (R17, R161). -/
def emptyInternal (n : Nat) : Node := .internal (BitVec.ofNat 9 n) .absent .absent 0

/-- Descending into a child slot: an absent child is created first, a leaf is skipped (R162). -/
def descend (place : Node → Nat → Option (Node × Nat)) (child : Node) (n : Nat) : Option (Node × Nat) :=
  match child with
  | .absent => place (emptyInternal n) (n + 1)
  | .leaf _ _ _ => none
  | .internal i l r f => place (.internal i l r f) n

/-- `insert(n, d, s, L)` for `L - d` levels still to go: the node with symbol `s` placed below it, and
the arena's allocation count; `none` is the answer false, which has changed nothing (R162). -/
def insertSymbol (s : Byte) : Nat → Node → Nat → Option (Node × Nat)
  | 0, _, _ => none
  | 1, node, n =>
    match node with
    | .internal i l r f =>
      if l = .absent then some (.internal i (.leaf (BitVec.ofNat 9 n) s 0) r f, n + 1)
      else if r = .absent then some (.internal i l (.leaf (BitVec.ofNat 9 n) s 0) f, n + 1)
      else none
    | _ => none
  | k + 2, node, n =>
    match node with
    | .internal i l r f =>
      match descend (insertSymbol s (k + 1)) l n with
      | some (l', n') => some (.internal i l' r f, n')
      | none =>
        match descend (insertSymbol s (k + 1)) r n with
        | some (r', n') => some (.internal i l r' f, n')
        | none => none
    | _ => none

/-- Placing the records in order; `none` is E_TREE: a symbol found no slot, or the arena would need a
512th node (R163). -/
def placeAll : List SymLen → Node → Nat → Option (Node × Nat)
  | [], t, n => some (t, n)
  | r :: rs, t, n =>
    match insertSymbol r.sym r.len.toNat t n with
    | none => none
    | some (t', n') => if Config.nodeCap < n' then none else placeAll rs t' n'

/-- Every internal node has both children (R164). -/
def Node.full : Node → Bool
  | .absent => false
  | .leaf _ _ _ => true
  | .internal _ l r _ => l.full && r.full

/-- `complete()`: the single-symbol tree is exempt, any other must be full (R164). -/
def codeSpaceComplete (c : Context) (t : Node) : Bool :=
  (decide (c.nsym = 1) && decide ((c.symlen[0]?).map SymLen.len = some 1)) || t.full

/-- The tree REBUILD makes of the records, with its node count; `none` is E_TREE (R160 to R164). -/
def rebuildTree (c : Context) : Option (Node × Nat) :=
  match placeAll c.records (emptyInternal 0) 1 with
  | none => none
  | some (t, n) => if codeSpaceComplete c t then some (t, n) else none

/-- The body of REBUILD (R160). -/
def rebuildBody : Cmd Unit := do
  let c ← Cmd.ctx
  match rebuildTree c with
  | none => throw .eTree
  | some (t, n) =>
    Cmd.modifyCtx fun c => { c with root := t, nodeCnt := BitVec.ofNat 9 n, phase := .rebuilt }

/-- REBUILD as a unit command. -/
def rebuild (s : State) : State := issue .rebuild (complete rebuildBody) s

/-- REBUILD (R160). -/
def execRebuild (s : State) : Host.Outcome State Fault Refusal := .next (rebuild s)

/-- `progress(1)` when the number of bits consumed reaches a multiple of 8 (R174). -/
def bitProgress (consumed : Nat) : Cmd Unit := if consumed % 8 = 0 then Cmd.progress 1 else pure ()

/-- One `rd_bit()` of the Huffman path, when `n` bits have been consumed before it (R167, R168, R174). -/
def rdContentBit (n : Nat) : Cmd Bool := do
  let b ← Cmd.read rdBit
  bitProgress (n + 1)
  pure b

/-- PAD calls of `rd_bit()` whose results are ignored; the last argument is the number of bits
consumed before (R167). -/
def discardPadding : Nat → Nat → Cmd Unit
  | 0, _ => pure ()
  | k + 1, n => do
    let _ ← rdContentBit n
    discardPadding k (n + 1)

/-- The child a bit selects: 0 left, 1 right (R168). A node with no children has none. -/
def Node.child (t : Node) (b : Bool) : Node :=
  match t with
  | .internal _ l r _ => if b then r else l
  | .leaf _ _ _ | .absent => .absent

/-- The tree walk (R168, R169): `cur` is CUR, `cnt` is CNT, `n` the bits consumed so far. The first
argument bounds the passes: each pass but the last reads a bit of what is left of IS, so with one
pass more than bits left the bound is never what ends the walk (R230). It stops when CNT reaches CLEN
and reads nothing further, so that IS.POS is left just after the last code (R173). -/
def walk (root : Node) (clen : Nat) : Nat → Node → Nat → Nat → Cmd Unit
  | 0, _, _, _ => throw .eEos
  | passes + 1, cur, cnt, n =>
    if cnt < clen then do
      let b ← rdContentBit n
      match cur.child b with
      | .absent => throw .eTree
      | .leaf _ sym _ => do
        Cmd.write fun os => os.wrByte sym
        walk root clen passes root (cnt + 1) (n + 1)
      | .internal i l r f => walk root clen passes (.internal i l r f) cnt (n + 1)
    else pure ()

/-- `repeat CLEN times: wr_byte(rd_byte())`, one progress event per byte (R170, R174). -/
def copyRaw : Nat → Cmd Unit
  | 0 => pure ()
  | k + 1 => do
    let b ← Cmd.read rdByte
    Cmd.write fun os => os.wrByte b
    Cmd.progress 1
    copyRaw k

/-- The content, by form: nothing on the empty path, CLEN bytes verbatim on the raw path, otherwise the
padding bits and then the tree walk (R166 to R171). IS.POS moves by PAD and the code bits and by nothing
else: no byte boundary is sought after the walk (R173). -/
def decodeContent (c : Context) : Cmd Unit :=
  if c.empty then pure ()
  else if c.disable then copyRaw c.clen.toNat
  else do
    discardPadding c.pad.toNat 0
    let left ← Cmd.bitsLeft
    walk c.root c.clen.toNat (left + 1) c.root 0 c.pad.toNat

/-- The body of DECBITS (R166, R172). -/
def decbitsBody : Cmd Unit := do
  let c ← Cmd.ctx
  decodeContent c
  Cmd.cleanup

/-- DECBITS as a unit command. -/
def decbits (s : State) : State := issue .decbits (complete decbitsBody) s

/-- DECBITS (R166). -/
def execDecbits (s : State) : Host.Outcome State Fault Refusal := .next (decbits s)

end Sys2Proof.Machine
end

