-- ==== Sys2Proof/Machine/Encoder.lean ====
section
/-!
DEFINITION. The bit encoder: ENCBITS (45_bit_encoder.md).
-/

namespace Sys2Proof.Machine

/-- `while not at_end(): b <- rd_byte(); emit b; progress(1)` (R152, R153). The first argument bounds
the passes: one per input byte (R230). -/
def scanLoop (emit : Byte → Cmd Unit) : Nat → Cmd Unit
  | 0 => pure ()
  | passes + 1 => do
    let done ← Cmd.atEnd
    if done then pure ()
    else do
      let b ← Cmd.read rdByte
      emit b
      Cmd.progress 1
      scanLoop emit passes

/-- The second scan of the input, from its start (R152, R153). -/
def scanInput (emit : Byte → Cmd Unit) : Cmd Unit := do
  Cmd.rewind
  let n ← Cmd.inputLength
  scanLoop emit n

/-- A byte's code, bit by bit, first bit of the string first (R152). -/
def emitCode (code : SymbolTable BitString) (b : Byte) : Cmd Unit :=
  Cmd.write fun os => os.wrBits (symAt code b)

/-- A byte verbatim (R153). -/
def emitRaw (b : Byte) : Cmd Unit := Cmd.write fun os => os.wrByte b

/-- PAD times `wr_bit(0)` (R152). -/
def emitPadding (pad : BitVec 8) : Cmd Unit :=
  Cmd.write fun os => os.wrBits (List.replicate pad.toNat Config.padValue)

/-- The content, by form: nothing on the empty path, the input verbatim on the raw path, otherwise the
padding bits and then the codes (R150 to R153). -/
def emitContent (c : Context) : Cmd Unit :=
  if c.empty then pure ()
  else if c.disable then scanInput emitRaw
  else do
    emitPadding c.pad
    scanInput (emitCode c.code)

/-- The body of ENCBITS (R150, R154). -/
def encbitsBody : Cmd Unit := do
  let c ← Cmd.ctx
  emitContent c
  Cmd.write OStream.flush
  Cmd.cleanup

/-- ENCBITS as a unit command. -/
def encbits (s : State) : State := issue .encbits (complete encbitsBody) s

/-- ENCBITS (R150). -/
def execEncbits (s : State) : Host.Outcome State Fault Refusal := .next (encbits s)

end Sys2Proof.Machine
end

