-- ==== Sys2Proof/Machine/Header.lean ====
section
/-!
DEFINITION. The header codec: WRHDR and RDHDR (44_header_codec.md; the layouts are R75 to R78).
-/

namespace Sys2Proof.Machine

/-- The code lengths of the length-count table, in header order (R75). -/
def bucketLengths : List Nat := (List.range 16).map (· + 1)

/-- The empty form: `48 00 02` (R76, R136). -/
def emptyForm : List Byte := [Config.markerHuff, 0x00, 0x02]

/-- The raw header: marker, content length (R77, R137). -/
def rawHeader (c : Context) : List Byte := Config.markerRaw :: u32Bytes c.clen

/-- HLEN of the full Huffman form, `23 + NSYM`, a 16-bit value (R78, R138). -/
def headerLength (c : Context) : BitVec 16 := BitVec.ofNat 16 (23 + c.nsym.toNat)

/-- The Huffman header: marker, the two length bytes high byte first, content length, the low eight
bits of each length count, the symbols in SYMLEN's order, the padding byte (R75, R138). -/
def huffmanHeader (c : Context) : List Byte :=
  [Config.markerHuff, (headerLength c).extractLsb' 8 8, (headerLength c).extractLsb' 0 8]
    ++ u32Bytes c.clen
    ++ bucketLengths.map (fun L => (lenAt c.lcnt L).extractLsb' 0 8)
    ++ c.records.map SymLen.sym
    ++ [c.pad]

/-- Which of the three forms is written, and EMPTY on the empty path (R135 to R138). -/
def writeForm (c : Context) : Cmd Unit :=
  if c.phase = .counted then do
    Cmd.write fun os => os.wrBytes emptyForm
    Cmd.modifyCtx fun c => { c with empty := true }
  else if c.disable then
    Cmd.write fun os => os.wrBytes (rawHeader c)
  else
    Cmd.write fun os => os.wrBytes (huffmanHeader c)

/-- The body of WRHDR (R135). -/
def wrhdrBody : Cmd Unit := do
  let c ← Cmd.ctx
  writeForm c
  Cmd.modifyCtx fun c => { c with phase := .hdrWritten }

/-- WRHDR as a unit command. -/
def wrhdr (s : State) : State := issue .wrhdr (complete wrhdrBody) s

/-- WRHDR (R135). -/
def execWrhdr (s : State) : Host.Outcome State Fault Refusal := .next (wrhdr s)

/-- What a header says, once it has been read and checked. -/
inductive Header where
  /-- Raw form: the content length (R140). -/
  | raw (clen : Word32)
  /-- Empty form (R142). -/
  | empty
  /-- Full Huffman form: content length, the 16 counts, the records, the padding byte (R143). -/
  | full (clen : Word32) (counts : List Byte) (symlen : List SymLen) (pad : Byte)
deriving DecidableEq, Repr

/-- The symbol table: for each bucket in ascending length order, that many symbol bytes, each a record
of that length (R79, R143). -/
def rdSymbols : Nat → List Byte → Reader (List SymLen)
  | _, [] => pure []
  | L, n :: counts => do
    let syms ← rdBytes n.toNat
    let rest ← rdSymbols (L + 1) counts
    pure (syms.map (fun s => { sym := s, len := BitVec.ofNat 8 L }) ++ rest)

/-- T, the sum of the 16 counts (R143). -/
def countSum (counts : List Byte) : Nat := (counts.map BitVec.toNat).sum

/-- The header after marker `0x48`. HCONS, the bytes consumed from the first length byte on, is the
two length bytes, the four content-length bytes, the counts, the symbols and the padding byte (R141
to R145). -/
def rdHuffmanHeader : Reader Header := do
  let hlen ← rdU16
  if hlen.toNat = Config.emptyHlen then pure .empty
  else do
    let clen ← rdU32
    let counts ← rdBytes 16
    if Config.symCap < countSum counts then throw .eTree
    else do
      let symlen ← rdSymbols 1 counts
      let pad ← rdByte
      if 2 + 4 + counts.length + symlen.length + 1 ≠ hlen.toNat then throw .eHdrlen
      else pure (.full clen counts symlen pad)

/-- A header: the marker selects the parse (R139, R140). -/
def rdHeader : Reader Header := do
  let m ← rdByte
  if m = Config.markerRaw then do
    let clen ← rdU32
    pure (.raw clen)
  else if m = Config.markerHuff then rdHuffmanHeader
  else throw .eMarker

/-- LCNT from the 16 count bytes, each zero-extended to 9 bits, `L = 1` first (R79). -/
def lcntOf (counts : List Byte) : LengthTable :=
  bucketLengths.foldl (fun t L => lenPut t L ((counts.getD (L - 1) 0).setWidth 9)) (Vector.replicate 16 0)

/-- MAXLEN after the symbol loop: the length of the last record read, 0 when there is none (R143). -/
def lastLength (rs : List SymLen) : BitVec 8 := rs.foldl (fun _ r => r.len) 0

/-- What RDHDR writes into the context from a header (R139 to R147). A context field written before an
error is not observable: cleanup has run (R206, R207). -/
def Context.loadHeader (c : Context) : Header → Context
  | .raw clen => { c with disable := true, clen := clen, phase := .hdrRead }
  | .empty => { c with disable := false, empty := true, phase := .hdrRead }
  | .full clen counts symlen pad =>
    { c with
      disable := false
      clen := clen
      lcnt := lcntOf counts
      symlen := symlen
      maxlen := lastLength symlen
      nsym := BitVec.ofNat 9 (countSum counts)
      pad := pad
      phase := .hdrRead }

/-- The body of RDHDR: read from the current position, no rewind; one progress event on success (R139,
R148). -/
def rdhdrBody : Cmd Unit := do
  let h ← Cmd.read rdHeader
  Cmd.modifyCtx fun c => c.loadHeader h
  Cmd.progress Config.progHdrUnits

/-- RDHDR as a unit command. -/
def rdhdr (s : State) : State := issue .rdhdr (complete rdhdrBody) s

/-- RDHDR (R139). -/
def execRdhdr (s : State) : Host.Outcome State Fault Refusal := .next (rdhdr s)

end Sys2Proof.Machine
end

