-- ==== Sys2Proof/Machine/Sequencer.lean ====
section
/-!
DEFINITION. The sequencer: CLEAR, ENCODE, DECODE (47_sequencer.md), and the three reserved codes (30_encoding.md R73).
-/

namespace Sys2Proof.Machine

/-- CLEAR as a unit command: legal in every phase, uses no stream (R180). -/
def clear (s : State) : State := issue .clear (complete Cmd.cleanup) s

/-- CLEAR (R180). -/
def execClear (s : State) : Host.Outcome State Fault Refusal := .next (clear s)

/-- The expansion of ENCODE: each line is the unit command of that name, run as if issued by the host,
stopping at the first whose RES is not OK (R85, R181). -/
def encodeUnits (s : State) : State :=
  let counted := count s
  let policed :=
    if counted.ctx.noneSeen then counted
    else (((counted.andThen build).andThen gencode).andThen hist).andThen policy
  (policed.andThen wrhdr).andThen encbits

/-- ENCODE as a command: both streams are checked before any work (R181, R186). -/
def encodeCall (s : State) : State := issue .encode encodeUnits s

/-- ENCODE (R181). -/
def execEncode (s : State) : Host.Outcome State Fault Refusal := .next (encodeCall s)

/-- The expansion of DECODE: RDHDR; REBUILD when the form is the full Huffman form; DECBITS; ending at
the first error, whose cleanup has already run (R182). -/
def decodeUnits (s : State) : State :=
  (rdhdr s).andThen fun read =>
    (if !read.ctx.disable && !read.ctx.empty then rebuild read else read).andThen decbits

/-- DECODE as a command: both streams are checked before any work (R182, R186). -/
def decodeCall (s : State) : State := issue .decode decodeUnits s

/-- DECODE (R182). -/
def execDecode (s : State) : Host.Outcome State Fault Refusal := .next (decodeCall s)

/-- A reserved code: the first acceptance check answers E_CMD and nothing else happens (R73, R202). -/
def reservedCode (i : Instr) (s : State) : State := issue i (fun t => t) s

/-- Code `0x0` (R73). -/
def execReserved0 (s : State) : Host.Outcome State Fault Refusal := .next (reservedCode .reserved0 s)

/-- Code `0xE` (R73). -/
def execReservedE (s : State) : Host.Outcome State Fault Refusal := .next (reservedCode .reservedE s)

/-- Code `0xF` (R73). -/
def execReservedF (s : State) : Host.Outcome State Fault Refusal := .next (reservedCode .reservedF s)

end Sys2Proof.Machine
end

