-- ==== Sys2Proof/Machine/Dispatch.lean ====
section
/-!
DEFINITION. The dispatch: one arm per command, each a call of its meaning.
-/

namespace Sys2Proof.Machine

/-- What each command does (R72, R73). -/
def exec (i : Instr) (s : State) : Host.Outcome State Fault Refusal :=
  match i with
  | .clear => Sys2Proof.Machine.execClear s
  | .count => Sys2Proof.Machine.execCount s
  | .build => Sys2Proof.Machine.execBuild s
  | .gencode => Sys2Proof.Machine.execGencode s
  | .hist => Sys2Proof.Machine.execHist s
  | .policy => Sys2Proof.Machine.execPolicy s
  | .wrhdr => Sys2Proof.Machine.execWrhdr s
  | .encbits => Sys2Proof.Machine.execEncbits s
  | .rdhdr => Sys2Proof.Machine.execRdhdr s
  | .rebuild => Sys2Proof.Machine.execRebuild s
  | .decbits => Sys2Proof.Machine.execDecbits s
  | .encode => Sys2Proof.Machine.execEncode s
  | .decode => Sys2Proof.Machine.execDecode s
  | .reserved0 => Sys2Proof.Machine.execReserved0 s
  | .reservedE => Sys2Proof.Machine.execReservedE s
  | .reservedF => Sys2Proof.Machine.execReservedF s

end Sys2Proof.Machine
end

