-- ==== Sys2Proof/Machine/HostPort.lean ====
section
/-!
DEFINITION. The host's side: running the next host action, placing a command where the next step takes it, and the
debug read path (10_state.md R32).
-/

namespace Sys2Proof.Machine

/-- What one host action does. A write to CMD runs the command it selects to completion (R23, R72); the
other actions happen between commands (R7, R221). -/
def runAction (a : HostAction) (s : State) : Host.Outcome State Fault Refusal :=
  match a with
  | .command op => exec (decodeOp op) s
  | .attachIS is => attachInput is s
  | .attachOS os => attachOutput os s
  | .detachIS => .next (detachInput s)
  | .detachOS => .next (detachOutput s)
  | .reset => .next s.hardwareReset

/-- The action the host takes next leaves the queue and runs; with none the block waits, "and all state
survives any length of waiting" (R212). -/
def runNext (s : State) : Host.Outcome State Fault Refusal :=
  match s.pending with
  | [] => .next s
  | a :: rest => runAction a { s with pending := rest }

/-- The host's next action becomes the writing of a command word to CMD. -/
def State.queueCommand (s : State) (w : Nat) : State :=
  { s with pending := .command (BitVec.ofNat 4 w) :: s.pending }

/-- The tree as the abstract value of R17: arena indices are not observable (R18, R32). -/
inductive TreeValue where
  | absent
  | leaf (sym : Byte) (freq : Word32)
  | internal (left right : TreeValue) (freq : Word32)
deriving DecidableEq, Repr

/-- A node without its arena indices (R18). -/
def Node.value : Node → TreeValue
  | .absent => .absent
  | .leaf _ s f => .leaf s f
  | .internal _ l r f => .internal l.value r.value f

/-- What the host can name on the read path: STATUS and every context field (R32). CMD is write-only
(R23). -/
inductive ReadName where
  | status
  | freq (s : Byte)
  | clen
  | pad
  | disable
  | symlen
  | nsym
  | code (s : Byte)
  | lcnt (L : Nat)
  | maxlen
  | empty
  | tree
deriving DecidableEq, Repr

/-- What a read gives. -/
inductive ReadValue where
  | number (width value : Nat)
  | flag (b : Bool)
  | records (rs : List SymLen)
  | bits (b : BitString)
  | tree (t : TreeValue)
deriving DecidableEq, Repr

/-- The debug read path: a value of the state, with no side effect (R32). -/
def State.hostRead (s : State) : ReadName → ReadValue
  | .status => .number 16 s.status.toNat
  | .freq b => .number 32 (symAt s.ctx.freq b).toNat
  | .clen => .number 32 s.ctx.clen.toNat
  | .pad => .number 8 s.ctx.pad.toNat
  | .disable => .flag s.ctx.disable
  | .symlen => .records s.ctx.symlen
  | .nsym => .number 9 s.ctx.nsym.toNat
  | .code b => .bits (symAt s.ctx.code b)
  | .lcnt L => .number 9 (lenAt s.ctx.lcnt L).toNat
  | .maxlen => .number 8 s.ctx.maxlen.toNat
  | .empty => .flag s.ctx.empty
  | .tree => .tree s.ctx.root.value

end Sys2Proof.Machine
end

