-- ==== Sys2Proof/Machine/Step.lean ====
section
/-!
DEFINITION. One step of the machine: one action of the host, run to completion (00_scope.md R7).
-/

namespace Sys2Proof.Machine

/-- One step (R6, R7, R23). -/
def step (s : State) : Host.Outcome State Fault Refusal := runNext s

/-- The state in which the very next step runs the command whose bits, numbered as
spec/opcode_table.json numbers them, are `w`: a command is fetched from the CMD port, so it becomes
the host's next action and nothing else changes (R23, R55). The port has four bits (R70). -/
def State.withFetchWord (s : State) (nbits w : Nat) : State := s.queueCommand (w % 2 ^ nbits)

end Sys2Proof.Machine
end

