-- ==== Sys2Proof/Safety.lean ====
section
/-!
DEFINITION. The terms claims are stated in: streams as bit strings, trees as leaves and paths, canonical codes, the
phase a command leaves, and the invariant of the machine.
-/

namespace Sys2Proof.Machine

/-! ### Streams -/

/-- The eight bits of a byte, bit 7 first (R41, R46). -/
def byteBits (b : Byte) : BitString := bin b.toNat 8

/-- The bits of a byte sequence, in stream order (R48). -/
def bytesBits (bs : List Byte) : BitString := bs.flatMap byteBits

/-- The bits of IS not yet read (R24, R45). -/
def IStream.rest (is : IStream) : BitString := (bytesBits is.bytes).drop is.pos

/-- Every bit written to OS so far, the pending bits of the accumulator included (R25). -/
def OStream.bits (os : OStream) : BitString := bytesBits os.bytes ++ bin os.acc.toNat os.nacc.val

/-- The accumulator holds no more bits than it counts (R25). -/
abbrev OStream.wf (os : OStream) : Prop := accumulatorOk os.acc os.nacc = true

/-! ### Trees -/

/-- The leaves, left to right: symbol and frequency. -/
def Node.leaves : Node → List (Byte × Word32)
  | .absent => []
  | .leaf _ s f => [(s, f)]
  | .internal _ l r _ => l.leaves ++ r.leaves

/-- The arena indices of a tree's nodes (R18). -/
def Node.indices : Node → List (BitVec 9)
  | .absent => []
  | .leaf i _ _ => [i]
  | .internal i l r _ => i :: (l.indices ++ r.indices)

/-- The arena index of a tree's root node (R18). -/
def Node.index : Node → Option (BitVec 9)
  | .absent => none
  | .leaf i _ _ => some i
  | .internal i _ _ _ => some i

/-- Every internal node's frequency is the sum of its children's, in 32 bits (R17, R102). -/
def Node.sumsUp : Node → Bool
  | .absent => true
  | .leaf _ _ _ => true
  | .internal _ l r f => decide (f = l.freq + r.freq) && l.sumsUp && r.sumsUp

/-- The node a bit string leads to from `t`: 0 left, 1 right (R120, R168). -/
def Node.follow (t : Node) (path : BitString) : Node := path.foldl Node.child t

/-- The bit string leads from the root to a leaf holding the symbol (R120, R165). -/
def Node.hasPath (t : Node) (path : BitString) (sym : Byte) : Prop := ∃ i f, t.follow path = .leaf i sym f

/-! ### The queue of BUILD -/

/-- `e` is the entry of the queue `q` with the smallest key `(freq, SEQ)` in lexicographic order, and `rest`
is the queue without it (R103). -/
def IsMin (e : Entry) (q rest : List Entry) : Prop :=
  q.Perm (e :: rest) ∧ ∀ x ∈ rest,
    e.node.freq.toNat < x.node.freq.toNat ∨ (e.node.freq.toNat = x.node.freq.toNat ∧ e.seq < x.seq)

/-- `t` is what merging makes of the queue `q`, `n` being the next insertion number: as long as there are
two entries the two smallest are popped, first pop left, second pop right, and their parent is
inserted; the last entry is the root (R102). -/
inductive Merges : List Entry → Nat → Node → Prop where
  | root (e : Entry) (n : Nat) : Merges [e] n e.node
  | merge {q q1 q2 : List Entry} {a b : Entry} {n : Nat} {t : Node} (first : IsMin a q q1) (second : IsMin b q1 q2)
      (rest : Merges (⟨.internal (BitVec.ofNat 9 n) a.node b.node (a.node.freq + b.node.freq), n⟩ :: q2) (n + 1) t) :
      Merges q n t

/-- The weighted path length: the sum over the leaves of depth times frequency (R105). -/
def Node.weightedPathLength : Node → Nat → Nat
  | .absent, _ => 0
  | .leaf _ _ f, d => d * f.toNat
  | .internal _ l r _, d => l.weightedPathLength (d + 1) + r.weightedPathLength (d + 1)

/-! ### Canonical codes -/

/-- The canonical code value of a record of length `l` that follows the records `before`: in closed form
`2^l * (sum over j before it of 2^(-l_j))` (R120 item 2). -/
def canonicalValue (before : List SymLen) (l : Nat) : Nat := (before.map fun r => 2 ^ (l - r.len.toNat)).sum

/-- The canonical code of record `i` of a sequence, as a bit string (R115, R116). -/
def canonicalCode (rs : List SymLen) (i : Nat) : BitString :=
  match rs[i]? with
  | some r => bin (canonicalValue (rs.take i) r.len.toNat) r.len.toNat
  | none => []

/-- Code space used by a sequence of records with lengths up to 16, in units of 2^(-16) (R164). -/
def codeSpace (rs : List SymLen) : Nat := (rs.map fun r => 2 ^ (16 - r.len.toNat)).sum

/-- Lengths do not decrease along the sequence (R143, R165). -/
def lengthsAscend (rs : List SymLen) : Prop := rs.Pairwise fun a b => a.len.toNat ≤ b.len.toNat

/-- Canonical order: ascending length, then strictly ascending symbol within a length (R112). -/
def canonicalOrder (rs : List SymLen) : Prop :=
  rs.Pairwise fun a b => a.len.toNat < b.len.toNat ∨ (a.len.toNat = b.len.toNat ∧ a.sym.toNat < b.sym.toNat)

/-- The number of records of length `L` (R125). -/
def countLength (rs : List SymLen) (L : Nat) : Nat := rs.countP fun r => decide (r.len.toNat = L)

/-- The bits the codes of an input take: each record's length times its symbol's count (R117). -/
def codeBits (freq : SymbolTable Word32) (rs : List SymLen) : Nat :=
  (rs.map fun r => r.len.toNat * (symAt freq r.sym).toNat).sum

/-! ### What the encode commands make of an input -/

/-- What COUNT leaves of a context for an input (R90). -/
def Context.counted (c : Context) (bs : List Byte) : Context :=
  { bs.foldl Context.countByte c with phase := .counted }

/-- The context in each phase of an encode of the input `bs` that began clean: what the unit commands up
to that phase make of it (R90, R100, R110, R125, R126, R135). -/
def Context.ofInput (p : Phase) (bs : List Byte) : Context :=
  let counted := Context.clean.counted bs
  match p with
  | .counted => counted
  | .built => counted.build
  | .coded => counted.build.gencode
  | .histed => counted.build.gencode.hist
  | .policed => counted.build.gencode.hist.policy
  | .hdrWritten =>
    if counted.noneSeen then { counted with empty := true, phase := .hdrWritten }
    else { counted.build.gencode.hist.policy with phase := .hdrWritten }
  | .idle | .hdrRead | .rebuilt => Context.clean

/-- The header WRHDR writes (R135). -/
def Context.headerBytes (c : Context) : List Byte :=
  if c.phase = .counted then emptyForm else if c.disable then rawHeader c else huffmanHeader c

/-- The content ENCBITS writes before its flush: nothing on the empty path, the input on the raw path,
the padding bits and the codes otherwise (R80, R150). -/
def Context.content (c : Context) (bs : List Byte) : BitString :=
  if c.empty then []
  else if c.disable then bytesBits bs
  else List.replicate c.pad.toNat false ++ bs.flatMap (symAt c.code)

/-! ### What a header says -/

/-- The records of a symbol table: each bucket takes its count of the symbol bytes, in order (R79, R143). -/
def bucketRecords : Nat → List Byte → List Byte → List SymLen
  | _, [], _ => []
  | L, n :: counts, syms =>
    (syms.take n.toNat).map (fun s => { sym := s, len := BitVec.ofNat 8 L }) ++
      bucketRecords (L + 1) counts (syms.drop n.toNat)

/-- The body of a full header, from the first length byte to the padding byte (R75). -/
def fullBody (hi lo : Byte) (clen : Word32) (counts syms : List Byte) (pad : Byte) : List Byte :=
  [hi, lo] ++ (u32Bytes clen ++ (counts ++ (syms ++ [pad])))

/-- A header the checks of RDHDR let pass: a full header has 16 counts that sum to at most 256, and its
records are its symbols put into the buckets (R143, R144). -/
def Header.checked : Header → Prop
  | .raw _ => True
  | .empty => True
  | .full _ counts symlen _ =>
    counts.length = 16 ∧ countSum counts ≤ 256 ∧
      ∃ syms, syms.length = countSum counts ∧ symlen = bucketRecords 1 counts syms

/-- A sequence RDHDR can leave: at most 256 records in ascending length order, lengths 1 to 16, and NSYM
counts them (R143, R144). -/
structure Context.decodable (c : Context) : Prop where
  count : c.nsym.toNat = c.symlen.length
  room : c.symlen.length ≤ 256
  ascends : lengthsAscend c.symlen
  lengths : ∀ r ∈ c.symlen, 1 ≤ r.len.toNat ∧ r.len.toNat ≤ 16

/-- The one sequence exempt from the completeness check: one record, of length 1 (R164). -/
abbrev Context.singleSymbol (c : Context) : Prop := ∃ s, c.symlen = [{ sym := s, len := 1 }]

/-- How many times the count of consumed bits reaches a multiple of 8 while it goes from `n` to `n + k`
(R174). -/
def ticks (n k : Nat) : Nat := (n + k) / 8 - n / 8

/-! ### Phases and the invariant -/

/-- The phase a command leaves when it completes with RES = OK; a reserved code never does (R184). -/
def phaseAfter : Instr → Option Phase
  | .clear => some .idle
  | .count => some .counted
  | .build => some .built
  | .gencode => some .coded
  | .hist => some .histed
  | .policy => some .policed
  | .wrhdr => some .hdrWritten
  | .encbits => some .idle
  | .rdhdr => some .hdrRead
  | .rebuild => some .rebuilt
  | .decbits => some .idle
  | .encode => some .idle
  | .decode => some .idle
  | .reserved0 | .reservedE | .reservedF => none

/-- One call: the commands run one after the other from `s` to `t`, each completing with RES = OK, with
PHASE away from IDLE between them and back at IDLE after the last (R184). -/
def State.call : State → List Instr → State → Prop
  | _, [], _ => False
  | s, [i], t => exec i s = .next t ∧ t.err = .ok ∧ t.ctx.phase = .idle
  | s, i :: is, t => ∃ u, exec i s = .next u ∧ u.err = .ok ∧ u.ctx.phase ≠ .idle ∧ u.call is t

/-- What the context holds, phase by phase: clean when idle (R30); during an encode what the commands so
far make of the input (R21); after RDHDR what a checked header says; after REBUILD also its tree. -/
def Context.consistent (c : Context) (input : List Byte) : Prop :=
  match c.phase with
  | .idle => c = Context.clean
  | .counted => c = Context.ofInput .counted input
  | .built => c = Context.ofInput .built input ∧ (Context.clean.counted input).noneSeen = false
  | .coded => c = Context.ofInput .coded input ∧ (Context.clean.counted input).noneSeen = false
  | .histed => c = Context.ofInput .histed input ∧ (Context.clean.counted input).noneSeen = false
  | .policed => c = Context.ofInput .policed input ∧ (Context.clean.counted input).noneSeen = false
  | .hdrWritten => c = Context.ofInput .hdrWritten input
  | .hdrRead => ∃ h : Header, h.checked ∧ c = Context.clean.loadHeader h
  | .rebuilt => ∃ (h : Header) (t : Node) (n : Nat), h.checked ∧ (Context.clean.loadHeader h).disable = false ∧
      (Context.clean.loadHeader h).empty = false ∧ rebuildTree (Context.clean.loadHeader h) = some (t, n) ∧
      c = { Context.clean.loadHeader h with root := t, nodeCnt := BitVec.ofNat 9 n, phase := .rebuilt }

/-- The invariant of the machine: the streams are ones the spec allows (R24, R25), and the context is
consistent with its phase and the attached input. -/
structure State.Inv (s : State) : Prop where
  cursor : cursorOk s.io.is.bytes.length s.io.is.pos = true
  accumulator : s.io.os.wf
  consistent : s.ctx.consistent s.io.is.bytes

end Sys2Proof.Machine
end

