-- ==== Sys2Proof/Certificates/Slice0/Obligations.lean ====
section
/-!
DEFINITION. The statements for the provers: what the spec's numbered rules say of the commands and of the whole machine.
A command completes by answering a next state; the result statements give that state whole, which is
also the command's frame.
-/

open Sys2Proof Sys2Proof.Machine

/-! ### Encodings and steps -/

/-- The code of every row of the table selects that row's command (R72, R73). -/
def Obligations.CommandCodes : Prop :=
  decodeOp 0x1 = .clear ∧ decodeOp 0x2 = .count ∧ decodeOp 0x3 = .build ∧ decodeOp 0x4 = .gencode ∧
  decodeOp 0x5 = .hist ∧ decodeOp 0x6 = .policy ∧ decodeOp 0x7 = .wrhdr ∧ decodeOp 0x8 = .encbits ∧
  decodeOp 0x9 = .rdhdr ∧ decodeOp 0xA = .rebuild ∧ decodeOp 0xB = .decbits ∧ decodeOp 0xC = .encode ∧
  decodeOp 0xD = .decode ∧ decodeOp 0x0 = .reserved0 ∧ decodeOp 0xE = .reservedE ∧ decodeOp 0xF = .reservedF

/-- Decoding and encoding agree in both directions, and exactly the numbers that fit the port's four bits
are command words (R70, R71). -/
def Obligations.DecodeEncodeAgree : Prop :=
  (∀ i : Instr, i.wellFormed = true → decodeOp (encode i) = i ∧ decodeWord (encode i).toNat = .ok i) ∧
  (∀ op : BitVec 4, encode (decodeOp op) = op) ∧
  (∀ w : Nat, w < 16 → decodeWord w = .ok (decodeOp (BitVec.ofNat 4 w))) ∧
  (∀ w : Nat, 16 ≤ w → decodeWord w = .error .widerThanPort)

/-- A write of a command word to CMD runs the command it selects, in the state as it stands (R7, R23); with
no action queued the block waits and nothing changes (R212). `pending` is the model's own field
(assumption log 2). -/
def Obligations.StepRunsTheCommand : Prop :=
  (∀ (s : State) (op : BitVec 4) (rest : List HostAction), s.pending = .command op :: rest →
    step s = exec (decodeOp op) { s with pending := rest }) ∧
  (∀ (s : State) (nbits w : Nat), 4 ≤ nbits → w < 16 →
    decodeTableWord nbits w = some (decodeOp (BitVec.ofNat 4 w)) ∧
    step (s.withFetchWord nbits w) = exec (decodeOp (BitVec.ofNat 4 w)) s) ∧
  (∀ s : State, s.pending = [] → step s = .next s)

/-- What the host's stream actions do (R24, R25, R26), and the two attachments the model refuses: a stream the
spec says cannot exist, and other input bytes while an encode is under way (assumption logs 4 and 5). That
the other attachments and the detachments have this effect inside a call too, where R224 leaves them
undefined, is the model's choice (log 25). -/
def Obligations.HostStreamActions : Prop :=
  ∀ (s : State) (rest : List HostAction),
    (s.pending = .detachIS :: rest → step s = .next { s with isValid := false, pending := rest }) ∧
    (s.pending = .detachOS :: rest → step s = .next { s with osValid := false, pending := rest }) ∧
    (∀ os : OStream, s.pending = .attachOS os :: rest →
      (os.acc.toNat < 2 ^ os.nacc.val →
        step s = .next { s with io := { s.io with os := os }, osValid := true, pending := rest }) ∧
      (2 ^ os.nacc.val ≤ os.acc.toNat → step s = .refused .streamMalformed)) ∧
    (∀ is : IStream, s.pending = .attachIS is :: rest →
      (8 * is.bytes.length < is.pos → step s = .refused .streamMalformed) ∧
      (is.pos ≤ 8 * is.bytes.length →
        (s.ctx.phase = .idle ∨ s.ctx.phase = .hdrRead ∨ s.ctx.phase = .rebuilt ∨ is.bytes = s.io.is.bytes →
          step s = .next { s with io := { s.io with is := is }, isValid := true, pending := rest }) ∧
        (s.ctx.phase ≠ .idle → s.ctx.phase ≠ .hdrRead → s.ctx.phase ≠ .rebuilt → is.bytes ≠ s.io.is.bytes →
          step s = .refused .inputChangedDuringEncode)))

/-! ### Reset, the clean context, the status word -/

/-- Hardware reset puts the block in the clean context with PHASE = IDLE, ROOT = NIL, NODE_CNT = 0 and ERR =
OK, and touches neither the streams nor the valid inputs (R220). -/
def Obligations.HardwareReset : Prop :=
  ∀ (s : State) (rest : List HostAction), s.pending = .reset :: rest →
    ∃ t, step s = .next t ∧ t.ctx.isClean = true ∧ t.ctx.phase = .idle ∧ t.ctx.root = .absent ∧ t.ctx.nodeCnt = 0 ∧
      t = { s with ctx := t.ctx, err := .ok, pending := rest }

/-- The reset values of the block's own state (R31). -/
def Obligations.ResetValues : Prop :=
  (∀ b : Byte, symAt State.reset.ctx.freq b = 0 ∧ symAt State.reset.ctx.code b = []) ∧
  State.reset.ctx.clen = 0 ∧ State.reset.ctx.pad = 0 ∧ State.reset.ctx.disable = false ∧
  State.reset.ctx.symlen = [] ∧ State.reset.ctx.nsym = 0 ∧ State.reset.ctx.root = .absent ∧
  State.reset.ctx.nodeCnt = 0 ∧ (∀ L, 1 ≤ L → L ≤ 16 → lenAt State.reset.ctx.lcnt L = 0) ∧
  State.reset.ctx.maxlen = 0 ∧ State.reset.ctx.empty = false ∧ State.reset.ctx.phase = .idle ∧
  State.reset.err = .ok

/-- CLEAN says of every context field that it has its clean value, and, in every state that meets the
machine's invariant, PHASE = IDLE if and only if CLEAN holds (R30, whose equivalence the spec derives). -/
def Obligations.IdleIffClean : Prop :=
  (∀ c : Context, c.isClean = true ↔
    (∀ b : Byte, symAt c.freq b = 0 ∧ symAt c.code b = []) ∧ c.symlen = [] ∧ c.nsym = 0 ∧ c.root = .absent ∧
    c.nodeCnt = 0 ∧ c.pad = 0 ∧ c.clen = 0 ∧ c.disable = false ∧ (∀ L, 1 ≤ L → L ≤ 16 → lenAt c.lcnt L = 0) ∧
    c.maxlen = 0 ∧ c.empty = false ∧ c.phase = .idle) ∧
  (∀ s : State, s.Inv → (s.ctx.phase = .idle ↔ s.ctx.isClean = true))

/-- The fields of STATUS, and the numbers of PHASE and of RES (R21, R22, R23, R195). -/
def Obligations.StatusWord : Prop :=
  (∀ s : State, s.status.extractLsb' 0 3 = s.err.code ∧ s.status.extractLsb' 3 4 = s.ctx.phase.code ∧
    s.status.getLsbD 7 = s.ctx.disable ∧ s.status.getLsbD 8 = s.ctx.empty ∧ s.status.getLsbD 9 = s.isValid ∧
    s.status.getLsbD 10 = s.osValid ∧ s.status.extractLsb' 11 5 = 0) ∧
  [Phase.idle, .counted, .built, .coded, .histed, .policed, .hdrWritten, .hdrRead, .rebuilt].map Phase.code =
    [0, 1, 2, 3, 4, 5, 6, 7, 8] ∧
  [Res.ok, .eMarker, .eHdrlen, .eTree, .eNull, .eEos, .eSeq, .eCmd].map Res.code = [0, 1, 2, 3, 4, 5, 6, 7]

/-! ### Acceptance, phases, errors -/

/-- Every command completes: it answers a next state in every state, never a stop (R185, R208, R230). -/
def Obligations.EveryCommandCompletes : Prop := ∀ (i : Instr) (s : State), ∃ t, exec i s = .next t

/-- The acceptance check, command by command: a reserved code gives E_CMD; then a command whose PHASE or
condition does not hold gives E_SEQ; then one whose streams are not attached gives E_NULL; nothing but
ERR changes in these; a command that passes completes with none of the three codes (R183). -/
def Obligations.AcceptanceCheck : Prop :=
  (∀ i ∈ [Instr.reserved0, .reservedE, .reservedF], ∀ s : State, exec i s = .next { s with err := .eCmd }) ∧
  ∀ (i : Instr) (allowed : Context → Prop) (usesIS usesOS : Bool),
    (i, allowed, usesIS, usesOS) ∈ ([
      (.clear, fun _ => True, false, false),
      (.count, fun c => c.phase = .idle, true, false),
      (.build, fun c => c.phase = .counted ∧ ¬ ∀ b : Byte, symAt c.freq b = 0, false, false),
      (.gencode, fun c => c.phase = .built, false, false),
      (.hist, fun c => c.phase = .coded, false, false),
      (.policy, fun c => c.phase = .histed, false, false),
      (.wrhdr, fun c => c.phase = .policed ∨ (c.phase = .counted ∧ ∀ b : Byte, symAt c.freq b = 0), false, true),
      (.encbits, fun c => c.phase = .hdrWritten, true, true),
      (.rdhdr, fun c => c.phase = .idle, true, false),
      (.rebuild, fun c => c.phase = .hdrRead ∧ c.disable = false ∧ c.empty = false, false, false),
      (.decbits, fun c => c.phase = .rebuilt ∨ (c.phase = .hdrRead ∧ (c.disable = true ∨ c.empty = true)), true, true),
      (.encode, fun c => c.phase = .idle, true, true),
      (.decode, fun c => c.phase = .idle, true, true)] : List (Instr × (Context → Prop) × Bool × Bool)) →
    ∀ s : State,
      (¬ allowed s.ctx → exec i s = .next { s with err := .eSeq }) ∧
      (allowed s.ctx → (usesIS = true ∧ s.isValid = false) ∨ (usesOS = true ∧ s.osValid = false) →
        exec i s = .next { s with err := .eNull }) ∧
      (allowed s.ctx → (usesIS = true → s.isValid = true) → (usesOS = true → s.osValid = true) →
        ∃ t, exec i s = .next t ∧ t.err ≠ .eCmd ∧ t.err ≠ .eSeq ∧ t.err ≠ .eNull)

/-- How PHASE moves: the table of transitions for a command that completes with OK; unchanged by a command
that fails its acceptance check; IDLE after an error raised later (R184). -/
def Obligations.PhaseTransitions : Prop :=
  ∀ (i : Instr) (s t : State), exec i s = .next t →
    (t.err = .ok →
      (i = .clear ∧ t.ctx.phase = .idle) ∨
      (i, s.ctx.phase, t.ctx.phase) ∈ ([
        (.count, .idle, .counted), (.build, .counted, .built), (.gencode, .built, .coded), (.hist, .coded, .histed),
        (.policy, .histed, .policed), (.wrhdr, .policed, .hdrWritten), (.wrhdr, .counted, .hdrWritten),
        (.encbits, .hdrWritten, .idle), (.rdhdr, .idle, .hdrRead), (.rebuild, .hdrRead, .rebuilt),
        (.decbits, .rebuilt, .idle), (.decbits, .hdrRead, .idle), (.encode, .idle, .idle),
        (.decode, .idle, .idle)] : List (Instr × Phase × Phase))) ∧
    (t.err = .eCmd ∨ t.err = .eSeq ∨ t.err = .eNull → t.ctx.phase = s.ctx.phase) ∧
    (t.err = .eMarker ∨ t.err = .eHdrlen ∨ t.err = .eTree ∨ t.err = .eEos → t.ctx.phase = .idle)

/-- The only command sequences that take the block from IDLE back to IDLE, all completing with OK, CLEAR
apart: the two encode sequences, the two decode sequences, ENCODE and DECODE; in the short encode COUNT has
seen no symbol, so that from a state of the invariant an input of at most 2^32 - 1 bytes is empty; the
short decode is for the raw and empty forms only (R184, where the spec derives it). -/
def Obligations.LegalCallSequences : Prop :=
  ∀ (s t : State) (cs : List Instr), s.ctx.phase = .idle → s.call cs t → .clear ∉ cs →
    cs = [.count, .build, .gencode, .hist, .policy, .wrhdr, .encbits] ∨
    (cs = [.count, .wrhdr, .encbits] ∧
      (∃ u, exec .count s = .next u ∧ ∀ b : Byte, symAt u.ctx.freq b = 0) ∧
      (s.Inv → s.io.is.bytes.length < 2 ^ 32 → s.io.is.bytes = [])) ∨
    cs = [.rdhdr, .rebuild, .decbits] ∨
    (cs = [.rdhdr, .decbits] ∧ ∃ u, exec .rdhdr s = .next u ∧ (u.ctx.disable = true ∨ u.ctx.empty = true)) ∨
    cs = [.encode] ∨ cs = [.decode]

/-- Error entry: an error raised after acceptance leaves the clean context and its code in ERR, and every
stream operation done before it (the old output is a prefix of the new); an error at acceptance changes
ERR alone (R206, R207, R209). -/
def Obligations.ErrorEntry : Prop :=
  ∀ (i : Instr) (s t : State), exec i s = .next t →
    (t.err = .eMarker ∨ t.err = .eHdrlen ∨ t.err = .eTree ∨ t.err = .eEos →
      t.ctx.isClean = true ∧ t.io.is.bytes = s.io.is.bytes ∧ s.io.os.bits <+: t.io.os.bits ∧
      s.io.os.bytes <+: t.io.os.bytes ∧ t.isValid = s.isValid ∧ t.osValid = s.osValid ∧ t.pending = s.pending) ∧
    (t.err = .eCmd ∨ t.err = .eSeq ∨ t.err = .eNull → t = { s with err := t.err })

/-- Which completion codes each command can end with (R195, R196 to R203). -/
def Obligations.WhichErrors : Prop :=
  ∀ (i : Instr) (codes : List Res), (i, codes) ∈ ([
      (.clear, [.ok]),
      (.count, [.ok, .eSeq, .eNull]),
      (.build, [.ok, .eSeq]),
      (.gencode, [.ok, .eSeq]),
      (.hist, [.ok, .eSeq]),
      (.policy, [.ok, .eSeq]),
      (.wrhdr, [.ok, .eSeq, .eNull]),
      (.encbits, [.ok, .eSeq, .eNull]),
      (.rdhdr, [.ok, .eSeq, .eNull, .eMarker, .eHdrlen, .eTree, .eEos]),
      (.rebuild, [.ok, .eSeq, .eTree]),
      (.decbits, [.ok, .eSeq, .eNull, .eTree, .eEos]),
      (.encode, [.ok, .eSeq, .eNull]),
      (.decode, [.ok, .eSeq, .eNull, .eMarker, .eHdrlen, .eTree, .eEos]),
      (.reserved0, [.eCmd]),
      (.reservedE, [.eCmd]),
      (.reservedF, [.eCmd])] : List (Instr × List Res)) →
    ∀ s t : State, exec i s = .next t → t.err ∈ codes

/-- A reserved code completes at once with E_CMD and changes nothing but ERR; every other code selects one of
the thirteen commands (R73, R202). -/
def Obligations.ReservedCodes : Prop :=
  (∀ (s : State) (op : BitVec 4), op = 0x0 ∨ op = 0xE ∨ op = 0xF →
    exec (decodeOp op) s = .next { s with err := .eCmd }) ∧
  (∀ s : State, exec .reserved0 s = .next { s with err := .eCmd } ∧ exec .reservedE s = .next { s with err := .eCmd } ∧
    exec .reservedF s = .next { s with err := .eCmd }) ∧
  (∀ op : BitVec 4, op ≠ 0x0 → op ≠ 0xE → op ≠ 0xF →
    decodeOp op ∈ [Instr.clear, .count, .build, .gencode, .hist, .policy, .wrhdr, .encbits, .rdhdr, .rebuild, .decbits,
      .encode, .decode])

/-! ### Streams -/

/-- What every command leaves of the streams: input bytes, valid inputs and the host's queue unchanged; the
output and the progress events only grow; a cursor inside the stream stays inside; the commands that
use no stream touch none; only ENCBITS and ENCODE change how many bits are pending, and they leave none
(R24 to R27, R49, R53). -/
def Obligations.StreamFrame : Prop :=
  ∀ (i : Instr) (s t : State), exec i s = .next t →
    t.io.is.bytes = s.io.is.bytes ∧ t.isValid = s.isValid ∧ t.osValid = s.osValid ∧ t.pending = s.pending ∧
    s.io.os.bytes <+: t.io.os.bytes ∧ s.io.os.bits <+: t.io.os.bits ∧ s.io.prog <+: t.io.prog ∧
    (s.io.is.pos ≤ 8 * s.io.is.bytes.length → t.io.is.pos ≤ 8 * t.io.is.bytes.length) ∧
    (s.io.os.wf → t.io.os.wf) ∧
    (i ∈ [Instr.clear, .build, .gencode, .hist, .policy, .rebuild, .reserved0, .reservedE, .reservedF] → t.io = s.io) ∧
    (i = .wrhdr → t.io.is = s.io.is ∧ t.io.prog = s.io.prog) ∧
    (i = .count ∨ i = .rdhdr → t.io.os = s.io.os) ∧
    (i = .count → t.io.prog = s.io.prog) ∧
    (i ≠ .encbits → i ≠ .encode → t.io.os.nacc = s.io.os.nacc) ∧
    (i = .encbits ∨ i = .encode → t.err = .ok → t.io.os.nacc = 0)

/-- The reads of the input stream: a bit is taken from bit 7 down; a byte is eight bits at any position, its
first bit most significant, and the byte itself on a byte boundary; two-byte and four-byte reads are
big-endian; a read of any width that runs out consumes the bits there are and raises E_EOS (R41 to R45,
R50). -/
def Obligations.InputReads : Prop :=
  (∀ is : IStream, is.pos < 8 * is.bytes.length →
    rdBit is = .ok ((is.bytes.getD (is.pos / 8) 0).getLsbD (7 - is.pos % 8)) { is with pos := is.pos + 1 }) ∧
  (∀ is : IStream, 8 * is.bytes.length ≤ is.pos → rdBit is = .error .eEos is) ∧
  (∀ (is : IStream) (b : Byte) (r : BitString), is.rest = byteBits b ++ r →
    rdByte is = .ok b { is with pos := is.pos + 8 }) ∧
  (∀ (is : IStream) (k : Nat) (b : Byte), is.pos = 8 * k → is.bytes[k]? = some b →
    rdByte is = .ok b { is with pos := is.pos + 8 }) ∧
  (∀ (is : IStream), is.pos ≤ 8 * is.bytes.length → 8 * is.bytes.length < is.pos + 8 →
    rdByte is = .error .eEos { is with pos := 8 * is.bytes.length }) ∧
  (∀ (is : IStream) (a b : Byte) (r : BitString), is.rest = bytesBits [a, b] ++ r →
    ∃ v, rdU16 is = .ok v { is with pos := is.pos + 16 } ∧ v.toNat = 256 * a.toNat + b.toNat) ∧
  (∀ (is : IStream) (a b c d : Byte) (r : BitString), is.rest = bytesBits [a, b, c, d] ++ r →
    ∃ v, rdU32 is = .ok v { is with pos := is.pos + 32 } ∧
      v.toNat = a.toNat * 2 ^ 24 + b.toNat * 2 ^ 16 + c.toNat * 2 ^ 8 + d.toNat) ∧
  (∀ is : IStream, is.pos ≤ 8 * is.bytes.length → 8 * is.bytes.length < is.pos + 16 →
    rdU16 is = .error .eEos { is with pos := 8 * is.bytes.length }) ∧
  (∀ is : IStream, is.pos ≤ 8 * is.bytes.length → 8 * is.bytes.length < is.pos + 32 →
    rdU32 is = .error .eEos { is with pos := 8 * is.bytes.length }) ∧
  (∀ is : IStream, (is.atEnd = true ↔ 8 * is.bytes.length ≤ is.pos) ∧ is.rewind = { is with pos := 0 })

/-- The writes of the output stream: each appends its bits, first bit most significant; on a byte boundary a
byte goes out unchanged; four bytes go out high byte first; `flush` puts the pending bits at the top of
one byte with zeros below, and does nothing when none is pending (R46, R47). -/
def Obligations.OutputWrites : Prop :=
  (∀ (os : OStream) (b : Bool), (os.wrBit b).bits = os.bits ++ [b] ∧
    (os.wrBit b).nacc.val = (os.nacc.val + 1) % 8 ∧ (os.wf → (os.wrBit b).wf)) ∧
  (∀ (os : OStream) (bits : BitString), (os.wrBits bits).bits = os.bits ++ bits ∧
    (os.wrBits bits).nacc.val = (os.nacc.val + bits.length) % 8) ∧
  (∀ (os : OStream) (v : Byte), (os.wrByte v).bits = os.bits ++ byteBits v ∧ (os.wrByte v).nacc = os.nacc ∧
    (os.nacc = 0 → os.wf → os.wrByte v = { os with bytes := os.bytes ++ [v] })) ∧
  (∀ (os : OStream) (v : Word32), os.wrU32 v =
    (((os.wrByte (v.extractLsb' 24 8)).wrByte (v.extractLsb' 16 8)).wrByte (v.extractLsb' 8 8)).wrByte
      (v.extractLsb' 0 8)) ∧
  (∀ os : OStream, os.nacc = 0 → os.flush = os) ∧
  (∀ os : OStream, os.nacc ≠ 0 → os.wf →
    os.flush = { bytes := os.bytes ++ [os.acc <<< (8 - os.nacc.val)], acc := 0, nacc := 0 } ∧
    os.flush.bits = os.bits ++ List.replicate (8 - os.nacc.val) false)

/-! ### CLEAR, COUNT, BUILD -/

/-- CLEAR resets the context, in every phase and with no stream, and touches no stream and no input; on a
clean context it changes nothing but ERR, to OK (R180). -/
def Obligations.ClearCompletes : Prop :=
  Context.clean.isClean = true ∧
  ∀ s : State, exec .clear s = .next { s with ctx := Context.clean, err := .ok } ∧
    (s.ctx.isClean = true → exec .clear s = .next { s with err := .ok })

/-- COUNT adds the number of occurrences of each byte to its count and the number of bytes to CLEN, modulo
2^32, from the start of the input whatever its position was, and ends at the end of the input (R90). -/
def Obligations.CountCompletes : Prop :=
  ∀ s : State,
    (s.ctx.phase = .idle → s.isValid = true →
      ∃ freq : SymbolTable Word32, exec .count s = .next
        { s with
          ctx := { s.ctx with
            freq := freq, clen := s.ctx.clen + BitVec.ofNat 32 s.io.is.bytes.length, phase := .counted }
          io := { s.io with is := { s.io.is with pos := 8 * s.io.is.bytes.length } }
          err := .ok } ∧
        ∀ b : Byte, symAt freq b = symAt s.ctx.freq b + BitVec.ofNat 32 (s.io.is.bytes.count b)) ∧
    (s.ctx.phase ≠ .idle → exec .count s = .next { s with err := .eSeq }) ∧
    (s.ctx.phase = .idle → s.isValid = false → exec .count s = .next { s with err := .eNull })

/-- After COUNT from a clean context on an input of at most 2^32 - 1 bytes the counts sum to CLEN, which is
the input's length; the symbols with a nonzero count are the distinct bytes of the input, and there is
none exactly when the input is empty (R92, which the spec derives; R93). -/
def Obligations.CountTotals : Prop :=
  ∀ s : State, s.Inv → s.ctx.phase = .idle → s.isValid = true → s.io.is.bytes.length < 2 ^ 32 →
    ∃ t, exec .count s = .next t ∧
      (allSymbols.map fun b => (symAt t.ctx.freq b).toNat).sum = t.ctx.clen.toNat ∧
      t.ctx.clen.toNat = s.io.is.bytes.length ∧
      (∀ b : Byte, (symAt t.ctx.freq b).toNat = s.io.is.bytes.count b) ∧
      (allSymbols.filter fun b => symAt t.ctx.freq b != 0).length = s.io.is.bytes.dedup.length ∧
      (t.ctx.noneSeen = true ↔ ∀ b : Byte, symAt t.ctx.freq b = 0) ∧
      (t.ctx.noneSeen = true ↔ s.io.is.bytes = [])

/-- BUILD makes one leaf for each symbol with a nonzero count, in ascending symbol order, and merges the two
entries with the smallest key (freq, SEQ) until one node is left, first pop left and second pop right
(R100, R101, R103). -/
def Obligations.BuildCompletes : Prop :=
  ∀ s : State,
    (s.ctx.phase = .counted → (∃ b : Byte, symAt s.ctx.freq b ≠ 0) →
      ∃ tree : Node,
        let seen := allSymbols.filter fun b => symAt s.ctx.freq b != 0
        let leaves := seen.mapIdx fun i b => ({ node := .leaf (BitVec.ofNat 9 i) b (symAt s.ctx.freq b), seq := i } : Entry)
        exec .build s = .next
          { s with
            ctx := { s.ctx with root := tree, nodeCnt := BitVec.ofNat 9 (2 * seen.length - 1), phase := .built }
            err := .ok } ∧
        Merges leaves seen.length tree) ∧
    (s.ctx.phase ≠ .counted ∨ (∀ b : Byte, symAt s.ctx.freq b = 0) → exec .build s = .next { s with err := .eSeq })

/-- The tree BUILD makes of an input of 1 to 2^32 - 1 bytes: N leaves, one for each distinct byte, and N - 1
internal nodes, each with two children; the root's frequency is CLEN; the leaf of the i-th smallest symbol
is node i, the internal nodes are numbered from N on in the order they are made, and the root is node 2N -
2; no binary tree with these leaves, one-child nodes allowed, has a smaller weighted path length; and equal
counts give an equal tree (R105). -/
def Obligations.BuildResult : Prop :=
  ∀ s : State, s.Inv → s.ctx.phase = .counted → s.io.is.bytes ≠ [] → s.io.is.bytes.length < 2 ^ 32 →
    ∃ t, exec .build s = .next t ∧ t.err = .ok ∧
      let seen := allSymbols.filter fun b => symAt s.ctx.freq b != 0
      t.ctx.root.full = true ∧
      t.ctx.root.leaves.Perm (seen.map fun b => (b, symAt s.ctx.freq b)) ∧
      t.ctx.root.indices.Perm ((List.range (2 * seen.length - 1)).map (BitVec.ofNat 9)) ∧
      t.ctx.root.freq = s.ctx.clen ∧
      t.ctx.root.index = some (BitVec.ofNat 9 (2 * seen.length - 2)) ∧
      (∀ (i : Nat) (b : Byte), seen[i]? = some b →
        ∃ path, t.ctx.root.follow path = .leaf (BitVec.ofNat 9 i) b (symAt s.ctx.freq b)) ∧
      Merges (seen.mapIdx fun i b => { node := .leaf (BitVec.ofNat 9 i) b (symAt s.ctx.freq b), seq := i }) seen.length
        t.ctx.root ∧
      (∀ other : Node, other.leaves.Perm (seen.map fun b => (b, symAt s.ctx.freq b)) →
        t.ctx.root.weightedPathLength 0 ≤ other.weightedPathLength 0) ∧
      (∀ u : State, u.ctx.phase = .counted → u.ctx.freq = s.ctx.freq →
        ∃ w, exec .build u = .next w ∧ w.err = .ok ∧ w.ctx.root = t.ctx.root)

/-! ### GENCODE, HIST, POLICY -/

/-- GENCODE: the records are the tree's leaves with their depths in canonical order, a lone leaf's length
being 1; the codes follow the recurrence over the records; PAD is the padding count of R117; nothing
else changes (R110 to R113, R115 to R117). The premises on the tree hold of every tree BUILD makes
(EncoderTree). -/
def Obligations.GencodeCompletes : Prop :=
  ∀ s : State,
    (s.ctx.phase = .built → s.ctx.root.full = true → (s.ctx.root.leaves.map Prod.fst).Nodup →
      s.ctx.root.leaves.length ≤ 256 →
      ∃ (rs : List SymLen) (code : SymbolTable BitString) (v : Nat → Nat),
        exec .gencode s = .next
          { s with
            ctx := { s.ctx with
              symlen := rs, nsym := BitVec.ofNat 9 s.ctx.root.leaves.length, code := code,
              pad := BitVec.ofNat 8 ((8 - codeBits s.ctx.freq rs % 8) % 8), phase := .coded }
            err := .ok } ∧
        rs.length = s.ctx.root.leaves.length ∧ canonicalOrder rs ∧
        (∀ i b f, s.ctx.root = .leaf i b f → rs = [{ sym := b, len := 1 }]) ∧
        ((∀ i b f, s.ctx.root ≠ .leaf i b f) → ∀ r : SymLen,
          r ∈ rs ↔ ∃ path i f, s.ctx.root.follow path = .leaf i r.sym f ∧ path.length = r.len.toNat) ∧
        v 0 = 0 ∧
        (∀ i a b, rs[i]? = some a → rs[i + 1]? = some b → v (i + 1) = (v i + 1) <<< (b.len.toNat - a.len.toNat)) ∧
        (∀ i r, rs[i]? = some r → symAt code r.sym = bin (v i) r.len.toNat) ∧
        (∀ b : Byte, b ∉ rs.map SymLen.sym → symAt code b = symAt s.ctx.code b)) ∧
    (s.ctx.phase ≠ .built → exec .gencode s = .next { s with err := .eSeq })

/-- PAD is 0 to 7 and makes the content a whole number of bytes: PAD is (8 - acc) mod 8, acc being the sum of
length times count modulo 8, and that sum is the number of code bits the input takes (R117). -/
def Obligations.PaddingAligns : Prop :=
  ∀ s : State, s.Inv → s.ctx.phase = .coded → s.io.is.bytes.length < 2 ^ 32 →
    s.ctx.pad.toNat = (8 - codeBits s.ctx.freq s.ctx.symlen % 8) % 8 ∧ s.ctx.pad.toNat ≤ 7 ∧
    codeBits s.ctx.freq s.ctx.symlen = (s.io.is.bytes.flatMap (symAt s.ctx.code)).length ∧
    (s.ctx.pad.toNat + codeBits s.ctx.freq s.ctx.symlen) % 8 = 0

/-- The canonical codes of a tree BUILD made: the value of each code fits its length and has the closed form;
of two codes of one length the smaller symbol has the smaller code, and a shorter code is smaller than
a longer one; no code is a prefix of another; and each code is the path to the leaf REBUILD creates for
its record (R120, whose values and paths the spec derives). -/
def Obligations.CanonicalCodes : Prop :=
  ∀ s : State, s.Inv → s.ctx.phase = .coded →
    ∃ v : Nat → Nat,
      (∀ i r, s.ctx.symlen[i]? = some r →
        symAt s.ctx.code r.sym = bin (v i) r.len.toNat ∧ v i < 2 ^ r.len.toNat ∧
        v i = ((s.ctx.symlen.take i).map fun e => 2 ^ (r.len.toNat - e.len.toNat)).sum) ∧
      (∀ i j a b, s.ctx.symlen[i]? = some a → s.ctx.symlen[j]? = some b →
        (a.len = b.len → a.sym.toNat < b.sym.toNat → v i < v j) ∧
        (a.len.toNat < b.len.toNat → v i * 2 ^ (b.len.toNat - a.len.toNat) < v j)) ∧
      (∀ a ∈ s.ctx.symlen, ∀ b ∈ s.ctx.symlen, a.sym ≠ b.sym →
        ¬ symAt s.ctx.code a.sym <+: symAt s.ctx.code b.sym) ∧
      ((∀ r ∈ s.ctx.symlen, r.len.toNat ≤ 16) → ∀ d : State, d.ctx.phase = .hdrRead → d.ctx.disable = false →
        d.ctx.empty = false → d.ctx.symlen = s.ctx.symlen → d.ctx.nsym = s.ctx.nsym →
        ∃ t, exec .rebuild d = .next t ∧ t.err = .ok ∧
          ∀ r ∈ s.ctx.symlen, t.ctx.root.hasPath (symAt s.ctx.code r.sym) r.sym)

/-- HIST counts the records of each length 1 to 16 and takes the largest length of all; in a sequence sorted
by length that is the last record's (R125). -/
def Obligations.HistCompletes : Prop :=
  ∀ s : State,
    (s.ctx.phase = .coded →
      ∃ (lcnt : LengthTable) (maxlen : BitVec 8),
        let rs := s.ctx.symlen.take s.ctx.nsym.toNat
        exec .hist s = .next
          { s with ctx := { s.ctx with lcnt := lcnt, maxlen := maxlen, phase := .histed }, err := .ok } ∧
        (∀ L, 1 ≤ L → L ≤ 16 → lenAt lcnt L = BitVec.ofNat 9 (countLength rs L)) ∧
        (∀ r ∈ rs, r.len.toNat ≤ maxlen.toNat) ∧ (rs = [] → maxlen = 0) ∧ (rs ≠ [] → ∃ r ∈ rs, maxlen = r.len) ∧
        (lengthsAscend rs → ∀ r, rs.getLast? = some r → maxlen = r.len)) ∧
    (s.ctx.phase ≠ .coded → exec .hist s = .next { s with err := .eSeq })

/-- POLICY sets DISABLE exactly when MAXLEN exceeds 16, or all 256 symbols are present and the first and last
records have one length (R126). -/
def Obligations.PolicyCompletes : Prop :=
  ∀ s : State,
    (s.ctx.phase = .histed →
      exec .policy s = .next
        { s with
          ctx := { s.ctx with
            disable := decide (16 < s.ctx.maxlen.toNat ∨
              (s.ctx.nsym.toNat = 256 ∧ (s.ctx.symlen[0]?).map SymLen.len = (s.ctx.symlen[255]?).map SymLen.len))
            phase := .policed }
          err := .ok }) ∧
    (s.ctx.phase ≠ .histed → exec .policy s = .next { s with err := .eSeq })

/-- What DISABLE = 0 guarantees the header codec: MAXLEN is at most 16, the counts sum to NSYM, and every count
fits one byte (R128, which the spec derives). -/
def Obligations.PolicyGuarantee : Prop :=
  ∀ s : State, s.Inv → s.ctx.phase = .policed → s.ctx.disable = false →
    s.ctx.maxlen.toNat ≤ 16 ∧
    (∀ r ∈ s.ctx.symlen, 1 ≤ r.len.toNat ∧ r.len.toNat ≤ 16) ∧
    ((List.range 16).map fun k => (lenAt s.ctx.lcnt (k + 1)).toNat).sum = s.ctx.nsym.toNat ∧
    (∀ L, 1 ≤ L → L ≤ 16 → (lenAt s.ctx.lcnt L).toNat = countLength s.ctx.symlen L ∧ (lenAt s.ctx.lcnt L).toNat ≤ 255)

/-- When all 256 symbols have codes of one length, that length is 8: the second disable condition is the same as
LCNT[8] = 256 (R127, item a, which the spec derives). -/
def Obligations.EqualLengthsAreEight : Prop :=
  ∀ s : State, s.Inv → s.ctx.phase = .policed →
    ((s.ctx.nsym.toNat = 256 ∧ (s.ctx.symlen[0]?).map SymLen.len = (s.ctx.symlen[255]?).map SymLen.len) ↔
      (lenAt s.ctx.lcnt 8).toNat = 256)

/-! ### WRHDR, ENCBITS -/

/-- WRHDR writes the empty form and sets EMPTY when no symbol was seen, the raw header when DISABLE is 1, the
full Huffman header otherwise (R135 to R138). -/
def Obligations.WrhdrCompletes : Prop :=
  ∀ s : State, s.osValid = true →
    (s.ctx.phase = .counted → (∀ b : Byte, symAt s.ctx.freq b = 0) →
      exec .wrhdr s = .next
        { s with
          ctx := { s.ctx with empty := true, phase := .hdrWritten }
          io := { s.io with os := s.io.os.wrBytes [0x48, 0x00, 0x02] }
          err := .ok }) ∧
    (s.ctx.phase = .policed → s.ctx.disable = true →
      exec .wrhdr s = .next
        { s with
          ctx := { s.ctx with phase := .hdrWritten }
          io := { s.io with os := (s.io.os.wrByte 0x4E).wrU32 s.ctx.clen }
          err := .ok }) ∧
    (s.ctx.phase = .policed → s.ctx.disable = false →
      exec .wrhdr s = .next
        { s with
          ctx := { s.ctx with phase := .hdrWritten }
          io := { s.io with
            os := ((s.io.os.wrBytes
                [0x48, BitVec.ofNat 8 ((23 + s.ctx.nsym.toNat) / 256), BitVec.ofNat 8 (23 + s.ctx.nsym.toNat)]).wrU32
                  s.ctx.clen).wrBytes
              ((List.range 16).map (fun k => (lenAt s.ctx.lcnt (k + 1)).extractLsb' 0 8) ++
                (s.ctx.symlen.take s.ctx.nsym.toNat).map SymLen.sym ++ [s.ctx.pad]) }
          err := .ok })

/-- ENCBITS writes nothing on the empty path, the input on the raw path, PAD zero bits and the code of each
input byte otherwise; it flushes, emits one progress event for each input byte it writes, and leaves
the clean context (R150 to R155). -/
def Obligations.EncbitsCompletes : Prop :=
  ∀ s : State, s.ctx.phase = .hdrWritten → s.isValid = true → s.osValid = true →
    (s.ctx.empty = true →
      exec .encbits s = .next
        { s with ctx := Context.clean, io := { s.io with os := s.io.os.flush }, err := .ok }) ∧
    (s.ctx.empty = false → s.ctx.disable = true →
      exec .encbits s = .next
        { s with
          ctx := Context.clean
          io := {
            is := { s.io.is with pos := 8 * s.io.is.bytes.length }
            os := (s.io.os.wrBytes s.io.is.bytes).flush
            prog := s.io.prog ++ List.replicate s.io.is.bytes.length 1 }
          err := .ok }) ∧
    (s.ctx.empty = false → s.ctx.disable = false →
      exec .encbits s = .next
        { s with
          ctx := Context.clean
          io := {
            is := { s.io.is with pos := 8 * s.io.is.bytes.length }
            os := (s.io.os.wrBits
              (List.replicate s.ctx.pad.toNat false ++ s.io.is.bytes.flatMap (symAt s.ctx.code))).flush
            prog := s.io.prog ++ List.replicate s.io.is.bytes.length 1 }
          err := .ok })

/-- In the content of an encode that began on a byte boundary, flush has nothing to append: the content alone
is a whole number of bytes (R48, R154, R173, R229, which the spec derives). -/
def Obligations.ContentEndsOnByte : Prop :=
  ∀ s : State, s.Inv → s.ctx.phase = .hdrWritten → s.isValid = true → s.osValid = true →
    s.io.is.bytes.length < 2 ^ 32 → s.io.os.nacc = 0 →
    ∃ (t : State) (out : List Byte), exec .encbits s = .next t ∧
      bytesBits out = s.ctx.content s.io.is.bytes ∧
      t.io.os = { s.io.os with bytes := s.io.os.bytes ++ out }

/-! ### RDHDR, REBUILD, DECBITS -/

/-- What RDHDR leaves when it succeeds, form by form: raw, empty, full Huffman; the cursor moves by 40 bits, by 24
bits, by 8 * (1 + HLEN) bits; one progress event, of an open value, is emitted (R147, R148). -/
def Obligations.RdhdrForms : Prop :=
  ∀ (s : State) (r : BitString), s.ctx.phase = .idle → s.isValid = true →
    (∀ clen : Word32, s.io.is.rest = bytesBits ([0x4E] ++ u32Bytes clen) ++ r →
      exec .rdhdr s = .next
        { s with
          ctx := { s.ctx with disable := true, clen := clen, phase := .hdrRead }
          io := { s.io with
            is := { s.io.is with pos := s.io.is.pos + 40 }, prog := s.io.prog ++ [Config.progHdrUnits] }
          err := .ok }) ∧
    (s.io.is.rest = bytesBits [0x48, 0x00, 0x02] ++ r →
      exec .rdhdr s = .next
        { s with
          ctx := { s.ctx with disable := false, empty := true, phase := .hdrRead }
          io := { s.io with
            is := { s.io.is with pos := s.io.is.pos + 24 }, prog := s.io.prog ++ [Config.progHdrUnits] }
          err := .ok }) ∧
    (∀ (clen : Word32) (counts syms : List Byte) (pad : Byte), counts.length = 16 →
      (counts.map BitVec.toNat).sum = syms.length → syms.length ≤ 256 →
      s.io.is.rest =
        bytesBits ([0x48, BitVec.ofNat 8 ((23 + syms.length) / 256), BitVec.ofNat 8 (23 + syms.length)] ++
          u32Bytes clen ++ counts ++ syms ++ [pad]) ++ r →
      ∃ lcnt : LengthTable, exec .rdhdr s = .next
        { s with
          ctx := { s.ctx with
            disable := false, clen := clen, lcnt := lcnt, symlen := bucketRecords 1 counts syms
            maxlen := (((bucketRecords 1 counts syms).getLast?).map SymLen.len).getD 0
            nsym := BitVec.ofNat 9 syms.length, pad := pad, phase := .hdrRead }
          io := { s.io with
            is := { s.io.is with pos := s.io.is.pos + 8 * (1 + (23 + syms.length)) }
            prog := s.io.prog ++ [Config.progHdrUnits] }
          err := .ok } ∧
        ∀ L, 1 ≤ L → L ≤ 16 → (lenAt lcnt L).toNat = (counts.getD (L - 1) 0).toNat)

/-- The errors of RDHDR: another marker gives E_MARKER after one byte; more than 256 symbols declared give E_TREE
right after the count table; a declared length other than 23 + T gives E_HDRLEN after the padding byte;
in each the context is clean and nothing has been written (R144, R196, R197). -/
def Obligations.RdhdrErrors : Prop :=
  ∀ (s : State) (r : BitString), s.ctx.phase = .idle → s.isValid = true →
    (∀ m : Byte, m ≠ 0x48 → m ≠ 0x4E → s.io.is.rest = byteBits m ++ r →
      exec .rdhdr s = .next
        { s with
          ctx := Context.clean, io := { s.io with is := { s.io.is with pos := s.io.is.pos + 8 } }, err := .eMarker }) ∧
    (∀ (hi lo : Byte) (clen : Word32) (counts : List Byte), 256 * hi.toNat + lo.toNat ≠ 2 → counts.length = 16 →
      256 < (counts.map BitVec.toNat).sum →
      s.io.is.rest = bytesBits ([0x48, hi, lo] ++ u32Bytes clen ++ counts) ++ r →
      exec .rdhdr s = .next
        { s with
          ctx := Context.clean, io := { s.io with is := { s.io.is with pos := s.io.is.pos + 8 * 23 } }, err := .eTree }) ∧
    (∀ (hi lo : Byte) (clen : Word32) (counts syms : List Byte) (pad : Byte), 256 * hi.toNat + lo.toNat ≠ 2 →
      counts.length = 16 → (counts.map BitVec.toNat).sum = syms.length → syms.length ≤ 256 →
      256 * hi.toNat + lo.toNat ≠ 23 + syms.length →
      s.io.is.rest = bytesBits ([0x48, hi, lo] ++ u32Bytes clen ++ counts ++ syms ++ [pad]) ++ r →
      exec .rdhdr s = .next
        { s with
          ctx := Context.clean
          io := { s.io with is := { s.io.is with pos := s.io.is.pos + 8 * (1 + 23 + syms.length) } }
          err := .eHdrlen })

/-- A stream that ends inside the header gives E_EOS, with every bit of it consumed: no whole marker byte; a raw
header with fewer than four more bytes; a Huffman header cut in its length, in its content length or
counts, or in its symbols or padding byte (R50, R145, R200, R205). -/
def Obligations.RdhdrTruncated : Prop :=
  ∀ (s : State) (r : BitString), s.ctx.phase = .idle → s.isValid = true →
    s.io.is.pos ≤ 8 * s.io.is.bytes.length →
    (s.io.is.rest.length < 8 ∨
      (s.io.is.rest = byteBits 0x4E ++ r ∧ r.length < 32) ∨
      (s.io.is.rest = byteBits 0x48 ++ r ∧ r.length < 16) ∨
      (∃ hi lo : Byte, s.io.is.rest = bytesBits [0x48, hi, lo] ++ r ∧ 256 * hi.toNat + lo.toNat ≠ 2 ∧ r.length < 8 * 20) ∨
      (∃ (hi lo : Byte) (clen : Word32) (counts : List Byte), 256 * hi.toNat + lo.toNat ≠ 2 ∧ counts.length = 16 ∧
        (counts.map BitVec.toNat).sum ≤ 256 ∧
        s.io.is.rest = bytesBits ([0x48, hi, lo] ++ u32Bytes clen ++ counts) ++ r ∧
        r.length < 8 * ((counts.map BitVec.toNat).sum + 1))) →
    exec .rdhdr s = .next
      { s with
        ctx := Context.clean
        io := { s.io with is := { s.io.is with pos := 8 * s.io.is.bytes.length } }
        err := .eEos }

/-- REBUILD succeeds exactly when the records fill the code space, or are the one record of length 1; then the
tree has a leaf for each record, its path is the record's canonical code, every internal node has two
children (the single-symbol tree apart) and the nodes are numbered in one run from the root, node 0;
otherwise it raises E_TREE (R160 to R165). Every header RDHDR lets pass meets the premise
(DecoderRecords). -/
def Obligations.RebuildCompletes : Prop :=
  ∀ s : State, s.ctx.phase = .hdrRead → s.ctx.disable = false → s.ctx.empty = false → s.ctx.decodable →
    (codeSpace s.ctx.symlen = 2 ^ 16 ∨ s.ctx.singleSymbol →
      ∃ (tree : Node) (n : Nat), exec .rebuild s = .next
          { s with ctx := { s.ctx with root := tree, nodeCnt := BitVec.ofNat 9 n, phase := .rebuilt }, err := .ok } ∧
        n ≤ 511 ∧ tree.index = some 0 ∧ tree.indices.Perm ((List.range n).map (BitVec.ofNat 9)) ∧
        tree.leaves.Perm (s.ctx.symlen.map fun r => (r.sym, 0)) ∧
        (∀ i r, s.ctx.symlen[i]? = some r → tree.hasPath (canonicalCode s.ctx.symlen i) r.sym) ∧
        (tree.full = true ∨ ∃ b j, s.ctx.symlen = [{ sym := b, len := 1 }] ∧
          tree = .internal 0 (.leaf j b 0) .absent 0)) ∧
    (codeSpace s.ctx.symlen ≠ 2 ^ 16 → ¬ s.ctx.singleSymbol →
      exec .rebuild s = .next { s with ctx := Context.clean, err := .eTree })

/-- DECBITS on the Huffman path: PAD bits of any value, then a code for each of CLEN symbols, each code the path
of a leaf of the tree; the symbols are written, nothing further is read, one progress event is emitted
for each 8 bits consumed, padding included (R166 to R168, R174). -/
def Obligations.DecbitsCodes : Prop :=
  ∀ (s : State) (code : Byte → BitString) (bs : List Byte) (pad r : BitString),
    s.ctx.phase = .rebuilt → s.isValid = true → s.osValid = true → s.ctx.empty = false → s.ctx.disable = false →
    pad.length = s.ctx.pad.toNat → bs.length = s.ctx.clen.toNat →
    (∀ b ∈ bs, code b ≠ [] ∧ s.ctx.root.hasPath (code b) b) →
    s.io.is.rest = pad ++ (bs.flatMap code ++ r) →
    exec .decbits s = .next
      { s with
        ctx := Context.clean
        io := {
          is := { s.io.is with pos := s.io.is.pos + (pad.length + (bs.flatMap code).length) }
          os := s.io.os.wrBytes bs
          prog := s.io.prog ++ List.replicate ((pad.length + (bs.flatMap code).length) / 8) 1 }
        err := .ok }

/-- DECBITS on the raw path copies exactly CLEN bytes, or, when the input holds fewer, those there are before
E_EOS; on the empty path it reads and writes nothing (R170, R171, R174). -/
def Obligations.DecbitsRawAndEmpty : Prop :=
  ∀ s : State, s.ctx.phase = .hdrRead → s.isValid = true → s.osValid = true →
    (s.ctx.empty = true → exec .decbits s = .next { s with ctx := Context.clean, err := .ok }) ∧
    (∀ (bs : List Byte) (r : BitString), s.ctx.empty = false → s.ctx.disable = true →
      s.io.is.rest = bytesBits bs ++ r →
      (bs.length = s.ctx.clen.toNat →
        exec .decbits s = .next
          { s with
            ctx := Context.clean
            io := {
              is := { s.io.is with pos := s.io.is.pos + 8 * bs.length }
              os := s.io.os.wrBytes bs
              prog := s.io.prog ++ List.replicate bs.length 1 }
            err := .ok }) ∧
      (bs.length < s.ctx.clen.toNat → r.length < 8 →
        exec .decbits s = .next
          { s with
            ctx := Context.clean
            io := {
              is := { s.io.is with pos := s.io.is.pos + s.io.is.rest.length }
              os := s.io.os.wrBytes bs
              prog := s.io.prog ++ List.replicate bs.length 1 }
            err := .eEos }))

/-- However an accepted DECBITS ends, it has written whole bytes only and leaves the clean context: exactly CLEN
bytes on success (none in the empty form); fewer, or none, on E_EOS, which comes at the end of the input;
fewer on E_TREE. A Huffman form cut inside its padding ends in E_EOS with every bit consumed and nothing
written; one cut inside its codes (the codes of fewer than CLEN symbols, then bits that stop at an
internal node, or none) ends in E_EOS with every bit consumed and those symbols written (R167, R168, R172,
R200). -/
def Obligations.DecbitsEnds : Prop :=
  (∀ s : State, s.isValid = true → s.osValid = true →
    s.ctx.phase = .rebuilt ∨ (s.ctx.phase = .hdrRead ∧ (s.ctx.disable = true ∨ s.ctx.empty = true)) →
    ∃ (t : State) (bs : List Byte), exec .decbits s = .next t ∧ t.ctx = Context.clean ∧
      t.io.os = s.io.os.wrBytes bs ∧
      ((t.err = .ok ∧ bs.length = if s.ctx.empty then 0 else s.ctx.clen.toNat) ∨
        (t.err = .eEos ∧ s.ctx.empty = false ∧ t.io.is.rest = [] ∧ (bs.length < s.ctx.clen.toNat ∨ bs = [])) ∨
        (t.err = .eTree ∧ s.ctx.empty = false ∧ s.ctx.disable = false ∧ bs.length < s.ctx.clen.toNat))) ∧
  (∀ s : State, s.ctx.phase = .rebuilt → s.isValid = true → s.osValid = true → s.ctx.empty = false →
    s.ctx.disable = false →
    (s.io.is.rest.length < s.ctx.pad.toNat →
      exec .decbits s = .next
        { s with
          ctx := Context.clean
          io := { s.io with
            is := { s.io.is with pos := s.io.is.pos + s.io.is.rest.length }
            prog := s.io.prog ++ List.replicate (s.io.is.rest.length / 8) 1 }
          err := .eEos }) ∧
    (∀ (code : Byte → BitString) (bs : List Byte) (pad r : BitString),
      pad.length = s.ctx.pad.toNat → bs.length < s.ctx.clen.toNat →
      (∀ b ∈ bs, code b ≠ [] ∧ s.ctx.root.hasPath (code b) b) →
      (∃ i left right f, s.ctx.root.follow r = .internal i left right f) →
      s.io.is.rest = pad ++ (bs.flatMap code ++ r) →
      exec .decbits s = .next
        { s with
          ctx := Context.clean
          io := {
            is := { s.io.is with pos := s.io.is.pos + s.io.is.rest.length }
            os := s.io.os.wrBytes bs
            prog := s.io.prog ++ List.replicate (s.io.is.rest.length / 8) 1 }
          err := .eEos }))

/-- An absent child is met only in the single-symbol tree, by a 1 bit at its root: E_TREE, the symbols decoded
so far having been written (R169, R198). -/
def Obligations.DecbitsAbsentChild : Prop :=
  ∀ s : State, s.Inv → s.ctx.phase = .rebuilt → s.isValid = true → s.osValid = true →
    (¬ s.ctx.singleSymbol → ∃ t, exec .decbits s = .next t ∧ t.err ≠ .eTree) ∧
    (∀ (b : Byte) (pad r : BitString) (k : Nat), s.ctx.symlen = [{ sym := b, len := 1 }] →
      pad.length = s.ctx.pad.toNat → k < s.ctx.clen.toNat →
      s.io.is.rest = pad ++ (List.replicate k false ++ true :: r) →
      ∃ prog, exec .decbits s = .next
        { s with
          ctx := Context.clean
          io := {
            is := { s.io.is with pos := s.io.is.pos + (pad.length + k + 1) }
            os := s.io.os.wrBytes (List.replicate k b)
            prog := prog }
          err := .eTree })

/-! ### ENCODE, DECODE -/

/-- ENCODE, accepted, is its expansion: COUNT; BUILD, GENCODE, HIST, POLICY unless no symbol was seen; WRHDR;
ENCBITS; each run as if issued by the host, and each completing with OK; outside IDLE it answers E_SEQ, and
E_NULL in IDLE without both streams (R181). -/
def Obligations.EncodeIsItsExpansion : Prop :=
  (∀ s : State, s.ctx.phase ≠ .idle → exec .encode s = .next { s with err := .eSeq }) ∧
  (∀ s : State, s.ctx.phase = .idle → s.isValid = false ∨ s.osValid = false →
    exec .encode s = .next { s with err := .eNull }) ∧
  ∀ s : State, s.ctx.phase = .idle → s.isValid = true → s.osValid = true →
    ∃ counted prepared headed t : State,
      exec .count s = .next counted ∧ counted.err = .ok ∧
      (((∀ b : Byte, symAt counted.ctx.freq b = 0) ∧ prepared = counted) ∨
        ((∃ b : Byte, symAt counted.ctx.freq b ≠ 0) ∧
          ∃ built coded histed : State, exec .build counted = .next built ∧ built.err = .ok ∧
            exec .gencode built = .next coded ∧ coded.err = .ok ∧ exec .hist coded = .next histed ∧ histed.err = .ok ∧
            exec .policy histed = .next prepared ∧ prepared.err = .ok)) ∧
      exec .wrhdr prepared = .next headed ∧ headed.err = .ok ∧
      exec .encbits headed = .next t ∧ t.err = .ok ∧
      exec .encode s = .next t

/-- DECODE, accepted, is its expansion: RDHDR; REBUILD when DISABLE = 0 and EMPTY = 0; DECBITS; it ends at the
first unit command that raises an error, with that error and in that state; outside IDLE it answers E_SEQ,
and E_NULL in IDLE without both streams (R182). -/
def Obligations.DecodeIsItsExpansion : Prop :=
  (∀ s : State, s.ctx.phase ≠ .idle → exec .decode s = .next { s with err := .eSeq }) ∧
  (∀ s : State, s.ctx.phase = .idle → s.isValid = false ∨ s.osValid = false →
    exec .decode s = .next { s with err := .eNull }) ∧
  ∀ s : State, s.ctx.phase = .idle → s.isValid = true → s.osValid = true →
    ∃ read t : State, exec .rdhdr s = .next read ∧ exec .decode s = .next t ∧
      (read.err ≠ .ok → t = read) ∧
      (read.err = .ok → (read.ctx.disable = true ∨ read.ctx.empty = true) → exec .decbits read = .next t) ∧
      (read.err = .ok → read.ctx.disable = false → read.ctx.empty = false →
        ∃ rebuilt : State, exec .rebuild read = .next rebuilt ∧
          (rebuilt.err ≠ .ok → t = rebuilt) ∧ (rebuilt.err = .ok → exec .decbits rebuilt = .next t))

/-- DECODE of each form of a stream, from the clean context: the raw form gives its content; the empty form gives
nothing; a full header whose records fill the code space (or are the one record of length 1), followed by
PAD bits of any value and the canonical codes of CLEN symbols, gives those symbols; the cursor stops just
after the content (R81, R182). -/
def Obligations.DecodeForms : Prop :=
  ∀ (s : State) (bs : List Byte) (r : BitString), s.Inv → s.ctx.phase = .idle → s.isValid = true → s.osValid = true →
    bs.length < 2 ^ 32 →
    (s.io.is.rest = bytesBits ([0x4E] ++ u32Bytes (BitVec.ofNat 32 bs.length) ++ bs) ++ r →
      ∃ prog, exec .decode s = .next
        { s with
          io := {
            is := { s.io.is with pos := s.io.is.pos + 8 * (5 + bs.length) }
            os := s.io.os.wrBytes bs
            prog := prog }
          err := .ok }) ∧
    (s.io.is.rest = bytesBits [0x48, 0x00, 0x02] ++ r →
      ∃ prog, exec .decode s = .next
        { s with io := { s.io with is := { s.io.is with pos := s.io.is.pos + 24 }, prog := prog }, err := .ok }) ∧
    (∀ (counts syms : List Byte) (pad : Byte) (code : Byte → BitString) (padding : BitString),
      counts.length = 16 → (counts.map BitVec.toNat).sum = syms.length → syms.length ≤ 256 →
      codeSpace (bucketRecords 1 counts syms) = 2 ^ 16 ∨ (∃ b, bucketRecords 1 counts syms = [{ sym := b, len := 1 }]) →
      (∀ b ∈ bs, ∃ i e, (bucketRecords 1 counts syms)[i]? = some e ∧ e.sym = b ∧
        code b = canonicalCode (bucketRecords 1 counts syms) i) →
      padding.length = pad.toNat →
      s.io.is.rest =
        bytesBits ([0x48, BitVec.ofNat 8 ((23 + syms.length) / 256), BitVec.ofNat 8 (23 + syms.length)] ++
          u32Bytes (BitVec.ofNat 32 bs.length) ++ counts ++ syms ++ [pad]) ++ (padding ++ (bs.flatMap code ++ r)) →
      ∃ prog, exec .decode s = .next
        { s with
          io := {
            is := { s.io.is with
              pos := s.io.is.pos + (8 * (24 + syms.length) + (padding.length + (bs.flatMap code).length)) }
            os := s.io.os.wrBytes bs
            prog := prog }
          err := .ok })

/-- ENCODE and DECODE check both streams before any work: with the output detached they answer E_NULL and nothing
else changes, where the hand-issued sequence runs COUNT to POLICY and fails at WRHDR (R186, which the spec derives). -/
def Obligations.BothStreamsFirst : Prop :=
  ∀ s : State, s.Inv → s.ctx.phase = .idle → s.isValid = true → s.osValid = false → s.io.is.bytes ≠ [] →
    s.io.is.bytes.length < 2 ^ 32 →
    exec .encode s = .next { s with err := .eNull } ∧ exec .decode s = .next { s with err := .eNull } ∧
    ∃ counted built coded histed policed : State,
      exec .count s = .next counted ∧ counted.err = .ok ∧ exec .build counted = .next built ∧ built.err = .ok ∧
      exec .gencode built = .next coded ∧ coded.err = .ok ∧ exec .hist coded = .next histed ∧ histed.err = .ok ∧
      exec .policy histed = .next policed ∧ policed.err = .ok ∧
      exec .wrhdr policed = .next { policed with err := .eNull }

/-- What ENCODE writes for an input of at most 2^32 - 1 bytes to a byte-aligned output: the empty form exactly
when the input is empty; the raw form exactly when the disable policy fires; otherwise marker, HLEN = 23
+ N, CLEN, 16 counts that sum to N with none above the largest length in use, N distinct symbols strictly
ascending inside each bucket, PAD of at most 7, and whole bytes of content (R83, which the spec derives). -/
def Obligations.EncoderOutput : Prop :=
  ∀ s : State, s.Inv → s.ctx.phase = .idle → s.isValid = true → s.osValid = true → s.io.os.nacc = 0 →
    s.io.is.bytes.length < 2 ^ 32 →
    let input := s.io.is.bytes
    let p := Context.ofInput .policed input
    ∃ (out : List Byte) (t : State), exec .encode s = .next t ∧ t.err = .ok ∧
      t.io.os = { s.io.os with bytes := s.io.os.bytes ++ out } ∧ t.ctx.isClean = true ∧
      (out = [0x48, 0x00, 0x02] ↔ input = []) ∧
      (out.head? = some 0x4E ↔ input ≠ [] ∧ p.disable = true) ∧
      (input ≠ [] → p.disable = true → out = [0x4E] ++ u32Bytes (BitVec.ofNat 32 input.length) ++ input) ∧
      (input ≠ [] → p.disable = false →
        ∃ (counts syms content : List Byte) (pad : Byte),
          out = [0x48, BitVec.ofNat 8 ((23 + syms.length) / 256), BitVec.ofNat 8 (23 + syms.length)] ++
            u32Bytes (BitVec.ofNat 32 input.length) ++ counts ++ syms ++ [pad] ++ content ∧
          1 ≤ syms.length ∧ syms.length ≤ 256 ∧ counts.length = 16 ∧ (counts.map BitVec.toNat).sum = syms.length ∧
          (∀ k, k < 16 → p.maxlen.toNat < k + 1 → counts.getD k 0 = 0) ∧
          bucketRecords 1 counts syms = p.symlen ∧ canonicalOrder p.symlen ∧ syms.Nodup ∧
          (∀ b : Byte, b ∈ syms ↔ b ∈ input) ∧ pad.toNat ≤ 7 ∧
          8 * content.length = pad.toNat + (p.symlen.map fun r => r.len.toNat * input.count r.sym).sum ∧
          bytesBits content = List.replicate pad.toNat false ++ input.flatMap (symAt p.code))

/-- For every input of at most 2^32 - 1 bytes: ENCODE appends some bytes to a byte-aligned output, and DECODE, at
those bytes in any input stream, whatever follows them, gives the input back and stops just after them;
a byte-aligned output then holds exactly the input's bytes after its own (R173, R175, which the spec
derives). -/
def Obligations.RoundTrip : Prop :=
  ∀ s : State, s.Inv → s.ctx.phase = .idle → s.isValid = true → s.osValid = true → s.io.os.nacc = 0 →
    s.io.is.bytes.length < 2 ^ 32 →
    ∃ (out : List Byte) (t : State), exec .encode s = .next t ∧ t.err = .ok ∧
      t.io.os = { s.io.os with bytes := s.io.os.bytes ++ out } ∧
      ∀ (d : State) (r : BitString), d.Inv → d.ctx.phase = .idle → d.isValid = true → d.osValid = true →
        d.io.is.rest = bytesBits out ++ r →
        ∃ prog, exec .decode d = .next
          { d with
            io := {
              is := { d.io.is with pos := d.io.is.pos + 8 * out.length }
              os := d.io.os.wrBytes s.io.is.bytes
              prog := prog }
            err := .ok } ∧
          (d.io.os.nacc = 0 →
            d.io.os.wrBytes s.io.is.bytes = { d.io.os with bytes := d.io.os.bytes ++ s.io.is.bytes })

/-! ### The whole machine -/

/-- ERR, the events on PROG and the host's queue are read by no command: two states that differ only there give
one context, one completion code, the same streams and the same new events (R22, R27, R188). -/
def Obligations.NothingReadsErrOrProg : Prop :=
  ∀ (i : Instr) (s u : State), s.ctx = u.ctx → s.io.is = u.io.is → s.io.os = u.io.os → s.isValid = u.isValid →
    s.osValid = u.osValid →
    ∃ (t w : State) (events : List Nat), exec i s = .next t ∧ exec i u = .next w ∧ t.ctx = w.ctx ∧ t.err = w.err ∧
      t.io.is = w.io.is ∧ t.io.os = w.io.os ∧ t.io.prog = s.io.prog ++ events ∧ w.io.prog = u.io.prog ++ events

/-- Each call is independent of those before: after any ENCODE or DECODE, a call gives what it gives right after
reset with the same streams attached (R188, which the spec derives). -/
def Obligations.ReusedContextIsFresh : Prop :=
  ∀ (i j : Instr) (s t : State) (is : IStream) (os : OStream), i = .encode ∨ i = .decode → j = .encode ∨ j = .decode →
    s.Inv → s.ctx.phase = .idle → exec i s = .next t →
    ∃ v w : State,
      exec j { t with io := { t.io with is := is, os := os }, isValid := true, osValid := true } = .next v ∧
      exec j { State.reset with io := { is := is, os := os, prog := [] }, isValid := true, osValid := true } = .next w ∧
      v.ctx = w.ctx ∧ v.err = w.err ∧ v.io.is = w.io.is ∧ v.io.os = w.io.os

/-- The invariant holds right after reset. -/
def Obligations.InvariantAtReset : Prop := State.reset.Inv

/-- Every step keeps the invariant: the cursor inside the input, the accumulator no wider than it counts, and the
context consistent with its phase and input, clean when idle (R21, R24, R25, R30). -/
def Obligations.StepKeepsInvariant : Prop := ∀ s t : State, s.Inv → step s = .next t → t.Inv

/-- The bounds of every state that meets the invariant: NSYM counts the records and is at most 256, NODE_CNT counts
the tree's nodes and is at most 511, PAD is at most 7 when GENCODE wrote it, and from POLICY on with DISABLE
= 0 MAXLEN is at most 16 and every count at most 255 (R34, which the spec derives). -/
def Obligations.StateBounds : Prop :=
  ∀ s : State, s.Inv →
    s.ctx.nsym.toNat ≤ 256 ∧ s.ctx.nsym.toNat = s.ctx.symlen.length ∧
    s.ctx.nodeCnt.toNat ≤ 511 ∧ s.ctx.nodeCnt.toNat = s.ctx.root.indices.length ∧
    (s.ctx.phase = .coded ∨ s.ctx.phase = .histed ∨ s.ctx.phase = .policed ∨ s.ctx.phase = .hdrWritten →
      s.ctx.pad.toNat ≤ 7) ∧
    (s.ctx.phase = .policed ∨ s.ctx.phase = .hdrWritten → s.ctx.disable = false →
      s.ctx.maxlen.toNat ≤ 16 ∧ ∀ L, 1 ≤ L → L ≤ 16 → (lenAt s.ctx.lcnt L).toNat ≤ 255)

/-- The encoder's tree, in every state that meets the invariant: two children under every internal node, each
frequency the sum of its children's, one leaf for each symbol with a nonzero count and no other, no
symbol twice, depths of at most 255 (R17; R34, which the spec derives). -/
def Obligations.EncoderTree : Prop :=
  ∀ s : State, s.Inv → s.ctx.phase ∈ [Phase.built, .coded, .histed, .policed] →
    s.ctx.root.full = true ∧ s.ctx.root.sumsUp = true ∧ (s.ctx.root.leaves.map Prod.fst).Nodup ∧
    s.ctx.root.leaves.length ≤ 256 ∧
    (∀ p : Byte × Word32, p ∈ s.ctx.root.leaves ↔ symAt s.ctx.freq p.1 = p.2 ∧ p.2 ≠ 0) ∧
    (∀ path i b f, s.ctx.root.follow path = .leaf i b f → path.length ≤ 255)

/-- What the decode commands leave, in every state that meets the invariant: the records of a header that was let
pass have lengths 1 to 16 in ascending order, at most 256 of them, counted by NSYM; the decoder's tree
has its records as leaves and an empty slot only in the single-symbol case (R17, R143, R164). -/
def Obligations.DecoderRecords : Prop :=
  ∀ s : State, s.Inv →
    (s.ctx.phase = .hdrRead ∨ s.ctx.phase = .rebuilt → s.ctx.decodable) ∧
    (s.ctx.phase = .rebuilt →
      s.ctx.disable = false ∧ s.ctx.empty = false ∧
      s.ctx.root.leaves.Perm (s.ctx.symlen.map fun r => (r.sym, 0)) ∧
      (s.ctx.root.full = true ∨ s.ctx.singleSymbol))
end

