-- ==== Sys2Proof/Laws/Cmd.lean ====
section
/-!
SUPPORT. Running a sequence of reads or of command actions: one lemma per way the first part can end.
-/

namespace Sys2Proof.Machine

theorem bind_ok {ε σ α β : Type} {m : EStateM ε σ α} {f : α → EStateM ε σ β} {s t : σ} {a : α}
    (h : m s = .ok a t) : (m >>= f) s = f a t := by
  change EStateM.bind m f s = _
  simp [EStateM.bind, h]

theorem bind_error {ε σ α β : Type} {m : EStateM ε σ α} {f : α → EStateM ε σ β} {s t : σ} {e : ε}
    (h : m s = .error e t) : (m >>= f) s = .error e t := by
  change EStateM.bind m f s = _
  simp [EStateM.bind, h]

/-- A sequence that ends well is two parts that end well. -/
theorem bind_eq_ok {ε σ α β : Type} {m : EStateM ε σ α} {f : α → EStateM ε σ β} {s u : σ} {b : β} :
    (m >>= f) s = .ok b u ↔ ∃ a t, m s = .ok a t ∧ f a t = .ok b u := by
  cases h : m s with
  | ok a t => rw [bind_ok h]; simp
  | error e t => rw [bind_error h]; simp

/-- A sequence that raises raises in its first part or in its second. -/
theorem bind_eq_error {ε σ α β : Type} {m : EStateM ε σ α} {f : α → EStateM ε σ β} {s u : σ} {e : ε} :
    (m >>= f) s = .error e u ↔ m s = .error e u ∨ ∃ a t, m s = .ok a t ∧ f a t = .error e u := by
  cases h : m s with
  | ok a t => rw [bind_ok h]; simp
  | error e' t => rw [bind_error h]; simp

theorem run_pure {ε σ α : Type} (a : α) (s : σ) : (pure a : EStateM ε σ α) s = .ok a s := rfl

theorem run_throw {ε σ α : Type} (e : ε) (s : σ) : (throw e : EStateM ε σ α) s = .error e s := rfl

theorem run_ite {ε σ α : Type} (c : Prop) [Decidable c] (m n : EStateM ε σ α) (s : σ) :
    (if c then m else n) s = if c then m s else n s := by split <;> rfl

theorem run_modify {ε σ : Type} (f : σ → σ) (s : σ) : (modify f : EStateM ε σ PUnit) s = .ok () (f s) := rfl

/-- `m` moves the state only along `R`, and raises only what `E` allows. -/
def Moves {ε σ α : Type} (R : σ → σ → Prop) (E : ε → Prop) (m : EStateM ε σ α) : Prop :=
  ∀ s, (∀ a t, m s = .ok a t → R s t) ∧ (∀ e t, m s = .error e t → R s t ∧ E e)

section moves

variable {ε σ α β : Type} {R : σ → σ → Prop} {E : ε → Prop}

theorem moves_pure (hr : ∀ s, R s s) (a : α) : Moves R E (pure a : EStateM ε σ α) := by
  intro s
  constructor
  · intro b t h
    cases h
    exact hr s
  · intro e t h
    cases h

theorem moves_throw (hr : ∀ s, R s s) {e : ε} (he : E e) : Moves R E (throw e : EStateM ε σ α) := by
  intro s
  constructor
  · intro b t h
    cases h
  · intro e' t h
    cases h
    exact ⟨hr s, he⟩

theorem moves_bind (ht : ∀ s t u, R s t → R t u → R s u) {m : EStateM ε σ α} {f : α → EStateM ε σ β}
    (hm : Moves R E m) (hf : ∀ a, Moves R E (f a)) : Moves R E (m >>= f) := by
  intro s
  constructor
  · intro b u h
    obtain ⟨a, t, h1, h2⟩ := bind_eq_ok.1 h
    exact ht _ _ _ ((hm s).1 a t h1) ((hf a t).1 b u h2)
  · intro e u h
    rcases bind_eq_error.1 h with h1 | ⟨a, t, h1, h2⟩
    · exact (hm s).2 e u h1
    · exact ⟨ht _ _ _ ((hm s).1 a t h1) ((hf a t).2 e u h2).1, ((hf a t).2 e u h2).2⟩

theorem moves_ite {c : Prop} [Decidable c] {m n : EStateM ε σ α} (hm : Moves R E m) (hn : Moves R E n) :
    Moves R E (if c then m else n) := by
  split
  · exact hm
  · exact hn

theorem moves_modify {f : σ → σ} (hf : ∀ s, R s (f s)) : Moves R E (modify f : EStateM ε σ PUnit) := by
  intro s
  constructor
  · intro a t h
    cases h
    exact hf s
  · intro e t h
    cases h

theorem moves_mono {R' : σ → σ → Prop} {E' : ε → Prop} {m : EStateM ε σ α} (h : Moves R E m)
    (hR : ∀ s t, R s t → R' s t) (hE : ∀ e, E e → E' e) : Moves R' E' m := by
  intro s
  exact ⟨fun a t h1 => hR _ _ ((h s).1 a t h1), fun e t h1 => ⟨hR _ _ ((h s).2 e t h1).1, hE _ ((h s).2 e t h1).2⟩⟩

end moves

end Sys2Proof.Machine
end

