-- ==== Sys2Proof/Laws/Streams.lean ====
section
/-!
SUPPORT. Laws of the bit-stream operations: what each read and write does to the bits of its stream.
-/

namespace Sys2Proof.Machine

theorem bin_length (v n : Nat) : (bin v n).length = n := by
  induction n with
  | zero => rfl
  | succ n ih => simp [bin, ih]

theorem byteBits_length (b : Byte) : (byteBits b).length = 8 := bin_length _ _

theorem bytesBits_length (bs : List Byte) : (bytesBits bs).length = 8 * bs.length := by
  induction bs with
  | nil => rfl
  | cons b bs ih => simp only [bytesBits, List.flatMap_cons, List.length_append, List.length_cons] at *
                    rw [ih, byteBits_length]; omega

theorem bytesBits_append (as bs : List Byte) : bytesBits (as ++ bs) = bytesBits as ++ bytesBits bs := by
  simp [bytesBits]

theorem bytesBits_cons (a : Byte) (bs : List Byte) : bytesBits (a :: bs) = byteBits a ++ bytesBits bs := rfl

theorem bin_getElem? (v n i : Nat) (h : i < n) : (bin v n)[i]? = some (v.testBit (n - 1 - i)) := by
  induction n generalizing i with
  | zero => omega
  | succ n ih =>
    cases i with
    | zero => simp [bin]
    | succ i =>
      simp only [bin, List.getElem?_cons_succ]
      rw [ih i (by omega)]
      congr 2
      omega

/-- The bit of a byte sequence at a bit position (R41). -/
theorem bytesBits_getElem? (bs : List Byte) (p : Nat) (h : p < 8 * bs.length) :
    (bytesBits bs)[p]? = some ((bs.getD (p / 8) 0).getLsbD (7 - p % 8)) := by
  induction bs generalizing p with
  | nil => simp at h
  | cons b bs ih =>
    rw [bytesBits_cons]
    by_cases hp : p < 8
    · rw [List.getElem?_append_left (by rw [byteBits_length]; exact hp)]
      have h0 : p / 8 = 0 := by omega
      have hm : p % 8 = p := by omega
      simp only [byteBits]
      rw [bin_getElem? _ _ _ hp, h0, hm]
      rfl
    · rw [List.getElem?_append_right (by rw [byteBits_length]; omega), byteBits_length]
      simp only [List.length_cons] at h
      rw [ih (p - 8) (by omega)]
      have hd : p / 8 = (p - 8) / 8 + 1 := by omega
      have hm : p % 8 = (p - 8) % 8 := by omega
      rw [hd, hm]
      rfl

theorem atEnd_iff_rest (is : IStream) : is.atEnd = true ↔ is.rest = [] := by
  simp [IStream.atEnd, IStream.rest, List.drop_eq_nil_iff, bytesBits_length]

theorem rest_advance (is : IStream) (n : Nat) : IStream.rest { is with pos := is.pos + n } = is.rest.drop n := by
  simp [IStream.rest, List.drop_drop]

theorem rest_length (is : IStream) : is.rest.length = 8 * is.bytes.length - is.pos := by
  simp [IStream.rest, bytesBits_length]

theorem rdBit_ok (is : IStream) (b : Bool) (r : BitString) (h : is.rest = b :: r) :
    rdBit is = .ok b { is with pos := is.pos + 1 } := by
  have hlt : is.pos < 8 * is.bytes.length := by
    have := rest_length is
    rw [h] at this
    simp at this
    omega
  have hb : (bytesBits is.bytes)[is.pos]? = some b := by
    have := congrArg (fun l => l[0]?) h
    simpa [IStream.rest] using this
  rw [bytesBits_getElem? _ _ hlt] at hb
  have hne : ¬ is.atEnd = true := by simp [IStream.atEnd]; omega
  simp only [rdBit, hne]
  simp only [Option.some.injEq] at hb
  rw [hb]
  rfl

theorem rdBit_eos (is : IStream) (h : is.rest = []) : rdBit is = .error .eEos is := by
  have := (atEnd_iff_rest is).2 h
  simp [rdBit, this]

/-- The number a bit string writes, first bit most significant, after a number already read (R42). -/
def readNat (v : Nat) (bits : BitString) : Nat := bits.foldl (fun v b => 2 * v + b.toNat) v

theorem readNat_bin (w n v : Nat) : readNat v (bin w n) = v * 2 ^ n + w % 2 ^ n := by
  induction n generalizing v with
  | zero => simp [bin, readNat, Nat.mod_one]
  | succ n ih =>
    have h1 : readNat v (bin w (n + 1)) = readNat (2 * v + (w.testBit n).toNat) (bin w n) := rfl
    rw [h1, ih, Nat.mod_pow_succ, Nat.testBit_eq_decide_div_mod_eq]
    have hb : (decide (w / 2 ^ n % 2 = 1)).toNat = w / 2 ^ n % 2 := by
      rcases Nat.mod_two_eq_zero_or_one (w / 2 ^ n) with h | h <;> simp [h]
    rw [hb]
    ring

theorem bin_readNat (bits : BitString) : bin (readNat 0 bits) bits.length = bits := by
  induction bits using List.reverseRecOn with
  | nil => rfl
  | append_singleton bs b ih =>
    have hr : readNat 0 (bs ++ [b]) = 2 * readNat 0 bs + b.toNat := by simp [readNat]
    have hs : ∀ (v n : Nat) (b : Bool), bin (2 * v + b.toNat) (n + 1) = bin v n ++ [b] := by
      intro v n b
      induction n with
      | zero =>
        cases b <;> simp [bin, Nat.testBit_zero, Nat.add_mod]
      | succ n ih2 =>
        have ht : (2 * v + b.toNat).testBit (n + 1) = v.testBit n := by
          rw [Nat.testBit_succ]
          congr 1
          have hle : b.toNat ≤ 1 := Bool.toNat_le b
          omega
        rw [bin, ih2, ht]
        rfl
    rw [hr, List.length_append]
    simp only [List.length_cons, List.length_nil, Nat.zero_add]
    rw [hs, ih]

theorem readNat_lt (bits : BitString) : readNat 0 bits < 2 ^ bits.length := by
  induction bits using List.reverseRecOn with
  | nil => simp [readNat]
  | append_singleton bs b ih =>
    have hr : readNat 0 (bs ++ [b]) = 2 * readNat 0 bs + b.toNat := by simp [readNat]
    rw [hr, List.length_append, List.length_singleton, Nat.pow_succ]
    have : b.toNat ≤ 1 := Bool.toNat_le b
    omega

theorem rdBits_ok (n v : Nat) (is : IStream) (bits r : BitString) (hlen : bits.length = n)
    (h : is.rest = bits ++ r) : rdBits n v is = .ok (readNat v bits) { is with pos := is.pos + n } := by
  induction n generalizing v is bits with
  | zero =>
    obtain rfl := List.length_eq_zero_iff.1 hlen
    rfl
  | succ n ih =>
    obtain ⟨b, bs, rfl⟩ := List.exists_cons_of_length_eq_add_one hlen
    have hb := rdBit_ok is b (bs ++ r) (by simpa using h)
    have hrest : IStream.rest { is with pos := is.pos + 1 } = bs ++ r := by rw [rest_advance, h]; rfl
    have := ih (2 * v + b.toNat) { is with pos := is.pos + 1 } bs (by simpa using hlen) hrest
    rw [rdBits, bind_ok hb, this]
    have hp : is.pos + 1 + n = is.pos + (n + 1) := by omega
    rw [hp]
    rfl

/-- A read that runs out of bits consumes those that exist and raises E_EOS (R42, R50). -/
theorem rdBits_eos (n v : Nat) (is : IStream) (h : is.rest.length < n) :
    rdBits n v is = .error .eEos { is with pos := is.pos + is.rest.length } := by
  induction n generalizing v is with
  | zero => omega
  | succ n ih =>
    rw [rdBits]
    cases hr : is.rest with
    | nil => rw [bind_error (rdBit_eos is hr)]; rfl
    | cons b r =>
      rw [bind_ok (rdBit_ok is b r hr)]
      have hrest : IStream.rest { is with pos := is.pos + 1 } = r := by rw [rest_advance, hr]; rfl
      rw [hr] at h
      simp only [List.length_cons] at h
      rw [ih _ _ (by rw [hrest]; omega), hrest]
      simp only [List.length_cons]
      have hp : is.pos + 1 + r.length = is.pos + (r.length + 1) := by omega
      rw [hp]

theorem rdByte_ok (is : IStream) (b : Byte) (r : BitString) (h : is.rest = byteBits b ++ r) :
    rdByte is = .ok b { is with pos := is.pos + 8 } := by
  have := rdBits_ok 8 0 is (byteBits b) r (byteBits_length b) h
  rw [rdByte, bind_ok this, run_pure, byteBits, readNat_bin]
  congr 1
  have hb : b.toNat < 2 ^ 8 := b.isLt
  rw [Nat.mod_eq_of_lt hb]
  simp

theorem rdByte_eos (is : IStream) (h : is.rest.length < 8) :
    rdByte is = .error .eEos { is with pos := is.pos + is.rest.length } := by
  rw [rdByte, bind_error (rdBits_eos 8 0 is h)]

/-- Eight bits are the bits of a byte. -/
theorem exists_byte_of_length (bits : BitString) (h : 8 ≤ bits.length) :
    ∃ (b : Byte) (r : BitString), bits = byteBits b ++ r := by
  refine ⟨BitVec.ofNat 8 (readNat 0 (bits.take 8)), bits.drop 8, ?_⟩
  have hl : (bits.take 8).length = 8 := by simp; omega
  have hlt := readNat_lt (bits.take 8)
  rw [hl] at hlt
  have := bin_readNat (bits.take 8)
  rw [hl] at this
  rw [byteBits, BitVec.toNat_ofNat, Nat.mod_eq_of_lt hlt, this, List.take_append_drop]

theorem byteBits_injective {a b : Byte} (h : byteBits a = byteBits b) : a = b := by
  have ha := congrArg (readNat 0) h
  simp only [byteBits, readNat_bin] at ha
  have h1 : a.toNat < 2 ^ 8 := a.isLt
  have h2 : b.toNat < 2 ^ 8 := b.isLt
  apply BitVec.eq_of_toNat_eq
  rw [Nat.mod_eq_of_lt h1, Nat.mod_eq_of_lt h2] at ha
  omega

theorem rdBytes_ok (bs : List Byte) (is : IStream) (r : BitString) (h : is.rest = bytesBits bs ++ r) :
    rdBytes bs.length is = .ok bs { is with pos := is.pos + 8 * bs.length } := by
  induction bs generalizing is with
  | nil => rfl
  | cons b bs ih =>
    rw [bytesBits_cons, List.append_assoc] at h
    have hb := rdByte_ok is b _ h
    have hrest : IStream.rest { is with pos := is.pos + 8 } = bytesBits bs ++ r := by
      rw [rest_advance, h, List.drop_left' (byteBits_length b)]
    have := ih _ hrest
    rw [List.length_cons, rdBytes, bind_ok hb, bind_ok this, run_pure]
    have hp : is.pos + 8 + 8 * bs.length = is.pos + 8 * (bs.length + 1) := by omega
    rw [hp]

theorem rdU16_ok (is : IStream) (a b : Byte) (r : BitString) (h : is.rest = bytesBits [a, b] ++ r) :
    rdU16 is = .ok (BitVec.ofNat 16 (256 * a.toNat + b.toNat)) { is with pos := is.pos + 16 } := by
  simp only [bytesBits_cons, List.append_assoc] at h
  have h2 : IStream.rest { is with pos := is.pos + 8 } = byteBits b ++ (bytesBits [] ++ r) := by
    rw [rest_advance, h, List.drop_left' (byteBits_length a)]
  rw [rdU16, bind_ok (rdByte_ok is a _ h), bind_ok (rdByte_ok _ b _ h2), run_pure]

theorem rdU32_ok (is : IStream) (a b c d : Byte) (r : BitString) (h : is.rest = bytesBits [a, b, c, d] ++ r) :
    rdU32 is = .ok (BitVec.ofNat 32 (a.toNat * 2 ^ 24 + b.toNat * 2 ^ 16 + c.toNat * 2 ^ 8 + d.toNat))
      { is with pos := is.pos + 32 } := by
  simp only [bytesBits_cons, List.append_assoc] at h
  have h2 : IStream.rest { is with pos := is.pos + 8 } = byteBits b ++ (byteBits c ++ (byteBits d ++ (bytesBits [] ++ r))) := by
    rw [rest_advance, h, List.drop_left' (byteBits_length a)]
  have h3 : IStream.rest { is with pos := is.pos + 8 + 8 } = byteBits c ++ (byteBits d ++ (bytesBits [] ++ r)) := by
    have := rest_advance { is with pos := is.pos + 8 } 8
    rw [this, h2, List.drop_left' (byteBits_length b)]
  have h4 : IStream.rest { is with pos := is.pos + 8 + 8 + 8 } = byteBits d ++ (bytesBits [] ++ r) := by
    have := rest_advance { is with pos := is.pos + 8 + 8 } 8
    rw [this, h3, List.drop_left' (byteBits_length c)]
  rw [rdU32, bind_ok (rdByte_ok is a _ h), bind_ok (rdByte_ok _ b _ h2), bind_ok (rdByte_ok _ c _ h3),
    bind_ok (rdByte_ok _ d _ h4), run_pure]

/-- The value `rd_u32()` makes of what `wr_u32(v)` wrote is `v` (R44, R46). -/
theorem u32Bytes_value (v : Word32) :
    BitVec.ofNat 32 ((v.extractLsb' 24 8).toNat * 2 ^ 24 + (v.extractLsb' 16 8).toNat * 2 ^ 16
      + (v.extractLsb' 8 8).toNat * 2 ^ 8 + (v.extractLsb' 0 8).toNat) = v := by
  apply BitVec.eq_of_toNat_eq
  have := v.isLt
  simp only [BitVec.extractLsb'_toNat, BitVec.toNat_ofNat, Nat.shiftRight_eq_div_pow]
  omega

theorem rdU32_u32Bytes (is : IStream) (v : Word32) (r : BitString) (h : is.rest = bytesBits (u32Bytes v) ++ r) :
    rdU32 is = .ok v { is with pos := is.pos + 32 } := by
  rw [rdU32_ok is _ _ _ _ r h, u32Bytes_value]

/-- What a read does to the stream: the bytes stay, the cursor moves forward and stays inside. -/
structure Forward (a b : IStream) : Prop where
  bytes : b.bytes = a.bytes
  forward : a.pos ≤ b.pos
  inside : a.pos ≤ 8 * a.bytes.length → b.pos ≤ 8 * b.bytes.length

theorem forward_refl (a : IStream) : Forward a a := ⟨rfl, Nat.le_refl _, id⟩

theorem forward_trans (a b c : IStream) (h1 : Forward a b) (h2 : Forward b c) : Forward a c :=
  ⟨h2.bytes.trans h1.bytes, h1.forward.trans h2.forward, fun h => h2.inside (h1.inside h)⟩

/-- Being out of bits is the only thing a plain read raises (R50). -/
abbrev OnlyEos (e : Res) : Prop := e = .eEos

theorem rdBit_moves : Moves Forward OnlyEos rdBit := by
  intro is
  have h := atEnd_iff_rest is
  cases hr : is.rest with
  | nil =>
    rw [rdBit_eos is hr]
    constructor
    · intro a t h
      cases h
    · intro e t h
      cases h
      exact ⟨forward_refl _, rfl⟩
  | cons b r =>
    rw [rdBit_ok is b r hr]
    constructor
    · intro a t h
      cases h
      have := rest_length is
      rw [hr] at this
      simp only [List.length_cons] at this
      exact ⟨rfl, Nat.le_succ _, fun _ => by simp only; omega⟩
    · intro e t h
      cases h

theorem rdBits_moves (n v : Nat) : Moves Forward OnlyEos (rdBits n v) := by
  induction n generalizing v with
  | zero => exact moves_pure forward_refl v
  | succ n ih => exact moves_bind forward_trans rdBit_moves fun b => ih _

theorem rdByte_moves : Moves Forward OnlyEos rdByte :=
  moves_bind forward_trans (rdBits_moves 8 0) fun _ => moves_pure forward_refl _

theorem rdBytes_moves (n : Nat) : Moves Forward OnlyEos (rdBytes n) := by
  induction n with
  | zero => exact moves_pure forward_refl _
  | succ n ih =>
    exact moves_bind forward_trans rdByte_moves fun _ =>
      moves_bind forward_trans ih fun _ => moves_pure forward_refl _

theorem rdU16_moves : Moves Forward OnlyEos rdU16 :=
  moves_bind forward_trans rdByte_moves fun _ =>
    moves_bind forward_trans rdByte_moves fun _ => moves_pure forward_refl _

theorem rdU32_moves : Moves Forward OnlyEos rdU32 :=
  moves_bind forward_trans rdByte_moves fun _ =>
    moves_bind forward_trans rdByte_moves fun _ =>
      moves_bind forward_trans rdByte_moves fun _ =>
        moves_bind forward_trans rdByte_moves fun _ => moves_pure forward_refl _

/-! ### Writes -/

theorem byteBits_acc (acc : Byte) (b : Bool) (n : Nat) (h : n ≤ 7) :
    bin (BitVec.ofNat 8 (2 * acc.toNat + b.toNat)).toNat (n + 1) = bin acc.toNat n ++ [b] := by
  have step : ∀ m, m ≤ 7 → bin (BitVec.ofNat 8 (2 * acc.toNat + b.toNat)).toNat (m + 1) = bin acc.toNat m ++ [b] := by
    intro m hm
    induction m with
    | zero =>
      cases b
      · simp [bin, Nat.testBit_zero, Nat.mod_mod_of_dvd]
      · simp [bin, Nat.testBit_zero, Nat.add_mod, Nat.mod_mod_of_dvd]
    | succ m ih =>
      have ht : (BitVec.ofNat 8 (2 * acc.toNat + b.toNat)).toNat.testBit (m + 1) = acc.toNat.testBit m := by
        rw [BitVec.toNat_ofNat, Nat.testBit_mod_two_pow]
        have h8 : m + 1 < 8 := by omega
        simp only [h8, decide_true, Bool.true_and]
        rw [Nat.testBit_succ]
        congr 1
        have hle : b.toNat ≤ 1 := Bool.toNat_le b
        omega
      rw [bin, ih (by omega), ht]
      rfl
  exact step n h

theorem wrBit_bits (os : OStream) (b : Bool) : (os.wrBit b).bits = os.bits ++ [b] := by
  have hn := os.nacc.isLt
  unfold OStream.wrBit
  simp only
  split
  · rename_i h
    have h7 : os.nacc.val = 7 := by omega
    have := byteBits_acc os.acc b 7 (by omega)
    simp only [OStream.bits, bytesBits_append, h7]
    rw [bytesBits_cons, byteBits, this]
    simp [bytesBits, bin]
  · have := byteBits_acc os.acc b os.nacc.val (by omega)
    simp only [OStream.bits, this, List.append_assoc]

theorem wrBits_bits (os : OStream) (bits : BitString) : (os.wrBits bits).bits = os.bits ++ bits := by
  induction bits generalizing os with
  | nil => simp [OStream.wrBits]
  | cons b bs ih =>
    have : os.wrBits (b :: bs) = (os.wrBit b).wrBits bs := rfl
    rw [this, ih, wrBit_bits, List.append_assoc]
    rfl

theorem wrByte_bits (os : OStream) (v : Byte) : (os.wrByte v).bits = os.bits ++ byteBits v := by
  rw [OStream.wrByte, wrBits_bits, byteBits]

theorem wrBytes_bits (os : OStream) (bs : List Byte) : (os.wrBytes bs).bits = os.bits ++ bytesBits bs := by
  induction bs generalizing os with
  | nil => simp [OStream.wrBytes, bytesBits]
  | cons b bs ih =>
    have : os.wrBytes (b :: bs) = (os.wrByte b).wrBytes bs := by rw [OStream.wrBytes, List.foldl_cons, OStream.wrBytes]
    rw [this, ih, wrByte_bits, List.append_assoc, bytesBits_cons]

theorem wrBits_append (os : OStream) (as bs : BitString) : os.wrBits (as ++ bs) = (os.wrBits as).wrBits bs := by
  simp [OStream.wrBits]

theorem wrBytes_append (os : OStream) (as bs : List Byte) : os.wrBytes (as ++ bs) = (os.wrBytes as).wrBytes bs := by
  simp [OStream.wrBytes]

theorem wrBytes_eq_wrBits (os : OStream) (bs : List Byte) : os.wrBytes bs = os.wrBits (bytesBits bs) := by
  induction bs generalizing os with
  | nil => rfl
  | cons b bs ih =>
    rw [bytesBits_cons, wrBits_append, ← ih, OStream.wrBytes, List.foldl_cons, OStream.wrBytes, OStream.wrByte, byteBits]

theorem wrBit_nacc (os : OStream) (b : Bool) : (os.wrBit b).nacc.val = (os.nacc.val + 1) % 8 := by
  have hn := os.nacc.isLt
  unfold OStream.wrBit
  simp only
  split
  · rename_i h
    simp [h]
  · rw [Nat.mod_eq_of_lt (by omega)]

theorem wrBits_nacc (os : OStream) (bits : BitString) : (os.wrBits bits).nacc.val = (os.nacc.val + bits.length) % 8 := by
  induction bits generalizing os with
  | nil => simp [OStream.wrBits, Nat.mod_eq_of_lt os.nacc.isLt]
  | cons b bs ih =>
    have : os.wrBits (b :: bs) = (os.wrBit b).wrBits bs := rfl
    rw [this, ih, wrBit_nacc, List.length_cons]
    omega

theorem wrBit_wf (os : OStream) (b : Bool) (h : os.wf) : (os.wrBit b).wf := by
  have hn := os.nacc.isLt
  simp only [OStream.wf, accumulatorOk, decide_eq_true_eq] at *
  unfold OStream.wrBit
  simp only
  split
  · simp
  · simp only [BitVec.toNat_ofNat]
    rw [Nat.pow_succ]
    have : b.toNat ≤ 1 := Bool.toNat_le b
    exact Nat.lt_of_le_of_lt (Nat.mod_le _ _) (by omega)

theorem wrBits_wf (os : OStream) (bits : BitString) (h : os.wf) : (os.wrBits bits).wf := by
  induction bits generalizing os with
  | nil => exact h
  | cons b bs ih => exact ih _ (wrBit_wf os b h)

/-- A byte-aligned output stream holds exactly its bytes. -/
theorem aligned_bits (os : OStream) (h : os.nacc = 0) : os.bits = bytesBits os.bytes := by
  simp [OStream.bits, h, bin]

theorem bytesBits_injective {as bs : List Byte} (h : bytesBits as = bytesBits bs) : as = bs := by
  induction as generalizing bs with
  | nil =>
    cases bs with
    | nil => rfl
    | cons b bs =>
      have := congrArg List.length h
      rw [bytesBits_length, bytesBits_length] at this
      simp at this
  | cons a as ih =>
    cases bs with
    | nil =>
      have := congrArg List.length h
      rw [bytesBits_length, bytesBits_length] at this
      simp at this
    | cons b bs =>
      rw [bytesBits_cons, bytesBits_cons] at h
      have := List.append_inj h (by rw [byteBits_length, byteBits_length])
      rw [byteBits_injective this.1, ih this.2]

/-- On a byte-aligned stream `wr_byte` appends bytes unchanged (R46). -/
theorem wrBytes_aligned (os : OStream) (bs : List Byte) (h0 : os.nacc = 0) (hw : os.wf) :
    os.wrBytes bs = { os with bytes := os.bytes ++ bs } := by
  have hn : (os.wrBytes bs).nacc = 0 := by
    apply Fin.ext
    rw [wrBytes_eq_wrBits, wrBits_nacc, bytesBits_length, h0]
    simp
  have hb : (os.wrBytes bs).bytes = os.bytes ++ bs := by
    apply bytesBits_injective
    rw [← aligned_bits _ hn, wrBytes_bits, aligned_bits _ h0, bytesBits_append]
  have hwf : (os.wrBytes bs).wf := by
    rw [wrBytes_eq_wrBits]
    exact wrBits_wf _ _ hw
  have ha : ∀ o : OStream, o.nacc = 0 → o.wf → o.acc = 0 := by
    intro o h1 h2
    simp only [OStream.wf, accumulatorOk, h1, decide_eq_true_eq] at h2
    apply BitVec.eq_of_toNat_eq
    simp at h2 ⊢
    exact h2
  have h1 := ha _ hn hwf
  have h2 := ha _ h0 hw
  generalize os.wrBytes bs = o at *
  cases o
  cases os
  simp_all

theorem flush_aligned (os : OStream) (h : os.nacc = 0) : os.flush = os := by
  simp [OStream.flush, h]

/-- `flush()` closes the last byte with zero bits and leaves nothing pending (R47). -/
theorem flush_bits (os : OStream) :
    os.flush.nacc = 0 ∧ ∃ k, k < 8 ∧ os.flush.bits = os.bits ++ List.replicate k false ∧ (os.nacc.val + k) % 8 = 0 := by
  have hn := os.nacc.isLt
  unfold OStream.flush
  split
  · rename_i h
    refine ⟨rfl, 8 - os.nacc.val, by omega, ?_, by omega⟩
    have key : ∀ m k, m + k = 8 → ∀ j, j ≤ m →
        bin (BitVec.ofNat 8 (os.acc.toNat * 2 ^ k)).toNat (j + k) = bin os.acc.toNat j ++ List.replicate k false := by
      intro m k hmk j hj
      induction j with
      | zero =>
        simp only [Nat.zero_add, bin, List.nil_append]
        have : ∀ i, i ≤ k → bin (BitVec.ofNat 8 (os.acc.toNat * 2 ^ k)).toNat i = List.replicate i false := by
          intro i hi
          induction i with
          | zero => rfl
          | succ i ih =>
            rw [bin, ih (by omega), List.replicate_succ]
            congr 1
            rw [BitVec.toNat_ofNat, Nat.testBit_mod_two_pow, Nat.testBit_mul_two_pow]
            have : ¬ k ≤ i := by omega
            simp [this]
        exact this k (le_refl k)
      | succ j ih =>
        have e : j + 1 + k = (j + k) + 1 := by omega
        rw [e, bin, ih (by omega), bin, List.cons_append]
        congr 1
        rw [BitVec.toNat_ofNat, Nat.testBit_mod_two_pow, Nat.testBit_mul_two_pow]
        have h1 : j + k < 8 := by omega
        simp [h1]
    have := key os.nacc.val (8 - os.nacc.val) (by omega) os.nacc.val (le_refl _)
    have e8 : os.nacc.val + (8 - os.nacc.val) = 8 := by omega
    rw [e8] at this
    simp only [OStream.bits, bytesBits_append, bytesBits_cons, byteBits, this]
    simp [bytesBits, bin]
  · have h0 : os.nacc.val = 0 := by omega
    refine ⟨Fin.ext h0, 0, by omega, by simp, by omega⟩

theorem wrBit_bytes_prefix (os : OStream) (b : Bool) : os.bytes <+: (os.wrBit b).bytes := by
  unfold OStream.wrBit
  simp only
  split
  · exact List.prefix_append _ _
  · exact List.prefix_rfl

theorem wrBits_bytes_prefix (os : OStream) (bits : BitString) : os.bytes <+: (os.wrBits bits).bytes := by
  induction bits generalizing os with
  | nil => exact List.prefix_rfl
  | cons b bs ih => exact (wrBit_bytes_prefix os b).trans (ih (os.wrBit b))

theorem wrBytes_bytes_prefix (os : OStream) (bs : List Byte) : os.bytes <+: (os.wrBytes bs).bytes := by
  rw [wrBytes_eq_wrBits]
  exact wrBits_bytes_prefix _ _

theorem flush_bytes_prefix (os : OStream) : os.bytes <+: os.flush.bytes := by
  unfold OStream.flush
  split
  · exact List.prefix_append _ _
  · exact List.prefix_rfl

theorem flush_wf (os : OStream) (h : os.wf) : os.flush.wf := by
  unfold OStream.flush
  split
  · simp [OStream.wf, accumulatorOk]
  · exact h

theorem wrBytes_nacc (os : OStream) (bs : List Byte) : (os.wrBytes bs).nacc = os.nacc := by
  rw [wrBytes_eq_wrBits]
  apply Fin.ext
  rw [wrBits_nacc, bytesBits_length]
  have := os.nacc.isLt
  omega

/-! ### Reads that find too few bits -/

theorem rdBytes_eos (n : Nat) (is : IStream) (h : is.rest.length < 8 * n) :
    rdBytes n is = .error .eEos { is with pos := is.pos + is.rest.length } := by
  induction n generalizing is with
  | zero => omega
  | succ n ih =>
    by_cases h8 : is.rest.length < 8
    · rw [rdBytes, bind_error (rdByte_eos is h8)]
    · obtain ⟨b, r, hb⟩ := exists_byte_of_length is.rest (by omega)
      have hr : IStream.rest { is with pos := is.pos + 8 } = r := by
        rw [rest_advance, hb, List.drop_left' (byteBits_length b)]
      have hl : is.rest.length = 8 + r.length := by rw [hb, List.length_append, byteBits_length]
      rw [rdBytes, bind_ok (rdByte_ok is b r hb), bind_error (ih _ (by rw [hr]; omega)), hr, hl, Nat.add_assoc]

theorem rdU16_eos (is : IStream) (h : is.rest.length < 16) :
    rdU16 is = .error .eEos { is with pos := is.pos + is.rest.length } := by
  by_cases h8 : is.rest.length < 8
  · rw [rdU16, bind_error (rdByte_eos is h8)]
  · obtain ⟨b, r, hb⟩ := exists_byte_of_length is.rest (by omega)
    have hr : IStream.rest { is with pos := is.pos + 8 } = r := by
      rw [rest_advance, hb, List.drop_left' (byteBits_length b)]
    have hl : is.rest.length = 8 + r.length := by rw [hb, List.length_append, byteBits_length]
    rw [rdU16, bind_ok (rdByte_ok is b r hb), bind_error (rdByte_eos _ (by rw [hr]; omega)), hr, hl, Nat.add_assoc]

/-- The first byte of a longer read, when it is there and the rest of the read fails at the end of the input. -/
theorem rdByte_then_eos {α : Type} {f : Byte → Reader α} (n : Nat) (is : IStream) (h : is.rest.length < 8 + n)
    (hf : ∀ b (js : IStream), js.rest.length < n → f b js = .error .eEos { js with pos := js.pos + js.rest.length }) :
    (rdByte >>= f) is = .error .eEos { is with pos := is.pos + is.rest.length } := by
  by_cases h8 : is.rest.length < 8
  · rw [bind_error (rdByte_eos is h8)]
  · obtain ⟨b, r, hb⟩ := exists_byte_of_length is.rest (by omega)
    have hr : IStream.rest { is with pos := is.pos + 8 } = r := by
      rw [rest_advance, hb, List.drop_left' (byteBits_length b)]
    have hl : is.rest.length = 8 + r.length := by rw [hb, List.length_append, byteBits_length]
    rw [bind_ok (rdByte_ok is b r hb), hf b _ (by rw [hr]; omega), hr, hl, Nat.add_assoc]

theorem rdU32_eos (is : IStream) (h : is.rest.length < 32) :
    rdU32 is = .error .eEos { is with pos := is.pos + is.rest.length } := by
  refine rdByte_then_eos 24 is (by omega) fun a js h1 => ?_
  refine rdByte_then_eos 16 js (by omega) fun b js h2 => ?_
  refine rdByte_then_eos 8 js (by omega) fun c js h3 => ?_
  rw [bind_error (rdByte_eos js h3)]

/-- The first `n` bytes of a bit string that has them. -/
theorem exists_bytes_prefix (n : Nat) (bits : BitString) (h : 8 * n ≤ bits.length) :
    ∃ bs r, bits = bytesBits bs ++ r ∧ bs.length = n := by
  induction n generalizing bits with
  | zero => exact ⟨[], bits, rfl, rfl⟩
  | succ n ih =>
    obtain ⟨b, r, rfl⟩ := exists_byte_of_length bits (by omega)
    rw [List.length_append, byteBits_length] at h
    obtain ⟨bs, r', rfl, h1⟩ := ih r (by omega)
    exact ⟨b :: bs, r', by rw [bytesBits_cons, List.append_assoc], by simp [h1]⟩

end Sys2Proof.Machine
end

