-- ==== Sys2Proof/Laws/Tables.lean ====
section
/-!
SUPPORT. Laws of the tables: a read after a write, entry by entry; every symbol is in `allSymbols` once.
-/

namespace Sys2Proof.Machine

theorem symAt_symPut {α : Type} (t : SymbolTable α) (s u : Byte) (v : α) :
    symAt (symPut t s v) u = if u = s then v else symAt t u := by
  unfold symAt symPut
  rw [Vector.getElem_set]
  by_cases h : u = s
  · subst h
    simp
  · have : ¬ s.toNat = u.toNat := fun he => h (BitVec.eq_of_toNat_eq he.symm)
    simp [h, this]

theorem symAt_replicate {α : Type} (v : α) (s : Byte) : symAt (Vector.replicate 256 v) s = v := by
  simp [symAt]

/-- Two tables that agree on every symbol are one table. -/
theorem symTable_ext {α : Type} {t u : SymbolTable α} (h : ∀ s, symAt t s = symAt u s) : t = u := by
  apply Vector.ext
  intro i hi
  have := h (BitVec.ofNat 8 i)
  have e : (BitVec.ofNat 8 i).toNat = i := by
    rw [BitVec.toNat_ofNat, Nat.mod_eq_of_lt hi]
  simp only [symAt, e] at this
  exact this

theorem lenAt_lenPut (t : LengthTable) (L M : Nat) (v : BitVec 9) (hL : 1 ≤ L ∧ L ≤ 16) :
    lenAt (lenPut t L v) M = if M = L then v else lenAt t M := by
  unfold lenAt lenPut
  rw [dif_pos hL]
  by_cases hM : 1 ≤ M ∧ M ≤ 16
  · rw [dif_pos hM, dif_pos hM, Vector.getElem_set]
    by_cases h : M = L
    · subst h
      simp
    · have : ¬ L - 1 = M - 1 := by omega
      simp [h, this]
  · rw [dif_neg hM, dif_neg hM]
    have : ¬ M = L := by
      intro h
      subst h
      exact hM hL
    simp [this]

theorem lenAt_replicate (v : BitVec 9) (L : Nat) (hL : 1 ≤ L ∧ L ≤ 16) : lenAt (Vector.replicate 16 v) L = v := by
  simp [lenAt, hL]

theorem lenTable_ext {t u : LengthTable} (h : ∀ L, 1 ≤ L → L ≤ 16 → lenAt t L = lenAt u L) : t = u := by
  apply Vector.ext
  intro i hi
  have := h (i + 1) (by omega) (by omega)
  have hb : 1 ≤ i + 1 ∧ i + 1 ≤ 16 := by omega
  simp only [lenAt, dif_pos hb] at this
  simpa using this

theorem mem_allSymbols (s : Byte) : s ∈ allSymbols := by
  simp only [allSymbols, List.mem_map, List.mem_range]
  exact ⟨s.toNat, s.isLt, by simp⟩

theorem allSymbols_nodup : allSymbols.Nodup := by
  unfold allSymbols
  rw [List.nodup_map_iff_inj_on List.nodup_range]
  intro a ha b hb h
  rw [List.mem_range] at ha hb
  have := congrArg BitVec.toNat h
  simpa [BitVec.toNat_ofNat, Nat.mod_eq_of_lt ha, Nat.mod_eq_of_lt hb] using this

theorem allSymbols_length : allSymbols.length = 256 := by simp [allSymbols]

/-- NONE_SEEN says exactly that every count is zero (R93). -/
theorem noneSeen_iff (c : Context) : c.noneSeen = true ↔ ∀ s, symAt c.freq s = 0 := by
  simp only [Context.noneSeen, List.all_eq_true, beq_iff_eq]
  exact ⟨fun h s => h s (mem_allSymbols s), fun h s _ => h s⟩

end Sys2Proof.Machine
end

