-- ==== Sys2Proof/Laws/Ops.lean ====
section
/-!
SUPPORT. Laws of the shared operations: what an action of a command body does, what acceptance, completion and
issuing do, and the frame every command body stays in.
-/

namespace Sys2Proof.Machine

/-! ### Actions of a command body -/

theorem run_read_ok {α : Type} {r : Reader α} {s : State} {a : α} {is : IStream} (h : r s.io.is = .ok a is) :
    Cmd.read r s = .ok a { s with io := { s.io with is := is } } := by
  simp [Cmd.read, h]

theorem run_read_error {α : Type} {r : Reader α} {s : State} {e : Res} {is : IStream} (h : r s.io.is = .error e is) :
    Cmd.read r s = .error e { s with io := { s.io with is := is } } := by
  simp [Cmd.read, h]

theorem run_rewind (s : State) : Cmd.rewind s = .ok () { s with io := { s.io with is := s.io.is.rewind } } := rfl

theorem run_atEnd (s : State) : Cmd.atEnd s = .ok s.io.is.atEnd s := rfl

theorem run_write (f : OStream → OStream) (s : State) :
    Cmd.write f s = .ok () { s with io := { s.io with os := f s.io.os } } := rfl

theorem run_progress (n : Nat) (s : State) :
    Cmd.progress n s = .ok () { s with io := { s.io with prog := s.io.prog ++ [n] } } := rfl

theorem run_modifyCtx (f : Context → Context) (s : State) : Cmd.modifyCtx f s = .ok () { s with ctx := f s.ctx } := rfl

theorem run_ctx (s : State) : Cmd.ctx s = .ok s.ctx s := rfl

theorem run_cleanup (s : State) : Cmd.cleanup s = .ok () s.cleanup := rfl

theorem run_inputLength (s : State) : Cmd.inputLength s = .ok s.io.is.bytes.length s := rfl

theorem run_bitsLeft (s : State) : Cmd.bitsLeft s = .ok s.io.is.rest.length s := by
  rw [rest_length]
  rfl

/-! ### Acceptance, completion, issuing -/

/-- What an issued command can be: rejected with the code of the acceptance check, or accepted (R183). -/
theorem issue_cases (i : Instr) (f : State → State) (s : State) :
    (acceptance i s = .ok ∧ issue i f s = f s) ∨ (acceptance i s ≠ .ok ∧ issue i f s = s.reject (acceptance i s)) := by
  unfold issue
  cases h : acceptance i s <;> simp

theorem issue_accepted {i : Instr} {f : State → State} {s : State} (h : acceptance i s = .ok) :
    issue i f s = f s := by
  simp [issue, h]

/-- The acceptance check answers one of four codes (R183). -/
theorem acceptance_codes (i : Instr) (s : State) :
    acceptance i s = .ok ∨ acceptance i s = .eCmd ∨ acceptance i s = .eSeq ∨ acceptance i s = .eNull := by
  unfold acceptance
  repeat' split
  all_goals simp

/-- A command passes acceptance exactly when all three checks pass (R183). -/
theorem acceptance_ok_iff (i : Instr) (s : State) :
    acceptance i s = .ok ↔
      isCommand i = true ∧ phaseAllows i s.ctx = true ∧ (needsIS i = true → s.isValid = true) ∧
        (needsOS i = true → s.osValid = true) := by
  unfold acceptance
  cases isCommand i <;> cases phaseAllows i s.ctx <;> cases needsIS i <;> cases s.isValid <;> cases needsOS i <;>
    cases s.osValid <;> simp

theorem complete_ok {body : Cmd Unit} {s t : State} (h : body s = .ok () t) : complete body s = t.succeed := by
  simp [complete, h]

theorem complete_error {body : Cmd Unit} {s t : State} {e : Res} (h : body s = .error e t) :
    complete body s = t.raise e := by
  simp [complete, h]

/-- What running an accepted command's body comes to (R185, R206). -/
theorem complete_cases (body : Cmd Unit) (s : State) :
    (∃ t, body s = .ok () t ∧ complete body s = t.succeed) ∨
    (∃ e t, body s = .error e t ∧ complete body s = t.raise e) := by
  cases h : body s with
  | ok a t => exact .inl ⟨t, rfl, complete_ok h⟩
  | error e t => exact .inr ⟨e, t, rfl, complete_error h⟩

theorem andThen_ok {s : State} {f : State → State} (h : s.err = .ok) : s.andThen f = f s := by
  simp [State.andThen, h]

theorem andThen_error {s : State} {f : State → State} (h : s.err ≠ .ok) : s.andThen f = s := by
  unfold State.andThen
  cases he : s.err <;> simp_all

/-! ### Frames -/

/-- What every command keeps, whatever it does to the context and to ERR: the input bytes, the valid
inputs and the host's queue stay; the cursor stays inside the stream; output and progress events
are only appended. -/
structure Frame (s t : State) : Prop where
  isBytes : t.io.is.bytes = s.io.is.bytes
  cursor : s.io.is.pos ≤ 8 * s.io.is.bytes.length → t.io.is.pos ≤ 8 * t.io.is.bytes.length
  osBytes : s.io.os.bytes <+: t.io.os.bytes
  osBits : s.io.os.bits <+: t.io.os.bits
  osWf : s.io.os.wf → t.io.os.wf
  prog : s.io.prog <+: t.io.prog
  isValid : t.isValid = s.isValid
  osValid : t.osValid = s.osValid
  pending : t.pending = s.pending

theorem frame_refl (s : State) : Frame s s :=
  ⟨rfl, id, List.prefix_rfl, List.prefix_rfl, id, List.prefix_rfl, rfl, rfl, rfl⟩

theorem frame_trans (s t u : State) (h1 : Frame s t) (h2 : Frame t u) : Frame s u :=
  ⟨h2.isBytes.trans h1.isBytes, fun h => h2.cursor (h1.cursor h), h1.osBytes.trans h2.osBytes,
    h1.osBits.trans h2.osBits, fun h => h2.osWf (h1.osWf h), h1.prog.trans h2.prog, h2.isValid.trans h1.isValid,
    h2.osValid.trans h1.osValid, h2.pending.trans h1.pending⟩

/-- Changing the context and ERR alone is inside the frame. -/
theorem frame_of_ctx (s : State) (c : Context) (e : Res) : Frame s { s with ctx := c, err := e } :=
  ⟨rfl, id, List.prefix_rfl, List.prefix_rfl, id, List.prefix_rfl, rfl, rfl, rfl⟩

theorem frame_succeed (s : State) : Frame s s.succeed := frame_of_ctx s s.ctx .ok

theorem frame_reject (s : State) (e : Res) : Frame s (s.reject e) := frame_of_ctx s s.ctx e

theorem frame_raise (s : State) (e : Res) : Frame s (s.raise e) := frame_of_ctx s _ e

variable {E : Res → Prop}

theorem moves_read {α : Type} {r : Reader α} (h : Moves Forward E r) : Moves Frame E (Cmd.read r) := by
  intro s
  have hs := h s.io.is
  cases hr : r s.io.is with
  | ok a is =>
    rw [run_read_ok hr]
    have f := hs.1 a is hr
    constructor
    · intro b t ht
      cases ht
      exact ⟨f.bytes, f.inside, List.prefix_rfl, List.prefix_rfl, id, List.prefix_rfl, rfl, rfl, rfl⟩
    · intro e t ht
      cases ht
  | error e is =>
    rw [run_read_error hr]
    have f := hs.2 e is hr
    constructor
    · intro b t ht
      cases ht
    · intro e' t ht
      cases ht
      exact ⟨⟨f.1.bytes, f.1.inside, List.prefix_rfl, List.prefix_rfl, id, List.prefix_rfl, rfl, rfl, rfl⟩, f.2⟩

theorem moves_rewind : Moves Frame E Cmd.rewind :=
  moves_modify fun _ => ⟨rfl, fun _ => Nat.zero_le _, List.prefix_rfl, List.prefix_rfl, id, List.prefix_rfl, rfl, rfl, rfl⟩

/-- Writing bits is inside the frame. -/
theorem moves_wrBits (bits : BitString) : Moves Frame E (Cmd.write fun os => os.wrBits bits) :=
  moves_modify fun s => ⟨rfl, id, wrBits_bytes_prefix _ _, by
    rw [wrBits_bits]
    exact List.prefix_append _ _, wrBits_wf _ _, List.prefix_rfl, rfl, rfl, rfl⟩

theorem moves_wrBytes (bs : List Byte) : Moves Frame E (Cmd.write fun os => os.wrBytes bs) := by
  have : (fun os : OStream => os.wrBytes bs) = fun os => os.wrBits (bytesBits bs) :=
    funext fun os => wrBytes_eq_wrBits os bs
  rw [this]
  exact moves_wrBits _

theorem moves_wrByte (v : Byte) : Moves Frame E (Cmd.write fun os => os.wrByte v) := moves_wrBits _

theorem moves_flush : Moves Frame E (Cmd.write OStream.flush) :=
  moves_modify fun s => ⟨rfl, id, flush_bytes_prefix _, by
    obtain ⟨_, k, _, hb, _⟩ := flush_bits s.io.os
    rw [hb]
    exact List.prefix_append _ _, flush_wf _, List.prefix_rfl, rfl, rfl, rfl⟩

theorem moves_progress (n : Nat) : Moves Frame E (Cmd.progress n) :=
  moves_modify fun _ => ⟨rfl, id, List.prefix_rfl, List.prefix_rfl, id, List.prefix_append _ _, rfl, rfl, rfl⟩

theorem moves_modifyCtx (f : Context → Context) : Moves Frame E (Cmd.modifyCtx f) :=
  moves_modify fun s => frame_of_ctx s (f s.ctx) s.err

theorem moves_cleanup : Moves Frame E Cmd.cleanup := moves_modify fun s => frame_of_ctx s _ s.err

theorem moves_ctx : Moves Frame E Cmd.ctx := by
  intro s
  rw [run_ctx]
  constructor
  · intro a t h
    cases h
    exact frame_refl s
  · intro e t h
    cases h

theorem moves_atEnd : Moves Frame E Cmd.atEnd := by
  intro s
  rw [run_atEnd]
  constructor
  · intro a t h
    cases h
    exact frame_refl s
  · intro e t h
    cases h

theorem moves_inputLength : Moves Frame E Cmd.inputLength := by
  intro s
  rw [run_inputLength]
  constructor
  · intro a t h
    cases h
    exact frame_refl s
  · intro e t h
    cases h

theorem moves_bitsLeft : Moves Frame E Cmd.bitsLeft := by
  intro s
  rw [run_bitsLeft]
  constructor
  · intro a t h
    cases h
    exact frame_refl s
  · intro e t h
    cases h

/-- A body inside the frame makes an issued command inside the frame. -/
theorem issue_frame (i : Instr) {body : Cmd Unit} (h : Moves Frame E body) (s : State) :
    Frame s (issue i (complete body) s) := by
  rcases issue_cases i (complete body) s with ⟨_, h1⟩ | ⟨_, h1⟩
  · rw [h1]
    rcases complete_cases body s with ⟨t, h2, h3⟩ | ⟨e, t, h2, h3⟩
    · rw [h3]
      exact frame_trans _ _ _ ((h s).1 () t h2) (frame_succeed t)
    · rw [h3]
      exact frame_trans _ _ _ ((h s).2 e t h2).1 (frame_raise t e)
  · rw [h1]
    exact frame_reject _ _

/-- What an issued command's ERR says: OK, a rejection that changed nothing else, or an error the body
raised, after which the context is clean (R183, R206). -/
theorem issue_err (i : Instr) {body : Cmd Unit} (h : Moves Frame E body) (s : State) :
    (acceptance i s = .ok ∧ (issue i (complete body) s).err = .ok) ∨
    (acceptance i s ≠ .ok ∧ issue i (complete body) s = s.reject (acceptance i s)) ∨
    (acceptance i s = .ok ∧ E (issue i (complete body) s).err ∧ (issue i (complete body) s).ctx = Context.clean) := by
  rcases issue_cases i (complete body) s with ⟨h0, h1⟩ | ⟨h0, h1⟩
  · rw [h1]
    rcases complete_cases body s with ⟨t, h2, h3⟩ | ⟨e, t, h2, h3⟩
    · rw [h3]
      exact .inl ⟨h0, rfl⟩
    · rw [h3]
      exact .inr (.inr ⟨h0, ((h s).2 e t h2).2, rfl⟩)
  · exact .inr (.inl ⟨h0, h1⟩)

end Sys2Proof.Machine
end

