-- ==== Sys2Proof/Laws/Builder.lean ====
section
/-!
SUPPORT. Laws of BUILD: what `pop_min` returns, what the merge loop keeps, and the tree that results.
-/

namespace Sys2Proof.Machine

/-! ### The queue -/

theorem popMin_none {q : List Entry} : popMin q = none ↔ q = [] := by
  cases q with
  | nil => simp [popMin]
  | cons e es =>
    simp only [popMin]
    cases popMin es with
    | none => simp
    | some p =>
      simp only
      split <;> simp

/-- `pop_min` removes the entry it returns and no other (R103). -/
theorem popMin_perm {q r : List Entry} {m : Entry} (h : popMin q = some (m, r)) : q.Perm (m :: r) := by
  induction q generalizing m r with
  | nil => simp [popMin] at h
  | cons e es ih =>
    simp only [popMin] at h
    cases hp : popMin es with
    | none =>
      rw [hp] at h
      have := popMin_none.1 hp
      simp_all
    | some p =>
      obtain ⟨m', r'⟩ := p
      rw [hp] at h
      simp only at h
      have hes := ih hp
      split at h
      · cases h
        exact (hes.cons e).trans (List.Perm.swap _ _ _)
      · cases h
        exact hes.cons e

theorem before_trans {a b c : Entry} (h1 : a.before b = true) (h2 : b.before c = true) : a.before c = true := by
  simp only [Entry.before, Config.tieBreak, Bool.or_eq_true, Bool.and_eq_true, decide_eq_true_eq] at *
  omega

theorem before_total {a b : Entry} (h : a.before b = false) : b.before a = true ∨
    (a.node.freq.toNat = b.node.freq.toNat ∧ a.seq = b.seq) := by
  simp only [Entry.before, Config.tieBreak, Bool.or_eq_false_iff, Bool.and_eq_false_iff, decide_eq_false_iff_not,
    Bool.or_eq_true, Bool.and_eq_true, decide_eq_true_eq] at *
  omega

/-- No entry left in the queue has a smaller key than the one `pop_min` returns (R103). -/
theorem popMin_least {q r : List Entry} {m : Entry} (h : popMin q = some (m, r)) : ∀ x ∈ r, x.before m = false := by
  induction q generalizing m r with
  | nil => simp [popMin] at h
  | cons e es ih =>
    simp only [popMin] at h
    cases hp : popMin es with
    | none =>
      rw [hp] at h
      cases h
      simp
    | some p =>
      obtain ⟨m', r'⟩ := p
      rw [hp] at h
      simp only at h
      have hes := ih hp
      split at h
      · rename_i hb
        cases h
        intro x hx
        rcases List.mem_cons.1 hx with rfl | hx
        · simp only [Entry.before, Config.tieBreak, Bool.or_eq_true, Bool.and_eq_true, decide_eq_true_eq] at hb
          simp only [Entry.before, Config.tieBreak, Bool.or_eq_false_iff, Bool.and_eq_false_iff,
            decide_eq_false_iff_not]
          omega
        · exact hes x hx
      · rename_i hb
        cases h
        intro x hx
        have hb' : m'.before e = false := by simpa using hb
        rcases List.mem_cons.1 hx with rfl | hx
        · exact hb'
        · have h3 := hes x hx
          simp only [Entry.before, Config.tieBreak, Bool.or_eq_false_iff, Bool.and_eq_false_iff,
            decide_eq_false_iff_not] at *
          omega

/-! ### The merge loop -/

/-- The parent the merge loop makes of two popped entries (R102). -/
def mergedEntry (a b : Entry) (n : Nat) : Entry :=
  ⟨.internal (BitVec.ofNat 9 n) a.node b.node (a.node.freq + b.node.freq), n⟩

/-- Whatever each merge keeps, the loop keeps. -/
theorem mergeLoop_keeps {P : List Entry → Nat → Prop}
    (hstep : ∀ q n a q1 b q2, P q n → popMin q = some (a, q1) → popMin q1 = some (b, q2) →
      P (mergedEntry a b n :: q2) (n + 1)) :
    ∀ k q n, P q n → P (mergeLoop k q n).1 (mergeLoop k q n).2 := by
  intro k
  induction k with
  | zero => intro q n h; exact h
  | succ k ih =>
    intro q n h
    simp only [mergeLoop]
    cases h1 : popMin q with
    | none => exact h
    | some p =>
      obtain ⟨a, q1⟩ := p
      simp only
      cases h2 : popMin q1 with
      | none => exact h
      | some p2 =>
        obtain ⟨b, q2⟩ := p2
        exact ih _ _ (hstep q n a q1 b q2 h h1 h2)

theorem popMin_length {q r : List Entry} {m : Entry} (h : popMin q = some (m, r)) : q.length = r.length + 1 := by
  rw [(popMin_perm h).length_eq, List.length_cons]

/-- With N entries the loop runs N - 1 times and one entry remains (R102). -/
theorem mergeLoop_length (k : Nat) (q : List Entry) (n : Nat) (h1 : 1 ≤ q.length) (h2 : q.length ≤ k + 1) :
    (mergeLoop k q n).1.length = 1 ∧ (mergeLoop k q n).2 = n + (q.length - 1) := by
  induction k generalizing q n with
  | zero => exact ⟨by simp only [mergeLoop]; omega, by simp only [mergeLoop]; omega⟩
  | succ k ih =>
    simp only [mergeLoop]
    cases hp : popMin q with
    | none =>
      rw [popMin_none] at hp
      subst hp
      simp at h1
    | some p =>
      obtain ⟨a, q1⟩ := p
      have hl1 := popMin_length hp
      simp only
      cases hp2 : popMin q1 with
      | none =>
        rw [popMin_none] at hp2
        subst hp2
        simp only [List.length_nil] at hl1
        exact ⟨by simp only; omega, by simp only; omega⟩
      | some p2 =>
        obtain ⟨b, q2⟩ := p2
        have hl2 := popMin_length hp2
        have := ih (mergedEntry a b n :: q2) (n + 1) (by simp) (by simp only [List.length_cons]; omega)
        simp only [List.length_cons] at this
        refine ⟨this.1, this.2.trans ?_⟩
        omega

/-- What holds of the queue after any number of merges: every entry is a tree with two children under
each internal node and frequencies that sum up; together the leaves are those the loop began with; the
arena indices in use are 0 to n - 1, each once; the last node made is in the queue. -/
structure Merging (seen : List (Byte × Word32)) (q : List Entry) (n : Nat) : Prop where
  full : ∀ e ∈ q, e.node.full = true
  sums : ∀ e ∈ q, e.node.sumsUp = true
  leaves : (q.flatMap fun e => e.node.leaves).Perm seen
  indices : (q.flatMap fun e => e.node.indices).Perm ((List.range n).map (BitVec.ofNat 9))
  last : q ≠ [] → ∃ e ∈ q, e.node.index = some (BitVec.ofNat 9 (n - 1))

theorem merging_step (seen : List (Byte × Word32)) (q : List Entry) (n : Nat) (a : Entry) (q1 : List Entry) (b : Entry)
    (q2 : List Entry) (h : Merging seen q n) (h1 : popMin q = some (a, q1)) (h2 : popMin q1 = some (b, q2)) :
    Merging seen (mergedEntry a b n :: q2) (n + 1) := by
  have hp : q.Perm (a :: b :: q2) := (popMin_perm h1).trans ((popMin_perm h2).cons a)
  have ha : a ∈ q := hp.mem_iff.2 (by simp)
  have hb : b ∈ q := hp.mem_iff.2 (by simp)
  have hq : ∀ e ∈ q2, e ∈ q := fun e he => hp.mem_iff.2 (by simp [he])
  constructor
  · intro e he
    rcases List.mem_cons.1 he with rfl | he
    · simp [mergedEntry, Node.full, h.full a ha, h.full b hb]
    · exact h.full e (hq e he)
  · intro e he
    rcases List.mem_cons.1 he with rfl | he
    · simp [mergedEntry, Node.sumsUp, h.sums a ha, h.sums b hb]
    · exact h.sums e (hq e he)
  · have := (hp.flatMap_right fun e => e.node.leaves).symm.trans h.leaves
    simpa [mergedEntry, Node.leaves] using this
  · have hi := (hp.flatMap_right fun e => e.node.indices).symm.trans h.indices
    simp only [List.flatMap_cons, mergedEntry, Node.indices, List.cons_append] at hi ⊢
    rw [List.range_succ, List.map_append, List.map_singleton]
    refine ((hi.cons (BitVec.ofNat 9 n)).symm.trans ?_).symm.trans (List.perm_append_singleton _ _).symm
    simp
  · intro _
    exact ⟨mergedEntry a b n, by simp, by simp [mergedEntry, Node.index]⟩

theorem leafEntries_merging (seen : List (Byte × Word32)) :
    Merging seen (leafEntries 0 seen) seen.length ∧ (leafEntries 0 seen).length = seen.length := by
  have key : ∀ (ps : List (Byte × Word32)) (k : Nat),
      (leafEntries k ps).length = ps.length ∧
      (∀ e ∈ leafEntries k ps, e.node.full = true ∧ e.node.sumsUp = true) ∧
      ((leafEntries k ps).flatMap fun e => e.node.leaves) = ps ∧
      ((leafEntries k ps).flatMap fun e => e.node.indices) = (List.range' k ps.length).map (BitVec.ofNat 9) ∧
      (ps ≠ [] → ∃ e ∈ leafEntries k ps, e.node.index = some (BitVec.ofNat 9 (k + ps.length - 1))) := by
    intro ps
    induction ps with
    | nil => intro k; simp [leafEntries]
    | cons p ps ih =>
      intro k
      obtain ⟨s, f⟩ := p
      obtain ⟨h1, h2, h3, h4, h5⟩ := ih (k + 1)
      refine ⟨by simp [leafEntries, h1], ?_, ?_, ?_, ?_⟩
      · intro e he
        simp only [leafEntries, List.mem_cons] at he
        rcases he with rfl | he
        · simp [Node.full, Node.sumsUp]
        · exact h2 e he
      · simp [leafEntries, Node.leaves, h3]
      · simp [leafEntries, Node.indices, h4, List.range'_succ]
      · intro _
        cases ps with
        | nil => exact ⟨_, by simp [leafEntries]; rfl, by simp [Node.index]⟩
        | cons p2 ps2 =>
          obtain ⟨e, he, hi⟩ := h5 (by simp)
          refine ⟨e, List.mem_cons_of_mem _ he, ?_⟩
          rw [hi]
          congr 2
          simp only [List.length_cons]
          omega
  obtain ⟨h1, h2, h3, h4, h5⟩ := key seen 0
  refine ⟨⟨fun e he => (h2 e he).1, fun e he => (h2 e he).2, ?_, ?_, ?_⟩, h1⟩
  · rw [h3]
  · rw [h4, List.range_eq_range']
  · intro hne
    have : seen ≠ [] := by
      intro h
      subst h
      simp [leafEntries] at hne
    simpa using h5 this

/-- The tree BUILD makes when some symbol was seen: it is full, its frequencies sum up, its leaves are
the seen symbols with their counts, it has 2N - 1 nodes with the arena indices 0 to 2N - 2, and the
root is at index 2N - 2 (R18, R101, R102, R105). -/
theorem buildTree_spec (freq : SymbolTable Word32) (h : seenSymbols freq ≠ []) :
    (buildTree freq).1.full = true ∧ (buildTree freq).1.sumsUp = true ∧
    (buildTree freq).1.leaves.Perm (seenSymbols freq) ∧
    (buildTree freq).2 = 2 * (seenSymbols freq).length - 1 ∧
    (buildTree freq).1.indices.Perm ((List.range (buildTree freq).2).map (BitVec.ofNat 9)) ∧
    (buildTree freq).1.index = some (BitVec.ofNat 9 (2 * (seenSymbols freq).length - 2)) := by
  obtain ⟨hm, hl⟩ := leafEntries_merging (seenSymbols freq)
  have hpos : 1 ≤ (seenSymbols freq).length := List.length_pos_iff.2 h
  have hkeep := mergeLoop_keeps (merging_step (seenSymbols freq)) (leafEntries 0 (seenSymbols freq)).length
    (leafEntries 0 (seenSymbols freq)) (leafEntries 0 (seenSymbols freq)).length (by rw [hl]; exact hm)
  have hlen := mergeLoop_length (leafEntries 0 (seenSymbols freq)).length (leafEntries 0 (seenSymbols freq))
    (leafEntries 0 (seenSymbols freq)).length (by omega) (by omega)
  unfold buildTree
  simp only
  generalize mergeLoop (leafEntries 0 (seenSymbols freq)).length (leafEntries 0 (seenSymbols freq))
    (leafEntries 0 (seenSymbols freq)).length = res at *
  obtain ⟨q, n⟩ := res
  simp only at *
  obtain ⟨e, rfl⟩ := List.length_eq_one_iff.1 hlen.1
  have hn : n = 2 * (seenSymbols freq).length - 1 := by rw [hlen.2, hl]; omega
  obtain ⟨e', he', hi⟩ := hkeep.last (by simp)
  simp only [List.mem_singleton] at he'
  subst he'
  refine ⟨hkeep.full _ (by simp), hkeep.sums _ (by simp), ?_, hn, ?_, ?_⟩
  · simpa [popMin] using hkeep.leaves
  · simpa [popMin] using hkeep.indices
  · have : 2 * (seenSymbols freq).length - 2 = n - 1 := by omega
    rw [this]
    simpa [popMin] using hi

theorem mem_seenSymbols (freq : SymbolTable Word32) (p : Byte × Word32) :
    p ∈ seenSymbols freq ↔ symAt freq p.1 = p.2 ∧ p.2 ≠ 0 := by
  obtain ⟨s, f⟩ := p
  simp only [seenSymbols, List.mem_filter, List.mem_map, bne_iff_ne, ne_eq, Prod.mk.injEq]
  constructor
  · rintro ⟨⟨u, _, rfl, rfl⟩, h⟩
    exact ⟨rfl, h⟩
  · rintro ⟨h1, h2⟩
    exact ⟨⟨s, mem_allSymbols s, rfl, h1⟩, h2⟩

theorem seenSymbols_syms_sublist (freq : SymbolTable Word32) :
    ((seenSymbols freq).map Prod.fst).Sublist allSymbols := by
  have h : (seenSymbols freq).Sublist (allSymbols.map fun s => (s, symAt freq s)) := List.filter_sublist
  have := h.map Prod.fst
  simpa [List.map_map, Function.comp_def] using this

theorem seenSymbols_nodup (freq : SymbolTable Word32) : ((seenSymbols freq).map Prod.fst).Nodup :=
  allSymbols_nodup.sublist (seenSymbols_syms_sublist freq)

/-- At most 256 symbols are seen (R34). -/
theorem seenSymbols_length_le (freq : SymbolTable Word32) : (seenSymbols freq).length ≤ 256 := by
  have := (seenSymbols_syms_sublist freq).length_le
  rwa [List.length_map, allSymbols_length] at this

theorem seenSymbols_ne_nil (c : Context) (h : c.noneSeen = false) : seenSymbols c.freq ≠ [] := by
  intro hn
  have : c.noneSeen = true := by
    rw [noneSeen_iff]
    intro s
    by_contra hs
    have : (s, symAt c.freq s) ∈ seenSymbols c.freq := (mem_seenSymbols _ _).2 ⟨rfl, hs⟩
    rw [hn] at this
    simp at this
  rw [this] at h
  cases h

/-- In a tree whose frequencies sum up, the root's frequency is the sum over the leaves (R105). -/
theorem freq_eq_sum (t : Node) (h : t.sumsUp = true) : t.freq = (t.leaves.map Prod.snd).sum := by
  induction t with
  | absent => rfl
  | leaf i s f => simp [Node.freq, Node.leaves]
  | internal i l r f ihl ihr =>
    simp only [Node.sumsUp, Bool.and_eq_true, decide_eq_true_eq] at h
    simp only [Node.freq, Node.leaves, List.map_append, List.sum_append]
    rw [h.1.1, ihl h.1.2, ihr h.2]

theorem build_accepted (s : State) (h : acceptance .build s = .ok) :
    build s = { s with ctx := s.ctx.build, err := .ok } := by
  rw [build, issue_accepted h, complete_ok (run_modifyCtx _ s)]
  rfl

end Sys2Proof.Machine
end

