-- ==== Sys2Proof/Laws/Counter.lean ====
section
/-!
SUPPORT. Laws of COUNT: the scan in closed form, and what it leaves in FREQ and CLEN.
-/

namespace Sys2Proof.Machine

/-- The scan of whole bytes, from wherever the cursor stands (R90). -/
theorem countLoop_ok (bs : List Byte) (n : Nat) (s : State) (h : s.io.is.rest = bytesBits bs) (hn : bs.length ≤ n) :
    countLoop n s = .ok () { s with
      ctx := bs.foldl Context.countByte s.ctx
      io := { s.io with is := { s.io.is with pos := s.io.is.pos + 8 * bs.length } } } := by
  induction bs generalizing n s with
  | nil =>
    cases n with
    | zero => rfl
    | succ n =>
      have he : s.io.is.atEnd = true := (atEnd_iff_rest _).2 h
      rw [countLoop, bind_ok (run_atEnd s), run_ite, if_pos he, run_pure]
      rfl
  | cons b bs ih =>
    obtain ⟨n, rfl⟩ : ∃ m, n = m + 1 := ⟨n - 1, by simp only [List.length_cons] at hn; omega⟩
    rw [bytesBits_cons] at h
    have he : ¬ s.io.is.atEnd = true := by
      rw [atEnd_iff_rest, h]
      intro hnil
      have := congrArg List.length hnil
      simp [byteBits_length] at this
    have hb := run_read_ok (rdByte_ok s.io.is b _ h)
    rw [countLoop, bind_ok (run_atEnd s), run_ite, if_neg he, bind_ok hb, bind_ok (run_modifyCtx _ _), ih]
    · simp only [List.foldl_cons, List.length_cons]
      have : s.io.is.pos + 8 + 8 * bs.length = s.io.is.pos + 8 * (bs.length + 1) := by omega
      rw [this]
    · simp only
      rw [rest_advance, h, List.drop_left' (byteBits_length b)]
    · simp only [List.length_cons] at hn
      omega

theorem countBody_ok (s : State) :
    countBody s = .ok () { s with
      ctx := s.ctx.counted s.io.is.bytes
      io := { s.io with is := { s.io.is with pos := 8 * s.io.is.bytes.length } } } := by
  rw [countBody, bind_ok (run_rewind s), bind_ok (run_inputLength _), bind_ok (countLoop_ok s.io.is.bytes _ _ _ _)]
  · rw [run_modifyCtx]
    simp only [IStream.rewind, Nat.zero_add]
    rfl
  · simp [IStream.rewind, IStream.rest]
  · simp [IStream.rewind]

theorem count_accepted (s : State) (h : acceptance .count s = .ok) :
    count s = { s with
      ctx := s.ctx.counted s.io.is.bytes
      io := { s.io with is := { s.io.is with pos := 8 * s.io.is.bytes.length } }
      err := .ok } := by
  rw [count, issue_accepted h, complete_ok (countBody_ok s)]
  rfl

theorem countByte_freq (c : Context) (b u : Byte) :
    symAt (c.countByte b).freq u = symAt c.freq u + if u = b then 1 else 0 := by
  simp only [Context.countByte, symAt_symPut]
  split
  · rename_i h
    rw [h]
  · simp

theorem counted_freq (c : Context) (bs : List Byte) (u : Byte) :
    symAt (c.counted bs).freq u = symAt c.freq u + BitVec.ofNat 32 (bs.count u) := by
  have key : ∀ c : Context, symAt (bs.foldl Context.countByte c).freq u = symAt c.freq u + BitVec.ofNat 32 (bs.count u) := by
    induction bs with
    | nil => simp
    | cons b bs ih =>
      intro c
      rw [List.foldl_cons, ih, countByte_freq, List.count_cons]
      by_cases h : u = b
      · subst h
        simp only [if_true, beq_self_eq_true, BitVec.ofNat_add]
        rw [BitVec.add_assoc, BitVec.add_comm 1]
        rfl
      · have : ¬ (b == u) = true := by
          simp only [beq_iff_eq]
          exact fun e => h e.symm
        simp [h, this]
  exact key c

theorem counted_clen (c : Context) (bs : List Byte) :
    (c.counted bs).clen = c.clen + BitVec.ofNat 32 bs.length := by
  have key : ∀ c : Context, (bs.foldl Context.countByte c).clen = c.clen + BitVec.ofNat 32 bs.length := by
    induction bs with
    | nil => simp
    | cons b bs ih =>
      intro c
      rw [List.foldl_cons, ih]
      simp only [Context.countByte, List.length_cons, BitVec.ofNat_add]
      rw [BitVec.add_assoc, BitVec.add_comm 1]
      rfl
  exact key c

/-- COUNT writes FREQ, CLEN and PHASE and no other field of the context (R90). -/
theorem counted_others (c : Context) (bs : List Byte) :
    c.counted bs = { c with freq := (c.counted bs).freq, clen := (c.counted bs).clen, phase := .counted } := by
  have key : ∀ c : Context, bs.foldl Context.countByte c =
      { c with freq := (bs.foldl Context.countByte c).freq, clen := (bs.foldl Context.countByte c).clen } := by
    induction bs with
    | nil => intro c; rfl
    | cons b bs ih =>
      intro c
      rw [List.foldl_cons, ih]
      rfl
  simp only [Context.counted]
  rw [key c]

/-- The symbols seen are exactly the bytes of the input, for a clean table and an input no longer than
2^32 - 1 bytes (R92). -/
theorem counted_freq_zero_iff (bs : List Byte) (h : bs.length < 2 ^ 32) (u : Byte) :
    symAt (Context.clean.counted bs).freq u = 0 ↔ u ∉ bs := by
  have hc : bs.count u < 2 ^ 32 := Nat.lt_of_le_of_lt List.count_le_length h
  rw [counted_freq]
  simp only [Context.clean, symAt_replicate]
  rw [← List.count_eq_zero]
  constructor
  · intro he
    have := congrArg BitVec.toNat he
    rw [zero_add, BitVec.toNat_ofNat, Nat.mod_eq_of_lt hc] at this
    exact this
  · intro he
    simp [he]

end Sys2Proof.Machine
end

