-- ==== Sys2Proof/Laws/Header.lean ====
section
/-!
SUPPORT. Laws of WRHDR and RDHDR: the bytes written, what each form of header reads back as, and the errors a
header can raise.
-/

namespace Sys2Proof.Machine

/-! ### WRHDR -/

theorem wrhdrBody_ok (s : State) :
    wrhdrBody s = .ok () { s with
      ctx := { s.ctx with empty := decide (s.ctx.phase = .counted) || s.ctx.empty, phase := .hdrWritten }
      io := { s.io with os := s.io.os.wrBytes s.ctx.headerBytes } } := by
  have hform : writeForm s.ctx s = .ok () { s with
      ctx := { s.ctx with empty := decide (s.ctx.phase = .counted) || s.ctx.empty }
      io := { s.io with os := s.io.os.wrBytes s.ctx.headerBytes } } := by
    unfold writeForm Context.headerBytes
    by_cases h : s.ctx.phase = .counted
    · rw [run_ite, if_pos h, bind_ok (run_write _ s), run_modifyCtx, if_pos h]
      simp [h]
    · rw [run_ite, if_neg h, run_ite, if_neg h]
      cases hd : s.ctx.disable <;> simp [h, run_write]
  rw [wrhdrBody, bind_ok (run_ctx s), bind_ok hform, run_modifyCtx]

theorem wrhdr_accepted (s : State) (h : acceptance .wrhdr s = .ok) :
    wrhdr s = { s with
      ctx := { s.ctx with empty := decide (s.ctx.phase = .counted) || s.ctx.empty, phase := .hdrWritten }
      io := { s.io with os := s.io.os.wrBytes s.ctx.headerBytes }
      err := .ok } := by
  rw [wrhdr, issue_accepted h, complete_ok (wrhdrBody_ok s)]
  rfl

/-! ### RDHDR: what a header reads as -/

theorem rest_skip {is : IStream} {xs r : BitString} (n : Nat) (h : is.rest = xs ++ r) (hn : xs.length = n) :
    IStream.rest { is with pos := is.pos + n } = r := by
  rw [rest_advance, h, List.drop_left' hn]

theorem rdHeader_raw (is : IStream) (v : Word32) (r : BitString)
    (h : is.rest = bytesBits (Config.markerRaw :: u32Bytes v) ++ r) :
    rdHeader is = .ok (.raw v) { is with pos := is.pos + 40 } := by
  rw [bytesBits_cons, List.append_assoc] at h
  have h1 := rest_skip 8 h (byteBits_length _)
  rw [rdHeader, bind_ok (rdByte_ok is _ _ h), run_ite, if_pos rfl, bind_ok (rdU32_u32Bytes _ v r h1), run_pure]

theorem rdHeader_marker (is : IStream) (m : Byte) (r : BitString) (h : is.rest = byteBits m ++ r)
    (h1 : m ≠ Config.markerRaw) (h2 : m ≠ Config.markerHuff) :
    rdHeader is = .error .eMarker { is with pos := is.pos + 8 } := by
  rw [rdHeader, bind_ok (rdByte_ok is _ _ h), run_ite, if_neg h1, run_ite, if_neg h2, run_throw]

theorem rdHeader_huff (is : IStream) (r : BitString) (h : is.rest = byteBits Config.markerHuff ++ r) :
    rdHeader is = rdHuffmanHeader { is with pos := is.pos + 8 } := by
  rw [rdHeader, bind_ok (rdByte_ok is _ _ h), run_ite, if_neg (by decide), run_ite, if_pos rfl]

theorem rdHeader_empty (is : IStream) (r : BitString) (h : is.rest = bytesBits emptyForm ++ r) :
    rdHeader is = .ok .empty { is with pos := is.pos + 24 } := by
  have h0 : is.rest = byteBits Config.markerHuff ++ (bytesBits [0x00, 0x02] ++ r) := by
    rw [h, emptyForm, bytesBits_cons, List.append_assoc]
  have h1 := rest_skip 8 h0 (byteBits_length _)
  rw [rdHeader_huff is _ h0, rdHuffmanHeader, bind_ok (rdU16_ok _ _ _ r h1), run_ite, if_pos (by decide), run_pure]

theorem rdSymbols_ok (counts : List Byte) (L : Nat) (syms : List Byte) (is : IStream) (r : BitString)
    (hn : syms.length = countSum counts) (h : is.rest = bytesBits syms ++ r) :
    rdSymbols L counts is = .ok (bucketRecords L counts syms) { is with pos := is.pos + 8 * syms.length } := by
  induction counts generalizing L syms is with
  | nil =>
    simp only [countSum, List.map_nil, List.sum_nil, List.length_eq_zero_iff] at hn
    subst hn
    rfl
  | cons n counts ih =>
    simp only [countSum, List.map_cons, List.sum_cons] at hn
    have hsplit : syms = syms.take n.toNat ++ syms.drop n.toNat := (List.take_append_drop _ _).symm
    have ht : (syms.take n.toNat).length = n.toNat := by
      rw [List.length_take]
      omega
    have h1 : is.rest = bytesBits (syms.take n.toNat) ++ (bytesBits (syms.drop n.toNat) ++ r) := by
      rw [h, ← List.append_assoc, ← bytesBits_append, ← hsplit]
    have hr := rdBytes_ok _ is _ h1
    rw [ht] at hr
    have h2 := rest_skip (8 * n.toNat) h1 (by rw [bytesBits_length, ht])
    have hd : (syms.drop n.toNat).length = countSum counts := by
      rw [List.length_drop, hn, Nat.add_sub_cancel_left]
      rfl
    rw [rdSymbols, bind_ok hr, bind_ok (ih (L + 1) _ _ hd h2), run_pure, bucketRecords]
    have hlen : is.pos + 8 * n.toNat + 8 * (syms.drop n.toNat).length = is.pos + 8 * syms.length := by
      rw [List.length_drop]
      omega
    rw [hlen]

theorem bucketRecords_length (counts : List Byte) (L : Nat) (syms : List Byte) (hn : syms.length = countSum counts) :
    (bucketRecords L counts syms).length = countSum counts := by
  induction counts generalizing L syms with
  | nil => rfl
  | cons n counts ih =>
    simp only [countSum, List.map_cons, List.sum_cons] at hn ⊢
    rw [bucketRecords, List.length_append, ih _ _ (by rw [List.length_drop, hn, Nat.add_sub_cancel_left]; rfl)]
    simp only [List.length_map, List.length_take, countSum]
    omega

/-- Reading a full header whose buckets hold its symbols: the length check alone decides (R141 to
R145). -/
theorem rdHuffmanHeader_full (is : IStream) (hi lo : Byte) (clen : Word32) (counts syms : List Byte) (pad : Byte)
    (r : BitString) (h : is.rest = bytesBits (fullBody hi lo clen counts syms pad) ++ r)
    (h2 : 256 * hi.toNat + lo.toNat ≠ 2) (hc : counts.length = 16) (hs : syms.length = countSum counts)
    (ht : countSum counts ≤ 256) :
    rdHuffmanHeader is =
      if 23 + countSum counts = 256 * hi.toNat + lo.toNat then
        .ok (.full clen counts (bucketRecords 1 counts syms) pad) { is with pos := is.pos + 8 * (23 + countSum counts) }
      else .error .eHdrlen { is with pos := is.pos + 8 * (23 + countSum counts) } := by
  simp only [fullBody, bytesBits_append, List.append_assoc] at h
  have ha := hi.isLt
  have hb := lo.isLt
  have hv : (BitVec.ofNat 16 (256 * hi.toNat + lo.toNat)).toNat = 256 * hi.toNat + lo.toNat := by
    rw [BitVec.toNat_ofNat, Nat.mod_eq_of_lt (by omega)]
  have h1 := rest_skip 16 h (by rw [bytesBits_length]; rfl)
  have h3 := rest_skip 32 h1 (by rw [bytesBits_length]; rfl)
  have hr := rdBytes_ok counts _ _ h3
  rw [hc] at hr
  have h4 := rest_skip (8 * 16) h3 (by rw [bytesBits_length, hc])
  have hsy := rdSymbols_ok counts 1 syms _ _ hs h4
  have h5 := rest_skip (8 * syms.length) h4 (bytesBits_length _)
  have h5' : IStream.rest _ = byteBits pad ++ (bytesBits [] ++ r) := h5
  rw [rdHuffmanHeader, bind_ok (rdU16_ok is hi lo _ h), run_ite, if_neg (by rw [hv]; exact h2),
    bind_ok (rdU32_u32Bytes _ clen _ h1), bind_ok hr, run_ite,
    if_neg (by simp only [Config.symCap]; omega), bind_ok hsy, bind_ok (rdByte_ok _ pad _ h5'), run_ite,
    bucketRecords_length _ _ _ hs, hc, hv]
  have hpos : is.pos + 16 + 32 + 8 * 16 + 8 * syms.length + 8 = is.pos + 8 * (23 + countSum counts) := by omega
  have hcond : 2 + 4 + 16 + countSum counts + 1 = 23 + countSum counts := by omega
  simp only [run_throw, run_pure, hpos, hcond]
  by_cases he : 23 + countSum counts = 256 * hi.toNat + lo.toNat <;> simp [he]

theorem rdSymbols_eos (counts : List Byte) (L : Nat) (is : IStream) (h : is.rest.length < 8 * countSum counts) :
    rdSymbols L counts is = .error .eEos { is with pos := is.pos + is.rest.length } := by
  induction counts generalizing L is with
  | nil => simp [countSum] at h
  | cons n counts ih =>
    simp only [countSum, List.map_cons, List.sum_cons] at h ih
    rw [rdSymbols]
    by_cases hn : is.rest.length < 8 * n.toNat
    · rw [bind_error (rdBytes_eos _ _ hn)]
    · obtain ⟨bs, r, h1, h2⟩ : ∃ bs r, is.rest = bytesBits bs ++ r ∧ bs.length = n.toNat := by
        obtain ⟨bs, r, h1, h2⟩ := exists_bytes_prefix n.toNat is.rest (by omega)
        exact ⟨bs, r, h1, h2⟩
      have hr := rest_skip (8 * n.toNat) h1 (by rw [bytesBits_length, h2])
      have hl : is.rest.length = 8 * n.toNat + r.length := by rw [h1, List.length_append, bytesBits_length, h2]
      have hb := rdBytes_ok bs is r h1
      rw [h2] at hb
      rw [bind_ok hb, bind_error (ih (L + 1) _ (by rw [hr]; omega)), hr, hl, Nat.add_assoc]

/-- A Huffman header cut short after a length that is not the empty form's: E_EOS at the end of the input (R145,
R205). -/
theorem rdHuffmanHeader_eos (is : IStream) (hi lo : Byte) (r : BitString) (h : is.rest = bytesBits [hi, lo] ++ r)
    (h2 : 256 * hi.toNat + lo.toNat ≠ 2)
    (hr : r.length < 8 * 20 ∨ ∃ (clen : Word32) (counts : List Byte) (r' : BitString), counts.length = 16 ∧
      countSum counts ≤ 256 ∧ r = bytesBits (u32Bytes clen ++ counts) ++ r' ∧ r'.length < 8 * (countSum counts + 1)) :
    rdHuffmanHeader is = .error .eEos { is with pos := is.pos + is.rest.length } := by
  have ha := hi.isLt
  have hb := lo.isLt
  have hv : (BitVec.ofNat 16 (256 * hi.toNat + lo.toNat)).toNat = 256 * hi.toNat + lo.toNat := by
    rw [BitVec.toNat_ofNat, Nat.mod_eq_of_lt (by omega)]
  have h1 := rest_skip 16 h (by rw [bytesBits_length]; rfl)
  have hl : is.rest.length = 16 + r.length := by rw [h, List.length_append, bytesBits_length]; rfl
  rw [rdHuffmanHeader, bind_ok (rdU16_ok is hi lo _ h), run_ite, if_neg (by rw [hv]; exact h2), hl, ← Nat.add_assoc]
  -- the content length
  by_cases hc : r.length < 32
  · rw [bind_error (rdU32_eos _ (by rw [h1]; exact hc)), h1]
  · obtain ⟨cb, r1, hr1, hcl⟩ := exists_bytes_prefix 4 r (by omega)
    match cb, hcl with
    | [a, b, c, d], _ =>
      have hok := rdU32_ok { is with pos := is.pos + 16 } a b c d r1 (by rw [h1, hr1])
      have h3 := rest_skip 32 (h1.trans hr1) (by rw [bytesBits_length]; rfl)
      have hl1 : r.length = 32 + r1.length := by rw [hr1, List.length_append, bytesBits_length]; rfl
      rw [bind_ok hok, hl1, ← Nat.add_assoc]
      -- the counts
      by_cases hcc : r1.length < 128
      · rw [bind_error (rdBytes_eos 16 _ (by rw [h3]; exact hcc)), h3]
      · rcases hr with hr | ⟨clen, counts, r', hc16, ht, hr', hlt⟩
        · omega
        · have e1 : r1 = bytesBits counts ++ r' := by
            rw [bytesBits_append, List.append_assoc] at hr'
            have := hr1.symm.trans hr'
            exact (List.append_inj this (by simp [bytesBits_length, u32Bytes])).2
          have hbs := rdBytes_ok counts _ _ (h3.trans e1)
          rw [hc16] at hbs
          have h4 := rest_skip (8 * 16) (h3.trans e1) (by rw [bytesBits_length, hc16])
          have hl2 : r1.length = 8 * 16 + r'.length := by rw [e1, List.length_append, bytesBits_length, hc16]
          rw [bind_ok hbs, run_ite, if_neg (by simp only [Config.symCap]; omega), hl2, ← Nat.add_assoc]
          -- the symbols and the padding byte
          by_cases hs : r'.length < 8 * countSum counts
          · rw [bind_error (rdSymbols_eos counts 1 _ (by rw [h4]; exact hs)), h4]
          · obtain ⟨syms, r2, hr2, hsl⟩ := exists_bytes_prefix (countSum counts) r' (by omega)
            have hsy := rdSymbols_ok counts 1 syms _ _ hsl (h4.trans hr2)
            have h5 := rest_skip (8 * syms.length) (h4.trans hr2) (bytesBits_length _)
            have hl3 : r'.length = 8 * syms.length + r2.length := by rw [hr2, List.length_append, bytesBits_length]
            rw [bind_ok hsy, bind_error (rdByte_eos _ (by rw [h5]; omega)), h5, hl3, ← Nat.add_assoc]

/-- More than 256 symbols declared: E_TREE, before any symbol byte is read (R144). -/
theorem rdHuffmanHeader_capacity (is : IStream) (hi lo : Byte) (clen : Word32) (counts : List Byte) (r : BitString)
    (h : is.rest = bytesBits ([hi, lo] ++ (u32Bytes clen ++ counts)) ++ r)
    (h2 : 256 * hi.toNat + lo.toNat ≠ 2) (hc : counts.length = 16) (ht : 256 < countSum counts) :
    rdHuffmanHeader is = .error .eTree { is with pos := is.pos + 8 * 22 } := by
  simp only [bytesBits_append, List.append_assoc] at h
  have ha := hi.isLt
  have hb := lo.isLt
  have hv : (BitVec.ofNat 16 (256 * hi.toNat + lo.toNat)).toNat = 256 * hi.toNat + lo.toNat := by
    rw [BitVec.toNat_ofNat, Nat.mod_eq_of_lt (by omega)]
  have h1 := rest_skip 16 h (by rw [bytesBits_length]; rfl)
  have h3 := rest_skip 32 h1 (by rw [bytesBits_length]; rfl)
  have hr := rdBytes_ok counts _ _ h3
  rw [hc] at hr
  rw [rdHuffmanHeader, bind_ok (rdU16_ok is hi lo _ h), run_ite, if_neg (by rw [hv]; exact h2),
    bind_ok (rdU32_u32Bytes _ clen _ h1), bind_ok hr, run_ite, if_pos (show Config.symCap < countSum counts from ht),
    run_throw]

/-! ### RDHDR: errors and frame -/

/-- The errors a header read can raise after acceptance (R139, R205). -/
abbrev HeaderError (e : Res) : Prop := e = .eMarker ∨ e = .eHdrlen ∨ e = .eTree ∨ e = .eEos

theorem moves_header {α : Type} {r : Reader α} (h : Moves Forward OnlyEos r) : Moves Forward HeaderError r :=
  moves_mono h (fun _ _ => id) fun _ he => .inr (.inr (.inr he))

theorem rdSymbols_moves (counts : List Byte) (L : Nat) : Moves Forward OnlyEos (rdSymbols L counts) := by
  induction counts generalizing L with
  | nil => exact moves_pure forward_refl _
  | cons n counts ih =>
    exact moves_bind forward_trans (rdBytes_moves _) fun _ =>
      moves_bind forward_trans (ih _) fun _ => moves_pure forward_refl _

theorem rdHuffmanHeader_moves : Moves Forward HeaderError rdHuffmanHeader :=
  moves_bind forward_trans (moves_header rdU16_moves) fun _ =>
    moves_ite (moves_pure forward_refl _) <|
      moves_bind forward_trans (moves_header rdU32_moves) fun _ =>
        moves_bind forward_trans (moves_header (rdBytes_moves _)) fun _ =>
          moves_ite (moves_throw forward_refl (.inr (.inr (.inl rfl)))) <|
            moves_bind forward_trans (moves_header (rdSymbols_moves _ _)) fun _ =>
              moves_bind forward_trans (moves_header rdByte_moves) fun _ =>
                moves_ite (moves_throw forward_refl (.inr (.inl rfl))) (moves_pure forward_refl _)

theorem rdHeader_moves : Moves Forward HeaderError rdHeader :=
  moves_bind forward_trans (moves_header rdByte_moves) fun _ =>
    moves_ite
      (moves_bind forward_trans (moves_header rdU32_moves) fun _ => moves_pure forward_refl _)
      (moves_ite rdHuffmanHeader_moves (moves_throw forward_refl (.inl rfl)))

theorem rdhdrBody_moves : Moves Frame HeaderError rdhdrBody :=
  moves_bind frame_trans (moves_read rdHeader_moves) fun _ =>
    moves_bind frame_trans (moves_modifyCtx _) fun _ => moves_progress _

/-- RDHDR, accepted, on a header that reads well (R139, R147, R148). -/
theorem rdhdr_accepted (s : State) (h : acceptance .rdhdr s = .ok) {hd : Header} {is : IStream}
    (hr : rdHeader s.io.is = .ok hd is) :
    rdhdr s = { s with
      ctx := s.ctx.loadHeader hd
      io := { s.io with is := is, prog := s.io.prog ++ [Config.progHdrUnits] }
      err := .ok } := by
  rw [rdhdr, issue_accepted h]
  have : rdhdrBody s = .ok () { s with
      ctx := s.ctx.loadHeader hd
      io := { s.io with is := is, prog := s.io.prog ++ [Config.progHdrUnits] } } := by
    rw [rdhdrBody, bind_ok (run_read_ok hr), bind_ok (run_modifyCtx _ _), run_progress]
  rw [complete_ok this]
  rfl

/-- RDHDR, accepted, on a header that raises: error entry (R206). -/
theorem rdhdr_raises (s : State) (h : acceptance .rdhdr s = .ok) {e : Res} {is : IStream}
    (hr : rdHeader s.io.is = .error e is) :
    rdhdr s = { s with ctx := Context.clean, io := { s.io with is := is }, err := e } := by
  rw [rdhdr, issue_accepted h]
  have : rdhdrBody s = .error e { s with io := { s.io with is := is } } := by
    rw [rdhdrBody, bind_error (run_read_error hr)]
  rw [complete_error this]
  rfl

/-! ### The counts of a header -/

/-- LCNT as read from the 16 count bytes (R79). -/
theorem lenAt_lcntOf (counts : List Byte) (L : Nat) (hL : 1 ≤ L ∧ L ≤ 16) :
    lenAt (lcntOf counts) L = (counts.getD (L - 1) 0).setWidth 9 := by
  have key : ∀ (ls : List Nat) (t : LengthTable), (∀ x ∈ ls, 1 ≤ x ∧ x ≤ 16) →
      lenAt (ls.foldl (fun t L => lenPut t L ((counts.getD (L - 1) 0).setWidth 9)) t) L =
        if L ∈ ls then (counts.getD (L - 1) 0).setWidth 9 else lenAt t L := by
    intro ls
    induction ls with
    | nil => intro t _; simp
    | cons x ls ih =>
      intro t hx
      have hx1 := hx x (by simp)
      rw [List.foldl_cons, ih _ fun y hy => hx y (by simp [hy]), lenAt_lenPut _ _ _ _ hx1]
      by_cases hm : L ∈ ls
      · simp [hm]
      · by_cases hx2 : L = x
        · subst hx2
          simp
        · simp [hm, hx2]
  have hmem : L ∈ bucketLengths := by
    simp only [bucketLengths, List.mem_map, List.mem_range]
    exact ⟨L - 1, by omega, by omega⟩
  have hall : ∀ x ∈ bucketLengths, 1 ≤ x ∧ x ≤ 16 := by
    intro x hx
    simp only [bucketLengths, List.mem_map, List.mem_range] at hx
    obtain ⟨y, hy, rfl⟩ := hx
    omega
  rw [lcntOf, key _ _ hall, if_pos hmem]

end Sys2Proof.Machine
end

