-- ==== Sys2Proof/Laws/CodeGen.lean ====
section
/-!
SUPPORT. Laws of GENCODE: code lengths, canonical order, code values in closed form, rendering, padding.
-/

namespace Sys2Proof.Machine

/-! ### Code lengths (R111) -/

theorem leafDepths_syms (t : Node) (d : Nat) : (leafDepths t d).map Prod.fst = t.leaves.map Prod.fst := by
  induction t generalizing d with
  | absent => rfl
  | leaf i s f => rfl
  | internal i l r f ihl ihr => simp [leafDepths, Node.leaves, ihl, ihr]

theorem leafDepths_length (t : Node) (d : Nat) : (leafDepths t d).length = t.leaves.length := by
  have := congrArg List.length (leafDepths_syms t d)
  simpa using this

theorem full_leaves_pos (t : Node) (h : t.full = true) : 1 ≤ t.leaves.length := by
  induction t with
  | absent => simp [Node.full] at h
  | leaf i s f => simp [Node.leaves]
  | internal i l r f ihl ihr =>
    simp only [Node.full, Bool.and_eq_true] at h
    have := ihl h.1
    simp only [Node.leaves, List.length_append]
    omega

/-- A tree with n leaves and no one-child node has depth at most n - 1 (R34). -/
theorem leafDepths_bound (t : Node) (d : Nat) (h : t.full = true) :
    ∀ p ∈ leafDepths t d, d ≤ p.2 ∧ p.2 + 1 ≤ d + t.leaves.length := by
  induction t generalizing d with
  | absent => simp [Node.full] at h
  | leaf i s f =>
    intro p hp
    simp only [leafDepths, List.mem_singleton] at hp
    subst hp
    simp [Node.leaves]
  | internal i l r f ihl ihr =>
    simp only [Node.full, Bool.and_eq_true] at h
    have hl := full_leaves_pos l h.1
    have hr := full_leaves_pos r h.2
    intro p hp
    simp only [leafDepths, List.mem_append] at hp
    simp only [Node.leaves, List.length_append]
    rcases hp with hp | hp
    · have := ihl (d + 1) h.1 p hp
      omega
    · have := ihr (d + 1) h.2 p hp
      omega

/-- In a full tree the leaves fill the code space exactly: the sum of 2^(-depth) is 1 (R120, R127). -/
theorem leafDepths_kraft (t : Node) (d M : Nat) (h : t.full = true) (hM : ∀ p ∈ leafDepths t d, p.2 ≤ M) :
    ((leafDepths t d).map fun p => 2 ^ (M - p.2)).sum = 2 ^ (M - d) := by
  induction t generalizing d with
  | absent => simp [Node.full] at h
  | leaf i s f => simp [leafDepths]
  | internal i l r f ihl ihr =>
    simp only [Node.full, Bool.and_eq_true] at h
    simp only [leafDepths, List.mem_append] at hM
    have h1 := ihl (d + 1) h.1 fun p hp => hM p (.inl hp)
    have h2 := ihr (d + 1) h.2 fun p hp => hM p (.inr hp)
    have hne : leafDepths l (d + 1) ≠ [] := by
      intro h0
      have := leafDepths_length l (d + 1)
      have := full_leaves_pos l h.1
      rw [h0] at *
      simp at *
      omega
    obtain ⟨p, hp⟩ := List.exists_mem_of_ne_nil _ hne
    have hd := (leafDepths_bound l (d + 1) h.1 p hp).1
    have hd2 := hM p (.inl hp)
    have e : M - d = (M - (d + 1)) + 1 := by omega
    simp only [leafDepths, List.map_append, List.sum_append, h1, h2]
    rw [e, Nat.pow_succ]
    omega

/-! ### Canonical order (R112, R113) -/

theorem insertRecord_perm (r : SymLen) (rs : List SymLen) : (insertRecord r rs).Perm (r :: rs) := by
  induction rs with
  | nil => exact List.Perm.refl _
  | cons x xs ih =>
    simp only [insertRecord]
    split
    · exact List.Perm.refl _
    · exact (ih.cons x).trans (List.Perm.swap _ _ _)

theorem sortRecords_perm (rs : List SymLen) : (sortRecords rs).Perm rs := by
  induction rs with
  | nil => exact List.Perm.refl _
  | cons r rs ih => exact (insertRecord_perm r _).trans (ih.cons r)

theorem symlen_before_total {a b : SymLen} (h : a.before b = false) : b.before a = true := by
  simp only [SymLen.before, Bool.or_eq_false_iff, Bool.and_eq_false_iff, decide_eq_false_iff_not, Bool.or_eq_true,
    Bool.and_eq_true, decide_eq_true_eq] at *
  omega

theorem symlen_before_trans {a b c : SymLen} (h1 : a.before b = true) (h2 : b.before c = true) :
    a.before c = true := by
  simp only [SymLen.before, Bool.or_eq_true, Bool.and_eq_true, decide_eq_true_eq] at *
  omega

theorem insertRecord_sorted (r : SymLen) (rs : List SymLen) (h : rs.Pairwise fun a b => a.before b = true) :
    (insertRecord r rs).Pairwise fun a b => a.before b = true := by
  induction rs with
  | nil => simp [insertRecord]
  | cons x xs ih =>
    rw [List.pairwise_cons] at h
    simp only [insertRecord]
    split
    · rename_i hb
      rw [List.pairwise_cons]
      refine ⟨?_, List.pairwise_cons.2 h⟩
      intro y hy
      rcases List.mem_cons.1 hy with rfl | hy
      · exact hb
      · exact symlen_before_trans hb (h.1 y hy)
    · rename_i hb
      rw [List.pairwise_cons]
      refine ⟨?_, ih h.2⟩
      intro y hy
      rcases List.mem_cons.1 ((insertRecord_perm r xs).mem_iff.1 hy) with rfl | hy
      · exact symlen_before_total (by simpa using hb)
      · exact h.1 y hy

theorem sortRecords_sorted (rs : List SymLen) : (sortRecords rs).Pairwise fun a b => a.before b = true := by
  induction rs with
  | nil => exact List.Pairwise.nil
  | cons r rs ih => exact insertRecord_sorted r _ ih

/-- Sorted records with distinct symbols stand in strict canonical order (R112). -/
theorem sorted_canonical {rs : List SymLen} (h : rs.Pairwise fun a b => a.before b = true)
    (hn : (rs.map SymLen.sym).Nodup) : canonicalOrder rs := by
  have hn' : rs.Pairwise fun a b => a.sym ≠ b.sym := List.pairwise_map.1 hn
  refine (h.and hn').imp ?_
  rintro a b ⟨h1, h2⟩
  have hne : a.sym.toNat ≠ b.sym.toNat := fun e => h2 (BitVec.eq_of_toNat_eq e)
  simp only [SymLen.before, Bool.or_eq_true, Bool.and_eq_true, decide_eq_true_eq] at h1
  omega

theorem canonical_ascends {rs : List SymLen} (h : canonicalOrder rs) : lengthsAscend rs :=
  h.imp fun {a b} hab => by omega

/-- What GENCODE leaves in SYMLEN for a full tree of at most 256 leaves with distinct symbols (R111 to
R113, R118). -/
structure SymlenSpec (t : Node) (rs : List SymLen) : Prop where
  canonical : canonicalOrder rs
  syms : (rs.map SymLen.sym).Perm (t.leaves.map Prod.fst)
  lenPos : ∀ r ∈ rs, 1 ≤ r.len.toNat
  many : 2 ≤ t.leaves.length → rs.Perm ((leafDepths t 0).map toRecord) ∧ ∀ p ∈ leafDepths t 0, (toRecord p).len.toNat = p.2
  single : ∀ i s f, t = .leaf i s f → rs = [{ sym := s, len := 1 }]
  kraft : ∀ M, (∀ r ∈ rs, r.len.toNat ≤ M) → 1 ≤ M → (rs.map fun r => 2 ^ (M - r.len.toNat)).sum ≤ 2 ^ M

theorem symlenOf_spec (t : Node) (h : t.full = true) (hl : t.leaves.length ≤ 256)
    (hn : (t.leaves.map Prod.fst).Nodup) : SymlenSpec t (symlenOf t) := by
  have hperm := sortRecords_perm ((leafDepths t 0).map toRecord)
  have hsort := sortRecords_sorted ((leafDepths t 0).map toRecord)
  have hsyms : ((sortRecords ((leafDepths t 0).map toRecord)).map SymLen.sym).Perm (t.leaves.map Prod.fst) := by
    have := hperm.map SymLen.sym
    rw [List.map_map] at this
    have e : (SymLen.sym ∘ toRecord) = Prod.fst := rfl
    rw [e, leafDepths_syms] at this
    exact this
  cases t with
  | absent => simp [Node.full] at h
  | leaf i s f =>
    have e : symlenOf (.leaf i s f) = [{ sym := s, len := 1 }] := by
      simp [symlenOf, leafDepths, toRecord, sortRecords, insertRecord, normaliseSingle]
    rw [e]
    constructor
    · exact List.pairwise_singleton _ _
    · simp [Node.leaves]
    · simp
    · intro h2
      simp [Node.leaves] at h2
    · intro i' s' f' he
      cases he
      rfl
    · intro M hM h1
      simp only [List.map_cons, List.map_nil, List.sum_cons, List.sum_nil, Nat.add_zero]
      exact Nat.pow_le_pow_right (by omega) (Nat.sub_le _ _)
  | internal i l r f =>
    have hf := h
    simp only [Node.full, Bool.and_eq_true] at hf
    have hpl := full_leaves_pos l hf.1
    have hpr := full_leaves_pos r hf.2
    have hlen2 : 2 ≤ (Node.internal i l r f).leaves.length := by
      simp only [Node.leaves, List.length_append]
      omega
    have hnorm : symlenOf (.internal i l r f) = sortRecords ((leafDepths (.internal i l r f) 0).map toRecord) := by
      have hlen := hperm.length_eq
      rw [List.length_map, leafDepths_length] at hlen
      unfold symlenOf
      generalize sortRecords ((leafDepths (.internal i l r f) 0).map toRecord) = rs at *
      match rs with
      | [] => rfl
      | [x] => simp only [List.length_singleton] at hlen; omega
      | x :: y :: zs => rfl
    have hdepth : ∀ p ∈ leafDepths (.internal i l r f) 0, 1 ≤ p.2 ∧ p.2 ≤ 255 := by
      intro p hp
      have hb := leafDepths_bound _ 0 h p hp
      simp only [leafDepths, List.mem_append] at hp
      rcases hp with hp | hp
      · have := leafDepths_bound l 1 hf.1 p hp
        omega
      · have := leafDepths_bound r 1 hf.2 p hp
        omega
    have hto : ∀ p ∈ leafDepths (.internal i l r f) 0, (toRecord p).len.toNat = p.2 := by
      intro p hp
      have := hdepth p hp
      simp only [toRecord, BitVec.toNat_ofNat]
      omega
    rw [hnorm]
    constructor
    · exact sorted_canonical hsort (hsyms.nodup_iff.2 hn)
    · exact hsyms
    · intro r' hr'
      obtain ⟨p, hp, rfl⟩ := List.mem_map.1 (hperm.mem_iff.1 hr')
      rw [hto p hp]
      exact (hdepth p hp).1
    · exact fun _ => ⟨hperm, hto⟩
    · intro i' s' f' he
      cases he
    · intro M hM h1
      have e1 : ((sortRecords ((leafDepths (.internal i l r f) 0).map toRecord)).map fun r => 2 ^ (M - r.len.toNat)).sum
          = (((leafDepths (.internal i l r f) 0).map toRecord).map fun r => 2 ^ (M - r.len.toNat)).sum :=
        (hperm.map _).sum_eq
      rw [e1, List.map_map]
      have e2 : (leafDepths (.internal i l r f) 0).map ((fun r => 2 ^ (M - r.len.toNat)) ∘ toRecord)
          = (leafDepths (.internal i l r f) 0).map fun p => 2 ^ (M - p.2) := by
        apply List.map_congr_left
        intro p hp
        simp only [Function.comp_apply, hto p hp]
      rw [e2, leafDepths_kraft _ 0 M h]
      · simp
      · intro p hp
        rw [← hto p hp]
        exact hM _ (hperm.mem_iff.2 (List.mem_map_of_mem hp))

/-! ### Code values (R114, R115) -/

theorem canonicalValue_append (as bs : List SymLen) (l : Nat) :
    canonicalValue (as ++ bs) l = canonicalValue as l + canonicalValue bs l := by
  simp [canonicalValue]

theorem canonicalValue_scale (rs : List SymLen) (l l' : Nat) (h : ∀ r ∈ rs, r.len.toNat ≤ l) (hl : l ≤ l') :
    canonicalValue rs l' = canonicalValue rs l * 2 ^ (l' - l) := by
  induction rs with
  | nil => simp [canonicalValue]
  | cons r rs ih =>
    have hr := h r (by simp)
    have := ih fun x hx => h x (by simp [hx])
    simp only [canonicalValue, List.map_cons, List.sum_cons] at this ⊢
    rw [this, Nat.add_mul, ← Nat.pow_add]
    congr 2
    omega

theorem codeValuesFrom_getElem? (rs pre : List SymLen) (v l : Nat) (hpre : ∀ r ∈ pre, r.len.toNat ≤ l)
    (hv : v + 1 = canonicalValue pre l) (hrs : ∀ r ∈ rs, l ≤ r.len.toNat) (ha : lengthsAscend rs) (i : Nat) :
    (codeValuesFrom v l rs)[i]? = (rs[i]?).map fun r => (r, canonicalValue (pre ++ rs.take i) r.len.toNat) := by
  induction rs generalizing pre v l i with
  | nil => simp [codeValuesFrom]
  | cons r rs ih =>
    have hlr := hrs r (by simp)
    have hval : (v + 1) * 2 ^ (r.len.toNat - l) = canonicalValue pre r.len.toNat := by
      rw [hv, canonicalValue_scale pre l _ hpre hlr]
    obtain ⟨ha1, ha2⟩ := List.pairwise_cons.1 ha
    cases i with
    | zero => simp [codeValuesFrom, hval]
    | succ i =>
      simp only [codeValuesFrom, List.getElem?_cons_succ, List.take_succ_cons]
      rw [hval]
      rw [ih (pre ++ [r]) _ _ _ _ ha1 ha2]
      · simp
      · intro x hx
        rcases List.mem_append.1 hx with hx | hx
        · exact (hpre x hx).trans hlr
        · simp only [List.mem_singleton] at hx
          rw [hx]
      · rw [canonicalValue_append]
        simp [canonicalValue]

/-- The code value of every record, in closed form (R115, R120 item 2). -/
theorem codeValues_getElem? (rs : List SymLen) (ha : lengthsAscend rs) (i : Nat) :
    (codeValues rs)[i]? = (rs[i]?).map fun r => (r, canonicalValue (rs.take i) r.len.toNat) := by
  cases rs with
  | nil => simp [codeValues]
  | cons r rs =>
    obtain ⟨ha1, ha2⟩ := List.pairwise_cons.1 ha
    cases i with
    | zero => simp [codeValues, canonicalValue]
    | succ i =>
      simp only [codeValues, List.getElem?_cons_succ, List.take_succ_cons]
      rw [codeValuesFrom_getElem? rs [r] 0 r.len.toNat (by simp) (by simp [canonicalValue]) ha1 ha2]
      rfl

/-! ### Rendering (R116) -/

theorem foldl_symPut_other (ps : List (SymLen × Nat)) (t : SymbolTable BitString) (s : Byte)
    (h : ∀ p ∈ ps, p.1.sym ≠ s) :
    symAt (ps.foldl (fun t p => symPut t p.1.sym (bin p.2 p.1.len.toNat)) t) s = symAt t s := by
  induction ps generalizing t with
  | nil => rfl
  | cons p ps ih =>
    rw [List.foldl_cons, ih _ fun q hq => h q (by simp [hq]), symAt_symPut, if_neg fun e => h p (by simp) e.symm]

theorem foldl_symPut_mem (ps : List (SymLen × Nat)) (t : SymbolTable BitString) (p : SymLen × Nat) (hp : p ∈ ps)
    (hn : (ps.map fun q => q.1.sym).Nodup) :
    symAt (ps.foldl (fun t p => symPut t p.1.sym (bin p.2 p.1.len.toNat)) t) p.1.sym = bin p.2 p.1.len.toNat := by
  induction ps generalizing t with
  | nil => simp at hp
  | cons q ps ih =>
    rw [List.map_cons, List.nodup_cons] at hn
    rw [List.foldl_cons]
    rcases List.mem_cons.1 hp with rfl | hp
    · rw [foldl_symPut_other, symAt_symPut, if_pos rfl]
      intro x hx he
      exact hn.1 (List.mem_map.2 ⟨x, hx, he⟩)
    · exact ih _ hp hn.2

theorem codeValues_map_fst (rs : List SymLen) : (codeValues rs).map Prod.fst = rs := by
  have key : ∀ (rs : List SymLen) (v l : Nat), (codeValuesFrom v l rs).map Prod.fst = rs := by
    intro rs
    induction rs with
    | nil => intro v l; rfl
    | cons r rs ih => intro v l; simp [codeValuesFrom, ih]
  cases rs with
  | nil => rfl
  | cons r rs => simp [codeValues, key]

/-- CODE after GENCODE: the canonical code of every record's symbol (R116). -/
theorem assignCodes_record (code : SymbolTable BitString) (rs : List SymLen) (ha : lengthsAscend rs)
    (hn : (rs.map SymLen.sym).Nodup) (i : Nat) (r : SymLen) (hi : rs[i]? = some r) :
    symAt (assignCodes code rs) r.sym = canonicalCode rs i := by
  have hv := codeValues_getElem? rs ha i
  rw [hi] at hv
  have hmem := List.mem_of_getElem? hv
  have hnd : ((codeValues rs).map fun q => q.1.sym).Nodup := by
    have : (codeValues rs).map (fun q => q.1.sym) = rs.map SymLen.sym := by
      conv => rhs; rw [← codeValues_map_fst rs]
      rw [List.map_map]
      rfl
    rw [this]
    exact hn
  have := foldl_symPut_mem (codeValues rs) code _ hmem hnd
  simpa [assignCodes, canonicalCode, hi] using this

/-- CODE of a symbol with no record is left as it was (R116). -/
theorem assignCodes_other (code : SymbolTable BitString) (rs : List SymLen) (s : Byte) (h : ∀ r ∈ rs, r.sym ≠ s) :
    symAt (assignCodes code rs) s = symAt code s := by
  apply foldl_symPut_other
  intro p hp
  have : p.1 ∈ (codeValues rs).map Prod.fst := List.mem_map_of_mem hp
  rw [codeValues_map_fst] at this
  exact h _ this

theorem canonicalCode_length (rs : List SymLen) (i : Nat) (r : SymLen) (hi : rs[i]? = some r) :
    (canonicalCode rs i).length = r.len.toNat := by
  simp [canonicalCode, hi, bin_length]

/-! ### Prefix freedom (R120) -/

theorem bin_take (v n k : Nat) (h : k ≤ n) : (bin v n).take k = bin (v / 2 ^ (n - k)) k := by
  apply List.ext_getElem?
  intro i
  by_cases hi : i < k
  · rw [List.getElem?_take, if_pos hi, bin_getElem? _ _ _ (by omega), bin_getElem? _ _ _ hi, Nat.testBit_div_two_pow]
    congr 2
    omega
  · rw [List.getElem?_eq_none (by simp [bin_length]; omega), List.getElem?_eq_none (by simp [bin_length]; omega)]

theorem bin_injective {v w n : Nat} (hv : v < 2 ^ n) (hw : w < 2 ^ n) (h : bin v n = bin w n) : v = w := by
  have := congrArg (readNat 0) h
  rw [readNat_bin, readNat_bin, Nat.mod_eq_of_lt hv, Nat.mod_eq_of_lt hw] at this
  omega

/-- The value of a later record is past the whole range of an earlier one's code (R120). -/
theorem canonicalValue_step (rs : List SymLen) (ha : lengthsAscend rs) (i j : Nat) (hij : i < j) (a b : SymLen)
    (hi : rs[i]? = some a) (hj : rs[j]? = some b) :
    a.len.toNat ≤ b.len.toNat ∧
    (canonicalValue (rs.take i) a.len.toNat + 1) * 2 ^ (b.len.toNat - a.len.toNat)
      ≤ canonicalValue (rs.take j) b.len.toNat := by
  obtain ⟨hil, hia⟩ := List.getElem?_eq_some_iff.1 hi
  obtain ⟨hjl, hjb⟩ := List.getElem?_eq_some_iff.1 hj
  have hab : a.len.toNat ≤ b.len.toNat := by
    have := List.pairwise_iff_getElem.1 ha i j hil hjl hij
    rwa [hia, hjb] at this
  refine ⟨hab, ?_⟩
  have hbefore : ∀ r ∈ rs.take i, r.len.toNat ≤ a.len.toNat := by
    intro r hr
    obtain ⟨k, hk, rfl⟩ := List.mem_iff_getElem.1 hr
    rw [List.length_take] at hk
    rw [List.getElem_take]
    have := List.pairwise_iff_getElem.1 ha k i (by omega) hil (by omega)
    rwa [hia] at this
  have hsplit : rs.take j = rs.take i ++ (a :: (rs.drop (i + 1)).take (j - (i + 1))) := by
    have h1 : rs.take j = (rs.take i ++ rs.drop i).take j := by rw [List.take_append_drop]
    have hti : (rs.take i).length = i := by rw [List.length_take]; omega
    have hd : rs.drop i = a :: rs.drop (i + 1) := by rw [List.drop_eq_getElem_cons hil, hia]
    have hji : j - i = (j - (i + 1)) + 1 := by omega
    rw [h1, List.take_append, hti, List.take_of_length_le (by omega), hd, hji, List.take_succ_cons]
  rw [hsplit, canonicalValue_append, canonicalValue_scale (rs.take i) a.len.toNat b.len.toNat hbefore hab,
    Nat.add_mul]
  simp only [canonicalValue, List.map_cons, List.sum_cons, Nat.one_mul]
  omega

/-- A code value fits its length whenever the code space is not over-full (R120 item 2). -/
theorem canonicalValue_fits (rs : List SymLen) (ha : lengthsAscend rs)
    (hk : ∀ M, (∀ r ∈ rs, r.len.toNat ≤ M) → 1 ≤ M → (rs.map fun r => 2 ^ (M - r.len.toNat)).sum ≤ 2 ^ M)
    (i : Nat) (r : SymLen) (hi : rs[i]? = some r) :
    canonicalValue (rs.take i) r.len.toNat < 2 ^ r.len.toNat := by
  obtain ⟨hil, hir⟩ := List.getElem?_eq_some_iff.1 hi
  have hbefore : ∀ x ∈ rs.take (i + 1), x.len.toNat ≤ r.len.toNat := by
    intro x hx
    obtain ⟨k, hk', rfl⟩ := List.mem_iff_getElem.1 hx
    rw [List.length_take] at hk'
    rw [List.getElem_take]
    by_cases hki : k = i
    · subst hki
      rw [hir]
    · have := List.pairwise_iff_getElem.1 ha k i (by omega) hil (by omega)
      rwa [hir] at this
  have hall : ∀ x ∈ rs, x.len.toNat ≤ 256 := fun x _ => Nat.le_of_lt x.len.isLt
  have hsum := hk 256 hall (by omega)
  have htake : rs.take (i + 1) = rs.take i ++ [r] := by
    rw [List.take_add_one, hi]
    rfl
  have hle : (((rs.take (i + 1)).map fun r => 2 ^ (256 - r.len.toNat))).sum ≤ 2 ^ 256 := by
    refine Nat.le_trans ?_ hsum
    have hs : ((rs.take (i + 1)).map fun r : SymLen => 2 ^ (256 - r.len.toNat)).sum
        + ((rs.drop (i + 1)).map fun r : SymLen => 2 ^ (256 - r.len.toNat)).sum
        = (rs.map fun r : SymLen => 2 ^ (256 - r.len.toNat)).sum := by
      rw [← List.sum_append, ← List.map_append, List.take_append_drop]
    omega
  have hscale := canonicalValue_scale (rs.take (i + 1)) r.len.toNat 256 hbefore (hall r (List.mem_of_getElem? hi))
  have hle' : canonicalValue (rs.take (i + 1)) 256 ≤ 2 ^ 256 := hle
  have hlen := hall r (List.mem_of_getElem? hi)
  have hpow : 2 ^ 256 = 2 ^ r.len.toNat * 2 ^ (256 - r.len.toNat) := by
    rw [← Nat.pow_add]
    congr 1
    omega
  rw [hscale, hpow] at hle'
  have hfin := Nat.le_of_mul_le_mul_right hle' (Nat.two_pow_pos _)
  rw [htake, canonicalValue_append] at hfin
  have h1 : canonicalValue [r] r.len.toNat = 1 := by simp [canonicalValue]
  omega

/-- No code is a prefix of another (R120 item 3). -/
theorem canonicalCode_prefix_free (rs : List SymLen) (ha : lengthsAscend rs)
    (hk : ∀ M, (∀ r ∈ rs, r.len.toNat ≤ M) → 1 ≤ M → (rs.map fun r => 2 ^ (M - r.len.toNat)).sum ≤ 2 ^ M)
    (i j : Nat) (hi : i < rs.length) (hj : j < rs.length) (hij : i ≠ j) :
    ¬ canonicalCode rs i <+: canonicalCode rs j := by
  have ei := List.getElem?_eq_getElem hi
  have ej := List.getElem?_eq_getElem hj
  have fi := canonicalValue_fits rs ha hk i _ ei
  have fj := canonicalValue_fits rs ha hk j _ ej
  intro hp
  have hl := hp.length_le
  rw [canonicalCode_length _ _ _ ei, canonicalCode_length _ _ _ ej] at hl
  have htake := List.prefix_iff_eq_take.1 hp
  rw [canonicalCode_length _ _ _ ei] at htake
  simp only [canonicalCode, ei, ej] at htake
  rw [bin_take _ _ _ hl] at htake
  have hdiv : canonicalValue (rs.take j) rs[j].len.toNat / 2 ^ (rs[j].len.toNat - rs[i].len.toNat)
      < 2 ^ rs[i].len.toNat := by
    rw [Nat.div_lt_iff_lt_mul (Nat.two_pow_pos _), ← Nat.pow_add]
    have : rs[i].len.toNat + (rs[j].len.toNat - rs[i].len.toNat) = rs[j].len.toNat := by omega
    rw [this]
    exact fj
  have heq := bin_injective fi hdiv htake
  rcases Nat.lt_or_gt_of_ne hij with h | h
  · have hs := (canonicalValue_step rs ha i j h _ _ ei ej).2
    have := (Nat.le_div_iff_mul_le (Nat.two_pow_pos _)).2 hs
    omega
  · obtain ⟨h1, h2⟩ := canonicalValue_step rs ha j i h _ _ ej ei
    have h0 : rs[j].len.toNat = rs[i].len.toNat := by omega
    rw [h0] at h2 heq
    simp only [Nat.sub_self, Nat.pow_zero, Nat.mul_one, Nat.div_one] at h2 heq
    omega

/-! ### Padding (R117) -/

theorem paddingSum_eq (freq : SymbolTable Word32) (rs : List SymLen) : paddingSum freq rs = codeBits freq rs % 8 := by
  have key : ∀ (rs : List SymLen) (acc : Nat), acc < 8 →
      rs.foldl (fun acc r => (acc + (r.len.toNat * (symAt freq r.sym).toNat) % 8) % 8) acc
        = (acc + codeBits freq rs) % 8 := by
    intro rs
    induction rs with
    | nil => intro acc h; simp [codeBits, Nat.mod_eq_of_lt h]
    | cons r rs ih =>
      intro acc h
      rw [List.foldl_cons, ih _ (Nat.mod_lt _ (by omega))]
      simp only [codeBits, List.map_cons, List.sum_cons]
      omega
  have := key rs 0 (by omega)
  rw [Nat.zero_add] at this
  exact this

/-- PAD is 0 to 7 and brings the content to a whole number of bytes (R117). -/
theorem paddingOf_spec (freq : SymbolTable Word32) (rs : List SymLen) :
    (paddingOf freq rs).toNat ≤ 7 ∧ ((paddingOf freq rs).toNat + codeBits freq rs) % 8 = 0 := by
  simp only [paddingOf, paddingSum_eq, BitVec.toNat_ofNat]
  omega

theorem gencode_accepted (s : State) (h : acceptance .gencode s = .ok) :
    gencode s = { s with ctx := s.ctx.gencode, err := .ok } := by
  rw [gencode, issue_accepted h, complete_ok (run_modifyCtx _ s)]
  rfl

end Sys2Proof.Machine
end

