-- ==== Sys2Proof/Laws/Histogram.lean ====
section
/-!
SUPPORT. Laws of HIST and POLICY: the buckets count records by length, MAXLEN is the largest length, and what
DISABLE = 0 guarantees.
-/

namespace Sys2Proof.Machine

theorem countLength_cons (r : SymLen) (rs : List SymLen) (L : Nat) :
    countLength (r :: rs) L = (if r.len.toNat = L then 1 else 0) + countLength rs L := by
  simp only [countLength, List.countP_cons, decide_eq_true_eq]
  omega

theorem foldl_hist_lcnt (rs : List SymLen) (acc : LengthTable × BitVec 8) (L : Nat) (hL : 1 ≤ L ∧ L ≤ 16) :
    lenAt (rs.foldl histRecord acc).1 L = lenAt acc.1 L + BitVec.ofNat 9 (countLength rs L) := by
  induction rs generalizing acc with
  | nil => simp [countLength]
  | cons r rs ih =>
    rw [List.foldl_cons, ih, countLength_cons]
    simp only [histRecord]
    by_cases hr : 1 ≤ r.len.toNat ∧ r.len.toNat ≤ 16
    · rw [if_pos hr, lenAt_lenPut _ _ _ _ hr]
      by_cases he : L = r.len.toNat
      · rw [if_pos he, if_pos he.symm, ← he, BitVec.ofNat_add, BitVec.add_assoc]
        rfl
      · rw [if_neg he, if_neg fun h => he h.symm, Nat.zero_add]
    · rw [if_neg hr]
      have he : ¬ r.len.toNat = L := by
        intro h
        exact hr (h ▸ hL)
      rw [if_neg he, Nat.zero_add]

/-- After HIST each bucket holds the number of records of its length (R125). -/
theorem histogram_lcnt (rs : List SymLen) (L : Nat) (hL : 1 ≤ L ∧ L ≤ 16) :
    lenAt (histogram rs).1 L = BitVec.ofNat 9 (countLength rs L) := by
  rw [histogram, foldl_hist_lcnt rs _ L hL, lenAt_replicate _ _ hL, zero_add]

theorem foldl_hist_maxlen (rs : List SymLen) (acc : LengthTable × BitVec 8) :
    acc.2.toNat ≤ (rs.foldl histRecord acc).2.toNat ∧ (∀ r ∈ rs, r.len.toNat ≤ (rs.foldl histRecord acc).2.toNat) ∧
    ((rs.foldl histRecord acc).2 = acc.2 ∨ ∃ r ∈ rs, (rs.foldl histRecord acc).2 = r.len) := by
  induction rs generalizing acc with
  | nil => simp
  | cons r rs ih =>
    rw [List.foldl_cons]
    obtain ⟨h1, h2, h3⟩ := ih (histRecord acc r)
    have hb : acc.2.toNat ≤ (histRecord acc r).2.toNat ∧ r.len.toNat ≤ (histRecord acc r).2.toNat := by
      simp only [histRecord]
      split <;> omega
    refine ⟨by omega, ?_, ?_⟩
    · intro x hx
      rcases List.mem_cons.1 hx with rfl | hx
      · omega
      · exact h2 x hx
    · rcases h3 with h3 | ⟨x, hx, h3⟩
      · rw [h3]
        simp only [histRecord]
        split
        · exact .inr ⟨r, by simp, rfl⟩
        · exact .inl rfl
      · exact .inr ⟨x, by simp [hx], h3⟩

/-- MAXLEN bounds every length, and it is one of them, or 0 when there is no record (R125). -/
theorem histogram_maxlen (rs : List SymLen) :
    (∀ r ∈ rs, r.len.toNat ≤ (histogram rs).2.toNat) ∧
    ((histogram rs).2 = 0 ∨ ∃ r ∈ rs, (histogram rs).2 = r.len) :=
  ⟨(foldl_hist_maxlen rs _).2.1, (foldl_hist_maxlen rs _).2.2⟩

theorem countLength_le (rs : List SymLen) (L : Nat) : countLength rs L ≤ rs.length := List.countP_le_length

/-- When every length lies in 1..16 the sixteen counts sum to the number of records (R128). -/
theorem countLength_sum (rs : List SymLen) (h : ∀ r ∈ rs, 1 ≤ r.len.toNat ∧ r.len.toNat ≤ 16) :
    (bucketLengths.map fun L => countLength rs L).sum = rs.length := by
  induction rs with
  | nil => decide
  | cons r rs ih =>
    have hr := h r (by simp)
    have key : ∀ n, 1 ≤ n → n ≤ 16 →
        (bucketLengths.map fun L => (if n = L then 1 else 0 : Nat)).sum = 1 := by
      intro n h1 h2
      interval_cases n <;> decide
    have hs : ∀ (f g : Nat → Nat) (ls : List Nat),
        (ls.map fun L => f L + g L).sum = (ls.map f).sum + (ls.map g).sum := by
      intro f g ls
      induction ls with
      | nil => rfl
      | cons x xs ihx => simp only [List.map_cons, List.sum_cons, ihx]; omega
    simp only [countLength_cons, List.length_cons]
    rw [hs, key _ hr.1 hr.2, ih fun x hx => h x (by simp [hx])]
    omega

/-- A count of 256 needs all 256 records at one length (R128). -/
theorem countLength_256 (rs : List SymLen) (h : rs.length ≤ 256) (L : Nat) (hc : 256 ≤ countLength rs L) :
    rs.length = 256 ∧ ∀ r ∈ rs, r.len.toNat = L := by
  have h1 := countLength_le rs L
  refine ⟨by omega, ?_⟩
  have h2 : rs.countP (fun r => decide (r.len.toNat = L)) = rs.length := by
    have : countLength rs L = rs.length := by omega
    exact this
  intro r hr
  have := List.countP_eq_length.1 h2 r hr
  simpa using this

/-- What DISABLE = 0 says of the context POLICY leaves: no length above 16, and every count fits a byte
(R128). -/
theorem policy_enabled (c : Context) (hn : c.nsym.toNat = c.symlen.length) (hl : c.symlen.length ≤ 256)
    (hlc : c.lcnt = (histogram c.records).1) (hm : c.maxlen = (histogram c.records).2)
    (hd : c.policy.disable = false) :
    (∀ r ∈ c.symlen, r.len.toNat ≤ 16) ∧ ∀ L, 1 ≤ L → L ≤ 16 → (lenAt c.lcnt L).toNat = countLength c.symlen L ∧
      countLength c.symlen L ≤ 255 := by
  have hrec : c.records = c.symlen := by
    rw [Context.records, hn, List.take_length]
  rw [hrec] at hlc hm
  simp only [Context.policy, Bool.or_eq_false_iff] at hd
  obtain ⟨h1, h2⟩ := hd
  have h1 : c.maxlen.toNat ≤ 16 := by
    have := of_decide_eq_false h1
    exact Nat.not_lt.1 this
  have hmax := (histogram_maxlen c.symlen).1
  rw [← hm] at hmax
  refine ⟨fun r hr => (hmax r hr).trans h1, ?_⟩
  intro L hL1 hL2
  have hle : countLength c.symlen L ≤ 255 := by
    by_contra hc
    obtain ⟨h3, h4⟩ := countLength_256 c.symlen hl L (by omega)
    have hall : c.allEqual = true := by
      have e0 : c.symlen[0]? = some (c.symlen[0]'(by omega)) := List.getElem?_eq_getElem (by omega)
      have e1 : c.symlen[255]? = some (c.symlen[255]'(by omega)) := List.getElem?_eq_getElem (by omega)
      have hn256 : c.nsym = 256 := by
        apply BitVec.eq_of_toNat_eq
        rw [hn, h3]
        rfl
      simp only [Context.allEqual, hn256, decide_true, e0, e1, Option.map_some, Bool.true_and, decide_eq_true_eq,
        Option.some.injEq]
      apply BitVec.eq_of_toNat_eq
      rw [h4 _ (List.getElem_mem _), h4 _ (List.getElem_mem _)]
    rw [hall] at h2
    cases h2
  refine ⟨?_, hle⟩
  rw [hlc, histogram_lcnt _ _ ⟨hL1, hL2⟩, BitVec.toNat_ofNat, Nat.mod_eq_of_lt (by omega)]

theorem hist_accepted (s : State) (h : acceptance .hist s = .ok) :
    hist s = { s with ctx := s.ctx.hist, err := .ok } := by
  rw [hist, issue_accepted h, complete_ok (run_modifyCtx _ _)]
  rfl

theorem policy_accepted (s : State) (h : acceptance .policy s = .ok) :
    policy s = { s with ctx := s.ctx.policy, err := .ok } := by
  rw [policy, issue_accepted h, complete_ok (run_modifyCtx _ _)]
  rfl

end Sys2Proof.Machine
end

