-- ==== Sys2Proof/Laws/Rebuild.lean ====
section
/-!
SUPPORT. Laws of REBUILD: where a symbol is placed, when placing fails, and the tree that placing all records in
ascending length order makes (46_bit_decoder.md R162 to R165).
-/

namespace Sys2Proof.Machine

/-! ### Free places at one depth -/

/-- The places at depth `k` below a child slot that no leaf occupies or shadows. -/
def Node.free : Nat → Node → Nat
  | k, .absent => 2 ^ k
  | _, .leaf _ _ _ => 0
  | 0, .internal _ _ _ _ => 0
  | k + 1, .internal _ l r _ => l.free k + r.free k

/-- No internal node lies at depth `k` or below. -/
def Node.bounded : Nat → Node → Prop
  | _, .absent => True
  | _, .leaf _ _ _ => True
  | 0, .internal _ _ _ _ => False
  | k + 1, .internal _ l r _ => l.bounded k ∧ r.bounded k

/-- The places in use at depth `k` are the leftmost ones: nothing stands right of a free place. -/
def Node.packed : Nat → Node → Prop
  | _, .absent => True
  | _, .leaf _ _ _ => True
  | 0, .internal _ _ _ _ => True
  | k + 1, .internal _ l r _ => l.packed k ∧ r.packed k ∧ (0 < l.free k → r = .absent)

theorem free_le (t : Node) (k : Nat) : t.free k ≤ 2 ^ k := by
  induction t generalizing k with
  | absent => cases k <;> simp [Node.free]
  | leaf => cases k <;> simp [Node.free]
  | internal i l r f hl hr =>
    cases k with
    | zero => simp [Node.free]
    | succ k =>
      have h1 := hl k
      have h2 := hr k
      simp only [Node.free, Nat.pow_succ]
      omega

/-- One level further down every free place is two. -/
theorem free_deeper (t : Node) (k : Nat) (h : t.bounded k) :
    t.free (k + 1) = 2 * t.free k ∧ t.bounded (k + 1) ∧ (t.packed k → t.packed (k + 1)) := by
  induction t generalizing k with
  | absent => cases k <;> simp [Node.free, Node.bounded, Node.packed, Nat.pow_succ, Nat.mul_comm]
  | leaf => cases k <;> simp [Node.free, Node.bounded, Node.packed]
  | internal i l r f hl hr =>
    cases k with
    | zero => exact h.elim
    | succ k =>
      obtain ⟨h1, h2, h3⟩ := hl k h.1
      obtain ⟨h4, h5, h6⟩ := hr k h.2
      refine ⟨?_, ⟨h2, h5⟩, ?_⟩
      · simp only [Node.free] at *
        omega
      · intro hp
        exact ⟨h3 hp.1, h6 hp.2.1, fun hf => hp.2.2 (by omega)⟩

theorem free_deeper_many (t : Node) (k m : Nat) (hkm : k ≤ m) (h : t.bounded k) (hp : t.packed k) :
    t.free m = 2 ^ (m - k) * t.free k ∧ t.bounded m ∧ t.packed m := by
  induction m, hkm using Nat.le_induction with
  | base => simp [h, hp]
  | succ m hm ih =>
    obtain ⟨h1, h2, h3⟩ := ih
    obtain ⟨h4, h5, h6⟩ := free_deeper t m h2
    refine ⟨?_, h5, h6 h3⟩
    rw [h4, h1, Nat.succ_sub hm, Nat.pow_succ]
    ring

/-- A tree is full exactly when no place is free. -/
theorem full_iff_free (t : Node) (k : Nat) (h : t.bounded k) : t.full = true ↔ t.free k = 0 := by
  induction t generalizing k with
  | absent => cases k <;> simp [Node.free, Node.full]
  | leaf => cases k <;> simp [Node.free, Node.full]
  | internal i l r f hl hr =>
    cases k with
    | zero => exact h.elim
    | succ k =>
      simp only [Node.full, Bool.and_eq_true, hl k h.1, hr k h.2, Node.free]
      omega

/-! ### Placing one symbol -/

theorem follow_cons (t : Node) (b : Bool) (p : BitString) : t.follow (b :: p) = (t.child b).follow p := rfl

theorem follow_absent (p : BitString) : Node.absent.follow p = .absent := by
  induction p with
  | nil => rfl
  | cons b p ih => exact ih

theorem follow_append (t : Node) (p q : BitString) : t.follow (p ++ q) = (t.follow p).follow q := by
  simp [Node.follow]

theorem bin_add_pow (u k : Nat) (h : u < 2 ^ k) : bin (2 ^ k + u) (k + 1) = true :: bin u k := by
  rw [bin]
  congr 1
  · rw [Nat.testBit_two_pow_add_eq, Nat.testBit_lt_two_pow h]
    rfl
  · have hlow : ∀ n, n ≤ k → bin (2 ^ k + u) n = bin u n := by
      intro n
      induction n with
      | zero => intro _; rfl
      | succ n ih =>
        intro hn
        rw [bin, bin, ih (by omega), Nat.testBit_two_pow_add_gt (by omega)]
    exact hlow k (Nat.le_refl k)

theorem bin_lt_pow (u k : Nat) (h : u < 2 ^ k) : bin u (k + 1) = false :: bin u k := by
  rw [bin, Nat.testBit_lt_two_pow h]

/-- What placing symbol `s` at depth `k` below the slot `c` makes of it, `n` being the next arena index: the
leaf stands in the leftmost place that was free, every leaf that was there stays where it was, and the
arena indices go up one by one (R162, R165). -/
structure Placed (s : Byte) (k : Nat) (c : Node) (n : Nat) (t : Node) (m : Nat) : Prop where
  isInternal : ∃ i l r f, t = .internal i l r f
  bounded : t.bounded k
  packed : t.packed k
  free : t.free k + 1 = c.free k
  path : t.follow (bin (2 ^ k - c.free k) k) = .leaf (BitVec.ofNat 9 (m - 1)) s 0
  keeps : ∀ p i u f, c.follow p = .leaf i u f → t.follow p = .leaf i u f
  indices : t.indices.Perm (c.indices ++ (List.range' n (m - n)).map (BitVec.ofNat 9))
  leaves : t.leaves.Perm ((s, 0) :: c.leaves)
  grows : n < m

/-- What `insertSymbol` and `descend` do with a slot: refuse when no place is free, otherwise place. -/
def Places (s : Byte) (k : Nat) (c : Node) (n : Nat) (res : Option (Node × Nat)) : Prop :=
  (c.free k = 0 ∧ res = none) ∨ (0 < c.free k ∧ ∃ t m, res = some (t, m) ∧ Placed s k c n t m)

theorem emptyInternal_slot (k n : Nat) :
    (emptyInternal n).bounded (k + 1) ∧ (emptyInternal n).packed (k + 1) ∧ (emptyInternal n).free (k + 1) = 2 ^ (k + 1) := by
  refine ⟨by simp [emptyInternal, Node.bounded], by simp [emptyInternal, Node.packed], ?_⟩
  simp only [emptyInternal, Node.free, Nat.pow_succ]
  omega

theorem descend_places (s : Byte) (k : Nat)
    (ih : ∀ i l r f n, (Node.internal i l r f).bounded (k + 1) → (Node.internal i l r f).packed (k + 1) →
      Places s (k + 1) (.internal i l r f) n (insertSymbol s (k + 1) (.internal i l r f) n))
    (c : Node) (n : Nat) (hb : c.bounded (k + 1)) (hp : c.packed (k + 1)) :
    Places s (k + 1) c n (descend (insertSymbol s (k + 1)) c n) := by
  cases c with
  | leaf i u f => exact .inl ⟨rfl, rfl⟩
  | internal i l r f => exact ih i l r f n hb hp
  | absent =>
    obtain ⟨h1, h2, h3⟩ := emptyInternal_slot k n
    have h4 := ih _ _ _ _ (n + 1) h1 h2
    have hpos : 0 < 2 ^ (k + 1) := Nat.two_pow_pos _
    rcases h4 with ⟨h5, _⟩ | ⟨_, t, m, h6, h7⟩
    · have : (emptyInternal n).free (k + 1) = 0 := h5
      omega
    · have hc : (Node.absent).free (k + 1) = 2 ^ (k + 1) := rfl
      refine .inr ⟨by rw [hc]; exact hpos, t, m, h6, h7.isInternal, h7.bounded, h7.packed, ?_, ?_, ?_, ?_, ?_, ?_⟩
      · rw [hc, ← h3]
        exact h7.free
      · have h8 := h7.path
        rw [show (Node.internal (BitVec.ofNat 9 n) .absent .absent 0).free (k + 1) = 2 ^ (k + 1) from h3] at h8
        rw [hc]
        exact h8
      · intro p i u f h
        rw [follow_absent] at h
        cases h
      · have hi := h7.indices
        have hg := h7.grows
        have : m - n = (m - (n + 1)) + 1 := by omega
        rw [this, List.range'_succ]
        simpa [Node.indices] using hi
      · simpa [emptyInternal, Node.leaves] using h7.leaves
      · have := h7.grows
        omega

theorem insertSymbol_places (s : Byte) (k : Nat) :
    ∀ i l r f n, (Node.internal i l r f).bounded (k + 1) → (Node.internal i l r f).packed (k + 1) →
      Places s (k + 1) (.internal i l r f) n (insertSymbol s (k + 1) (.internal i l r f) n) := by
  induction k with
  | zero =>
    intro i l r f n hb hp
    obtain ⟨hbl, hbr⟩ := hb
    obtain ⟨_, _, hp3⟩ := hp
    have hslot : ∀ c : Node, c.bounded 0 → c = .absent ∨ ∃ i u f, c = .leaf i u f := by
      intro c hc
      cases c with
      | absent => exact .inl rfl
      | leaf i u f => exact .inr ⟨i, u, f, rfl⟩
      | internal => exact hc.elim
    rcases hslot l hbl with rfl | ⟨i1, u1, f1, rfl⟩
    · obtain rfl : r = .absent := hp3 (by simp [Node.free])
      refine .inr ⟨by simp [Node.free], .internal i (.leaf (BitVec.ofNat 9 n) s 0) .absent f, n + 1, by simp [insertSymbol], ⟨_, _, _, _, rfl⟩, ?_, ?_, ?_, ?_, ?_, ?_, ?_, by omega⟩
      · simp [Node.bounded]
      · simp [Node.packed]
      · simp [Node.free]
      · simp [Node.free, bin, Node.follow, Node.child]
      · intro p j u g h
        cases p with
        | nil => cases h
        | cons b p =>
          rw [follow_cons] at h
          cases b <;> simp [Node.child, follow_absent] at h
      · simp [Node.indices]
      · simp [Node.leaves]
    · rcases hslot r hbr with rfl | ⟨i2, u2, f2, rfl⟩
      · refine .inr ⟨by simp [Node.free], .internal i (.leaf i1 u1 f1) (.leaf (BitVec.ofNat 9 n) s 0) f, n + 1, by simp [insertSymbol], ⟨_, _, _, _, rfl⟩, ?_, ?_, ?_, ?_, ?_, ?_, ?_, by omega⟩
        · simp [Node.bounded]
        · simp [Node.packed, Node.free]
        · simp [Node.free]
        · simp [Node.free, bin, Node.follow, Node.child]
        · intro p j u g h
          cases p with
          | nil => cases h
          | cons b p =>
            rw [follow_cons] at h ⊢
            cases b with
            | false => exact h
            | true => simp [Node.child, follow_absent] at h
        · simp [Node.indices]
        · simp only [Node.leaves]
          exact List.Perm.swap _ _ _
      · exact .inl ⟨by simp [Node.free], by simp [insertSymbol]⟩
  | succ k ih =>
    intro i l r f n hb hp
    obtain ⟨hbl, hbr⟩ := hb
    obtain ⟨hpl, hpr, hpa⟩ := hp
    have hfree : (Node.internal i l r f).free (k + 1 + 1) = l.free (k + 1) + r.free (k + 1) := rfl
    have hlle := free_le l (k + 1)
    have hrle := free_le r (k + 1)
    have hpow : 2 ^ (k + 1 + 1) = 2 ^ (k + 1) + 2 ^ (k + 1) := by rw [Nat.pow_succ]; omega
    rcases descend_places s k ih l n hbl hpl with ⟨hl0, hnone⟩ | ⟨hlpos, l', m, hsome, hpl'⟩
    · rcases descend_places s k ih r n hbr hpr with ⟨hr0, hnone2⟩ | ⟨hrpos, r', m, hsome, hpr'⟩
      · exact .inl ⟨by omega, by simp only [insertSymbol, hnone, hnone2]⟩
      · refine .inr ⟨by omega, .internal i l r' f, m, by simp only [insertSymbol, hnone, hsome], ⟨_, _, _, _, rfl⟩,
          ⟨hbl, hpr'.bounded⟩, ⟨hpl, hpr'.packed, fun h => by omega⟩, ?_, ?_, ?_, ?_, ?_, hpr'.grows⟩
        · have := hpr'.free
          simp only [Node.free] at *
          omega
        · have hu : 2 ^ (k + 1) - r.free (k + 1) < 2 ^ (k + 1) := by
            have := Nat.two_pow_pos (k + 1)
            omega
          have hv : 2 ^ (k + 1 + 1) - (Node.internal i l r f).free (k + 1 + 1)
              = 2 ^ (k + 1) + (2 ^ (k + 1) - r.free (k + 1)) := by omega
          rw [hv, bin_add_pow _ _ hu, follow_cons]
          exact hpr'.path
        · intro p j u g h
          cases p with
          | nil => cases h
          | cons b p =>
            rw [follow_cons] at h ⊢
            cases b with
            | false => exact h
            | true => exact hpr'.keeps p j u g h
        · have := hpr'.indices
          simp only [Node.indices, List.cons_append, List.append_assoc]
          exact ((List.Perm.refl _).append this).cons i
        · simp only [Node.leaves]
          exact ((List.Perm.refl _).append hpr'.leaves).trans List.perm_middle
    · have hra := hpa hlpos
      refine .inr ⟨by omega, .internal i l' r f, m, by simp only [insertSymbol, hsome], ⟨_, _, _, _, rfl⟩,
          ⟨hpl'.bounded, hbr⟩, ⟨hpl'.packed, hpr, fun _ => hra⟩, ?_, ?_, ?_, ?_, ?_, hpl'.grows⟩
      · have := hpl'.free
        simp only [Node.free] at *
        omega
      · have hrf : r.free (k + 1) = 2 ^ (k + 1) := by rw [hra]; rfl
        have hu : 2 ^ (k + 1) - l.free (k + 1) < 2 ^ (k + 1) := by
          have := Nat.two_pow_pos (k + 1)
          omega
        have hv : 2 ^ (k + 1 + 1) - (Node.internal i l r f).free (k + 1 + 1) = 2 ^ (k + 1) - l.free (k + 1) := by omega
        rw [hv, bin_lt_pow _ _ hu, follow_cons]
        exact hpl'.path
      · intro p j u g h
        cases p with
        | nil => cases h
        | cons b p =>
          rw [follow_cons] at h ⊢
          cases b with
          | false => exact hpl'.keeps p j u g h
          | true => exact h
      · have := hpl'.indices
        simp only [Node.indices, List.cons_append]
        refine List.Perm.cons i ?_
        refine (this.append_right _).trans ?_
        rw [List.append_assoc, List.append_assoc]
        exact (List.Perm.refl _).append List.perm_append_comm
      · simp only [Node.leaves]
        exact hpl'.leaves.append_right _

/-! ### Placing all records -/

/-- The tree after the records `pre` have been placed, seen at depth `k`: what is in use is the code space
of the records, and each record's leaf stands at the end of its canonical code (R165). -/
structure PlacedAll (pre : List SymLen) (k : Nat) (t : Node) (n : Nat) : Prop where
  isInternal : ∃ i l r f, t = .internal i l r f
  bounded : t.bounded k
  packed : t.packed k
  short : ∀ r ∈ pre, r.len.toNat ≤ k
  free : t.free k + canonicalValue pre k = 2 ^ k
  paths : ∀ i r, pre[i]? = some r → ∃ j, t.follow (canonicalCode pre i) = .leaf j r.sym 0
  leaves : t.leaves.Perm (pre.map fun r => (r.sym, 0))
  indices : t.indices.Perm ((List.range n).map (BitVec.ofNat 9))

theorem placedAll_start (k : Nat) : PlacedAll [] (k + 1) (emptyInternal 0) 1 := by
  obtain ⟨h1, h2, h3⟩ := emptyInternal_slot k 0
  refine ⟨⟨_, _, _, _, rfl⟩, h1, h2, by simp, ?_, by simp, by simp [emptyInternal, Node.leaves], ?_⟩
  · rw [h3]
    simp [canonicalValue]
  · simp [emptyInternal, Node.indices]

theorem placedAll_deeper {pre : List SymLen} {k m n : Nat} {t : Node} (hkm : k ≤ m) (h : PlacedAll pre k t n) :
    PlacedAll pre m t n := by
  obtain ⟨h1, h2, h3⟩ := free_deeper_many t k m hkm h.bounded h.packed
  refine ⟨h.isInternal, h2, h3, fun r hr => (h.short r hr).trans hkm, ?_, h.paths, h.leaves, h.indices⟩
  rw [canonicalValue_scale pre k m h.short hkm, h1]
  have hp : 2 ^ m = 2 ^ (m - k) * 2 ^ k := by rw [← Nat.pow_add]; congr 1; omega
  rw [hp, ← h.free]
  ring

theorem canonicalCode_append (pre rs : List SymLen) (i : Nat) (h : i < pre.length) :
    canonicalCode (pre ++ rs) i = canonicalCode pre i := by
  simp only [canonicalCode]
  rw [List.getElem?_append_left h, List.take_append_of_le_length (Nat.le_of_lt h)]

theorem canonicalCode_snoc (pre : List SymLen) (r : SymLen) :
    canonicalCode (pre ++ [r]) pre.length = bin (canonicalValue pre r.len.toNat) r.len.toNat := by
  simp [canonicalCode]

/-- Placing the next record: it fits exactly when the code space used so far leaves room (R163). -/
theorem placedAll_step {pre : List SymLen} {k n : Nat} {t : Node} (r : SymLen) (h : PlacedAll pre k t n)
    (hk : k ≤ r.len.toNat) (h1 : 1 ≤ r.len.toNat) :
    (canonicalValue pre r.len.toNat = 2 ^ r.len.toNat ∧ insertSymbol r.sym r.len.toNat t n = none) ∨
    (∃ t' m, insertSymbol r.sym r.len.toNat t n = some (t', m) ∧ PlacedAll (pre ++ [r]) r.len.toNat t' m ∧ n < m) := by
  have hd := placedAll_deeper hk h
  obtain ⟨i, l, rt, f, rfl⟩ := h.isInternal
  obtain ⟨d, hL⟩ : ∃ d, r.len.toNat = d + 1 := ⟨r.len.toNat - 1, by omega⟩
  rw [hL] at hd ⊢
  have hfree := hd.free
  rcases insertSymbol_places r.sym d i l rt f n hd.bounded hd.packed with ⟨h2, h3⟩ | ⟨h2, t', m, h3, h4⟩
  · exact .inl ⟨by omega, h3⟩
  · refine .inr ⟨t', m, h3, ⟨h4.isInternal, h4.bounded, h4.packed, ?_, ?_, ?_, ?_, ?_⟩, h4.grows⟩
    · intro x hx
      rcases List.mem_append.1 hx with hx | hx
      · exact hd.short x hx
      · rw [List.mem_singleton.1 hx, hL]
    · rw [canonicalValue_append]
      have h5 := h4.free
      simp only [canonicalValue, List.map_cons, List.map_nil, List.sum_cons, List.sum_nil, hL, Nat.sub_self,
        Nat.pow_zero] at *
      omega
    · intro j x hj
      by_cases hlt : j < pre.length
      · rw [List.getElem?_append_left hlt] at hj
        rw [canonicalCode_append _ _ _ hlt]
        obtain ⟨a, ha⟩ := hd.paths j x hj
        exact ⟨a, h4.keeps _ _ _ _ ha⟩
      · have hle : j < (pre ++ [r]).length := (List.getElem?_eq_some_iff.1 hj).1
        simp only [List.length_append, List.length_singleton] at hle
        obtain rfl : j = pre.length := by omega
        simp only [List.getElem?_concat_length, Option.some.injEq] at hj
        subst hj
        rw [canonicalCode_snoc, hL]
        have hv : canonicalValue pre (d + 1) = 2 ^ (d + 1) - (Node.internal i l rt f).free (d + 1) := by omega
        rw [hv]
        exact ⟨_, h4.path⟩
    · rw [List.map_append]
      refine h4.leaves.trans ?_
      refine ((hd.leaves).cons _).trans ?_
      exact (List.perm_append_singleton _ _).symm
    · refine h4.indices.trans ?_
      refine (hd.indices.append_right _).trans ?_
      rw [← List.map_append, List.range_eq_range', List.range_eq_range']
      have hg := h4.grows
      have : List.range' 0 n ++ List.range' n (m - n) = List.range' 0 m := by
        have := @List.range'_append 0 n (m - n) 1
        simp only [Nat.one_mul, Nat.zero_add] at this
        rw [this]
        congr 1
        omega
      rw [this]

/-- Placing all records with no limit on the arena. -/
def placeRecords : List SymLen → Node → Nat → Option (Node × Nat)
  | [], t, n => some (t, n)
  | r :: rs, t, n => (insertSymbol r.sym r.len.toNat t n).bind fun p => placeRecords rs p.1 p.2

/-- Records in ascending length order either all find a place, or they over-fill the code space (R163). -/
theorem placeRecords_spec (rs : List SymLen) (M : Nat) :
    ∀ (pre : List SymLen) (k n : Nat) (t : Node), PlacedAll pre k t n → lengthsAscend rs →
      (∀ r ∈ rs, k ≤ r.len.toNat ∧ 1 ≤ r.len.toNat ∧ r.len.toNat ≤ M) → k ≤ M →
      (∃ t' m, placeRecords rs t n = some (t', m) ∧ PlacedAll (pre ++ rs) M t' m ∧ n ≤ m) ∨
      (placeRecords rs t n = none ∧ 2 ^ M < canonicalValue (pre ++ rs) M) := by
  induction rs with
  | nil =>
    intro pre k n t h _ _ hkM
    refine .inl ⟨t, n, rfl, ?_, Nat.le_refl n⟩
    rw [List.append_nil]
    exact placedAll_deeper hkM h
  | cons r rs ih =>
    intro pre k n t h ha hl hkM
    obtain ⟨h1, h2, h3⟩ := hl r (by simp)
    have ha' := List.pairwise_cons.1 ha
    rcases placedAll_step r h h1 h2 with ⟨h4, h5⟩ | ⟨t', m, h4, h5, h6⟩
    · refine .inr ⟨by simp [placeRecords, h5], ?_⟩
      have hd := placedAll_deeper h1 h
      rw [canonicalValue_append, canonicalValue_scale pre r.len.toNat M hd.short h3, h4, ← Nat.pow_add]
      have e : r.len.toNat + (M - r.len.toNat) = M := by omega
      have hpos := Nat.two_pow_pos (M - r.len.toNat)
      rw [e]
      simp only [canonicalValue, List.map_cons, List.sum_cons]
      omega
    · have := ih (pre ++ [r]) r.len.toNat m t' h5 ha'.2
        (fun x hx => ⟨ha'.1 x hx, (hl x (by simp [hx])).2⟩) h3
      rw [List.append_assoc, List.singleton_append] at this
      rcases this with ⟨t'', m', h7, h8, h9⟩ | ⟨h7, h8⟩
      · exact .inl ⟨t'', m', by simp [placeRecords, h4, h7], h8, by omega⟩
      · exact .inr ⟨by simp [placeRecords, h4, h7], h8⟩

/-- The arena limit stops only a placing that would end beyond it (R18, R163). -/
theorem placeAll_some {rs : List SymLen} {t t' : Node} {n m : Nat} (h : placeAll rs t n = some (t', m)) :
    placeRecords rs t n = some (t', m) ∧ (n ≤ 511 → m ≤ 511) := by
  induction rs generalizing t n with
  | nil =>
    simp only [placeAll, Option.some.injEq, Prod.mk.injEq] at h
    obtain ⟨rfl, rfl⟩ := h
    exact ⟨rfl, id⟩
  | cons r rs ih =>
    simp only [placeAll] at h
    cases hi : insertSymbol r.sym r.len.toNat t n with
    | none => simp [hi] at h
    | some p =>
      obtain ⟨t1, n1⟩ := p
      simp only [hi] at h
      split at h
      · cases h
      · rename_i hc
        obtain ⟨h1, h2⟩ := ih h
        refine ⟨by simp [placeRecords, hi, h1], fun _ => h2 ?_⟩
        simp only [Config.nodeCap] at hc
        omega

/-- Within the arena limit both placings agree. -/
theorem placeAll_of_placeRecords (rs : List SymLen) (M : Nat) :
    ∀ (pre : List SymLen) (k n : Nat) (t : Node), PlacedAll pre k t n → lengthsAscend rs →
      (∀ r ∈ rs, k ≤ r.len.toNat ∧ 1 ≤ r.len.toNat ∧ r.len.toNat ≤ M) → k ≤ M →
      ∀ t' m, placeRecords rs t n = some (t', m) → m ≤ 511 → placeAll rs t n = some (t', m) := by
  induction rs with
  | nil =>
    intro pre k n t _ _ _ _ t' m h _
    exact h
  | cons r rs ih =>
    intro pre k n t h ha hl hkM t' m hp hm
    obtain ⟨h1, h2, h3⟩ := hl r (by simp)
    have ha' := List.pairwise_cons.1 ha
    rcases placedAll_step r h h1 h2 with ⟨_, h5⟩ | ⟨t1, m1, h4, h5, _⟩
    · simp [placeRecords, h5] at hp
    · simp only [placeRecords, h4, Option.bind_some] at hp
      have hl' : ∀ x ∈ rs, r.len.toNat ≤ x.len.toNat ∧ 1 ≤ x.len.toNat ∧ x.len.toNat ≤ M :=
        fun x hx => ⟨ha'.1 x hx, (hl x (by simp [hx])).2⟩
      have hle : m1 ≤ m := by
        rcases placeRecords_spec rs M _ _ _ _ h5 ha'.2 hl' h3 with ⟨t2, m2, h7, _, h9⟩ | ⟨h7, _⟩
        · rw [h7] at hp
          cases hp
          exact h9
        · rw [h7] at hp
          cases hp
      have := ih _ _ _ _ h5 ha'.2 hl' h3 t' m hp hm
      simp only [placeAll, h4, Config.nodeCap, this]
      rw [if_neg (by omega)]

/-- Placing a symbol keeps the root's arena index (R161). -/
theorem insertSymbol_index (s : Byte) (k : Nat) (t : Node) (n : Nat) {t' : Node} {m : Nat}
    (h : insertSymbol s k t n = some (t', m)) : t'.index = t.index := by
  match k, t, h with
  | 1, .internal i l r f, h =>
    simp only [insertSymbol] at h
    split at h
    · cases h
      rfl
    · split at h
      · cases h
        rfl
      · cases h
  | k + 2, .internal i l r f, h =>
    simp only [insertSymbol] at h
    split at h
    · cases h
      rfl
    · split at h
      · cases h
        rfl
      · cases h

theorem placeAll_index (rs : List SymLen) : ∀ (t : Node) (n : Nat) {t' : Node} {m : Nat},
    placeAll rs t n = some (t', m) → t'.index = t.index := by
  induction rs with
  | nil =>
    intro t n t' m h
    cases h
    rfl
  | cons r rs ih =>
    intro t n t' m h
    simp only [placeAll] at h
    split at h
    · cases h
    · rename_i t1 n1 h1
      split at h
      · cases h
      · rw [ih _ _ h, insertSymbol_index _ _ _ _ h1]

/-- The rebuilt tree's root is node 0 (R18, R161). -/
theorem rebuildTree_index (c : Context) {t : Node} {n : Nat} (h : rebuildTree c = some (t, n)) : t.index = some 0 := by
  simp only [rebuildTree] at h
  split at h
  · cases h
  · rename_i t1 n1 h1
    split at h
    · cases h
      exact placeAll_index _ _ _ h1
    · cases h

/-- A tree with two children under every internal node has one internal node less than leaves. -/
theorem full_indices_length (t : Node) (h : t.full = true) : t.indices.length + 1 = 2 * t.leaves.length := by
  induction t with
  | absent => simp [Node.full] at h
  | leaf => rfl
  | internal i l r f hl hr =>
    simp only [Node.full, Bool.and_eq_true] at h
    have h1 := hl h.1
    have h2 := hr h.2
    simp only [Node.indices, Node.leaves, List.length_cons, List.length_append]
    omega

theorem decodable_records {c : Context} (h : c.decodable) : c.records = c.symlen := by
  rw [Context.records, h.count, List.take_length]

theorem singleSymbol_iff {c : Context} (h : c.decodable) :
    (decide (c.nsym = 1) && decide ((c.symlen[0]?).map SymLen.len = some 1)) = true ↔ c.singleSymbol := by
  simp only [Bool.and_eq_true, decide_eq_true_eq]
  constructor
  · rintro ⟨h1, h2⟩
    have hl : c.symlen.length = 1 := by
      rw [← h.count, h1]
      rfl
    obtain ⟨r, hr⟩ := List.length_eq_one_iff.1 hl
    rw [hr] at h2
    simp only [List.getElem?_cons_zero, Option.map_some, Option.some.injEq] at h2
    exact ⟨r.sym, by rw [hr, ← h2]⟩
  · rintro ⟨s, hs⟩
    refine ⟨?_, by simp [hs]⟩
    apply BitVec.eq_of_toNat_eq
    rw [h.count, hs]
    rfl

/-- REBUILD fails unless the code space is exactly full or the sequence is the exempt one, and then it
makes a tree in which the leaf of each record stands at the end of its canonical code (R160 to
R165). -/
theorem rebuildTree_spec (c : Context) (h : c.decodable) :
    (rebuildTree c = none ∧ codeSpace c.symlen ≠ 2 ^ 16 ∧ ¬ c.singleSymbol) ∨
    (∃ t n, rebuildTree c = some (t, n) ∧ PlacedAll c.symlen 16 t n ∧ n ≤ 511 ∧
      ((codeSpace c.symlen = 2 ^ 16 ∧ t.full = true) ∨ c.singleSymbol)) := by
  have hrec := decodable_records h
  have hcs : canonicalValue c.symlen 16 = codeSpace c.symlen := rfl
  have hl : ∀ r ∈ c.symlen, 1 ≤ r.len.toNat ∧ 1 ≤ r.len.toNat ∧ r.len.toNat ≤ 16 :=
    fun r hr => ⟨(h.lengths r hr).1, h.lengths r hr⟩
  have hspec := placeRecords_spec c.symlen 16 [] 1 1 _ (placedAll_start 0) h.ascends hl (by omega)
  rw [List.nil_append] at hspec
  have hone : c.singleSymbol → codeSpace c.symlen = 2 ^ 15 := by
    rintro ⟨s, hs⟩
    rw [hs]
    rfl
  rcases hspec with ⟨t, m, h1, h2, _⟩ | ⟨h1, h2⟩
  · have hsize : t.indices.length = m := by
      rw [h2.indices.length_eq]
      simp
    have hleaves : t.leaves.length = c.symlen.length := by
      rw [h2.leaves.length_eq]
      simp
    have hfull : t.full = true ↔ codeSpace c.symlen = 2 ^ 16 := by
      rw [full_iff_free t 16 h2.bounded, ← hcs]
      have := h2.free
      omega
    have hcomplete : codeSpaceComplete c t = true ↔ codeSpace c.symlen = 2 ^ 16 ∨ c.singleSymbol := by
      rw [codeSpaceComplete, Bool.or_eq_true, singleSymbol_iff h, hfull, or_comm]
    by_cases hok : codeSpace c.symlen = 2 ^ 16 ∨ c.singleSymbol
    · have hm : m ≤ 511 := by
        rcases hok with hok | ⟨s, hs⟩
        · have := full_indices_length t (hfull.2 hok)
          have := h.room
          omega
        · have h3 : placeRecords [{ sym := s, len := 1 }] (emptyInternal 0) 1 =
              some (.internal (BitVec.ofNat 9 0) (.leaf (BitVec.ofNat 9 1) s 0) .absent 0, 2) := rfl
          rw [hs, h3] at h1
          cases h1
          omega
      have hp := placeAll_of_placeRecords c.symlen 16 [] 1 1 _ (placedAll_start 0) h.ascends hl (by omega) t m h1 hm
      refine .inr ⟨t, m, ?_, h2, hm, ?_⟩
      · rw [rebuildTree, hrec, hp]
        simp only
        rw [if_pos (hcomplete.2 hok)]
      · rcases hok with hok | hok
        · exact .inl ⟨hok, hfull.2 hok⟩
        · exact .inr hok
    · refine .inl ⟨?_, fun h3 => hok (.inl h3), fun h3 => hok (.inr h3)⟩
      rw [rebuildTree, hrec]
      cases hp : placeAll c.symlen (emptyInternal 0) 1 with
      | none => rfl
      | some p =>
        obtain ⟨t', m'⟩ := p
        have h3 := (placeAll_some hp).1
        rw [h1] at h3
        cases h3
        simp only
        rw [if_neg fun h3 => hok (hcomplete.1 h3)]
  · rw [hcs] at h2
    refine .inl ⟨?_, by omega, fun h3 => by have := hone h3; omega⟩
    rw [rebuildTree, hrec]
    cases hp : placeAll c.symlen (emptyInternal 0) 1 with
    | none => rfl
    | some p =>
      obtain ⟨t', m'⟩ := p
      have h3 := (placeAll_some hp).1
      rw [h1] at h3
      cases h3

/-! ### The command -/

theorem rebuildBody_moves : Moves Frame (· = .eTree) rebuildBody :=
  moves_bind frame_trans moves_ctx fun c => by
    cases rebuildTree c with
    | none => exact moves_throw frame_refl rfl
    | some p => exact moves_modifyCtx _

theorem rebuild_accepted (s : State) (h : acceptance .rebuild s = .ok) {t : Node} {n : Nat}
    (ht : rebuildTree s.ctx = some (t, n)) :
    rebuild s = { s with ctx := { s.ctx with root := t, nodeCnt := BitVec.ofNat 9 n, phase := .rebuilt }, err := .ok } := by
  rw [rebuild, issue_accepted h]
  have : rebuildBody s = .ok () { s with ctx := { s.ctx with root := t, nodeCnt := BitVec.ofNat 9 n, phase := .rebuilt } } := by
    rw [rebuildBody, bind_ok (run_ctx s), ht]
    rfl
  rw [complete_ok this]
  rfl

theorem rebuild_raises (s : State) (h : acceptance .rebuild s = .ok) (ht : rebuildTree s.ctx = none) :
    rebuild s = s.raise .eTree := by
  rw [rebuild, issue_accepted h]
  have : rebuildBody s = .error .eTree s := by
    rw [rebuildBody, bind_ok (run_ctx s), ht]
    rfl
  rw [complete_error this]

end Sys2Proof.Machine
end

