-- ==== Sys2Proof/Laws/Decoder.lean ====
section
/-!
SUPPORT. Laws of DECBITS: the reads with their progress events, the walk along the codes of a byte sequence, the raw
copy, and every way the content can end.
-/

namespace Sys2Proof.Machine

/-! ### Content bits and their progress events -/

/-- The state after `k` content bits have been read, `n` having been read before. -/
def State.consume (s : State) (n k : Nat) : State :=
  { s with io := { s.io with is := { s.io.is with pos := s.io.is.pos + k }
                             prog := s.io.prog ++ List.replicate (ticks n k) 1 } }

theorem consume_zero (s : State) (n : Nat) : s.consume n 0 = s := by
  simp [State.consume, ticks]

theorem consume_consume (s : State) (n j k : Nat) : (s.consume n j).consume (n + j) k = s.consume n (j + k) := by
  have : ticks n j + ticks (n + j) k = ticks n (j + k) := by
    simp only [ticks]
    omega
  simp only [State.consume, List.append_assoc, List.replicate_append_replicate, this, Nat.add_assoc]

theorem consume_rest (s : State) (n k : Nat) : (s.consume n k).io.is.rest = s.io.is.rest.drop k :=
  rest_advance _ _

theorem rdContentBit_ok (s : State) (n : Nat) (b : Bool) (r : BitString) (h : s.io.is.rest = b :: r) :
    rdContentBit n s = .ok b (s.consume n 1) := by
  rw [rdContentBit, bind_ok (run_read_ok (rdBit_ok _ _ _ h)), bitProgress]
  by_cases hd : (n + 1) % 8 = 0
  · rw [if_pos hd, bind_ok (run_progress _ _), run_pure]
    have : ticks n 1 = 1 := by simp only [ticks]; omega
    simp [State.consume, this]
  · rw [if_neg hd, bind_ok (run_pure _ _), run_pure]
    have : ticks n 1 = 0 := by simp only [ticks]; omega
    simp [State.consume, this]

theorem rdContentBit_eos (s : State) (n : Nat) (h : s.io.is.rest = []) : rdContentBit n s = .error .eEos s := by
  rw [rdContentBit, bind_error (run_read_error (rdBit_eos _ h))]

/-- Discarding padding bits that are there (R167). -/
theorem discardPadding_ok (k n : Nat) (s : State) (h : k ≤ s.io.is.rest.length) :
    discardPadding k n s = .ok () (s.consume n k) := by
  induction k generalizing n s with
  | zero => rw [consume_zero]; rfl
  | succ k ih =>
    cases hr : s.io.is.rest with
    | nil =>
      rw [hr] at h
      simp at h
    | cons b r =>
      rw [discardPadding, bind_ok (rdContentBit_ok s n b r hr), ih, consume_consume, Nat.add_comm 1 k]
      rw [consume_rest, hr]
      rw [hr] at h
      simpa using h

/-- Discarding more padding bits than there are (R167, R200). -/
theorem discardPadding_eos (k n : Nat) (s : State) (h : s.io.is.rest.length < k) :
    discardPadding k n s = .error .eEos (s.consume n s.io.is.rest.length) := by
  induction k generalizing n s with
  | zero => omega
  | succ k ih =>
    cases hr : s.io.is.rest with
    | nil =>
      rw [discardPadding, bind_error (rdContentBit_eos s n hr)]
      simp [consume_zero]
    | cons b r =>
      have h1 : (s.consume n 1).io.is.rest = r := by rw [consume_rest, hr]; rfl
      rw [hr] at h
      simp only [List.length_cons] at h
      rw [discardPadding, bind_ok (rdContentBit_ok s n b r hr), ih _ _ (by rw [h1]; omega), h1, consume_consume,
        List.length_cons, Nat.add_comm 1]

/-! ### The walk -/

/-- The state after `k` content bits have been read, `n` having been read before, and the bytes `bs`
written. -/
def State.decoded (s : State) (n k : Nat) (bs : List Byte) : State :=
  { s.consume n k with io := { (s.consume n k).io with os := s.io.os.wrBytes bs } }

theorem wrBytes_nil (os : OStream) : os.wrBytes [] = os := by rw [OStream.wrBytes, List.foldl_nil]

theorem wrBytes_singleton (os : OStream) (b : Byte) : os.wrBytes [b] = os.wrByte b := by
  rw [OStream.wrBytes, List.foldl_cons, List.foldl_nil]

theorem decoded_nil (s : State) (n k : Nat) : s.decoded n k [] = s.consume n k := by
  rw [State.decoded, wrBytes_nil]
  rfl

theorem decoded_decoded (s : State) (n j k : Nat) (as bs : List Byte) :
    (s.decoded n j as).decoded (n + j) k bs = s.decoded n (j + k) (as ++ bs) := by
  have : ticks n j + ticks (n + j) k = ticks n (j + k) := by
    simp only [ticks]
    omega
  simp only [State.decoded, State.consume, wrBytes_append, List.append_assoc, List.replicate_append_replicate, this,
    Nat.add_assoc]

theorem decoded_rest (s : State) (n k : Nat) (bs : List Byte) : (s.decoded n k bs).io.is.rest = s.io.is.rest.drop k :=
  consume_rest s n k

section step

variable {root cur : Node} {clen passes cnt n : Nat} {s : State} {b : Bool} {r : BitString}

theorem walk_done (hc : ¬ cnt < clen) : walk root clen (passes + 1) cur cnt n s = .ok () s := by
  rw [walk, if_neg hc, run_pure]

theorem walk_eos (hc : cnt < clen) (hr : s.io.is.rest = []) :
    walk root clen (passes + 1) cur cnt n s = .error .eEos s := by
  rw [walk, if_pos hc, bind_error (rdContentBit_eos s n hr)]

theorem walk_absent (hc : cnt < clen) (hr : s.io.is.rest = b :: r) (h : cur.child b = .absent) :
    walk root clen (passes + 1) cur cnt n s = .error .eTree (s.decoded n 1 []) := by
  rw [walk, if_pos hc, bind_ok (rdContentBit_ok s n b r hr), decoded_nil]
  simp only [h]
  rw [run_throw]

theorem walk_leaf {i : BitVec 9} {u : Byte} {f : Word32} (hc : cnt < clen) (hr : s.io.is.rest = b :: r)
    (h : cur.child b = .leaf i u f) :
    walk root clen (passes + 1) cur cnt n s = walk root clen passes root (cnt + 1) (n + 1) (s.decoded n 1 [u]) := by
  rw [walk, if_pos hc, bind_ok (rdContentBit_ok s n b r hr)]
  simp only [h]
  rw [bind_ok (run_write _ _), State.decoded, wrBytes_singleton]
  rfl

theorem walk_internal {i : BitVec 9} {l q : Node} {f : Word32} (hc : cnt < clen) (hr : s.io.is.rest = b :: r)
    (h : cur.child b = .internal i l q f) :
    walk root clen (passes + 1) cur cnt n s =
      walk root clen passes (.internal i l q f) cnt (n + 1) (s.decoded n 1 []) := by
  rw [walk, if_pos hc, bind_ok (rdContentBit_ok s n b r hr), decoded_nil]
  simp only [h]

end step

theorem leaf_follow (i : BitVec 9) (u : Byte) (f : Word32) (p : BitString) :
    (Node.leaf i u f).follow p = if p = [] then .leaf i u f else .absent := by
  cases p with
  | nil => rfl
  | cons b p =>
    rw [follow_cons]
    simp [Node.child, follow_absent]

/-- One code: the walk goes down its path, emits the symbol of the leaf and is back at the root (R168). -/
theorem walk_code (root : Node) (clen : Nat) (p : BitString) :
    ∀ (cur : Node) (cnt n passes : Nat) (s : State) (r : BitString) (i : BitVec 9) (u : Byte) (f : Word32),
      p ≠ [] → cur.follow p = .leaf i u f → s.io.is.rest = p ++ r → cnt < clen →
      walk root clen (passes + p.length) cur cnt n s =
        walk root clen passes root (cnt + 1) (n + p.length) (s.decoded n p.length [u]) := by
  induction p with
  | nil => intro _ _ _ _ _ _ _ _ _ h; exact absurd rfl h
  | cons b p ih =>
    intro cur cnt n passes s r i u f _ hf hr hc
    rw [follow_cons] at hf
    rw [List.length_cons, ← Nat.add_assoc]
    cases hch : cur.child b with
    | absent =>
      rw [hch, follow_absent] at hf
      cases hf
    | leaf j v g =>
      rw [hch, leaf_follow] at hf
      split at hf
      · rename_i hp
        cases hf
        subst hp
        exact walk_leaf hc hr hch
      · cases hf
    | internal j l q g =>
      have hp : p ≠ [] := by
        rintro rfl
        rw [hch] at hf
        cases hf
      rw [hch] at hf
      have h1 : (s.decoded n 1 []).io.is.rest = p ++ r := by rw [decoded_rest, hr]; rfl
      rw [walk_internal hc hr hch, ih (.internal j l q g) cnt (n + 1) passes _ r i u f hp hf h1 hc, decoded_decoded,
        Nat.add_comm 1 p.length, Nat.add_assoc, Nat.add_comm 1 p.length]
      rfl

/-- The codes of a byte sequence: the walk emits the bytes and consumes exactly the code bits (R168,
R173). -/
theorem walk_codes (root : Node) (clen : Nat) (code : Byte → BitString) (bs : List Byte) :
    ∀ (cnt n passes : Nat) (s : State) (r : BitString),
      (∀ b ∈ bs, code b ≠ [] ∧ root.hasPath (code b) b) → s.io.is.rest = bs.flatMap code ++ r →
      cnt + bs.length = clen → (bs.flatMap code).length < passes →
      walk root clen passes root cnt n s = .ok () (s.decoded n (bs.flatMap code).length bs) := by
  induction bs with
  | nil =>
    intro cnt n passes s r _ hr hc hp
    obtain ⟨m, rfl⟩ : ∃ m, passes = m + 1 := ⟨passes - 1, by omega⟩
    rw [List.length_nil, Nat.add_zero] at hc
    rw [walk_done (by omega), decoded_nil, List.flatMap_nil, List.length_nil, consume_zero]
  | cons b bs ih =>
    intro cnt n passes s r hb hr hc hp
    obtain ⟨hne, i, f, hpath⟩ := hb b (by simp)
    simp only [List.flatMap_cons, List.length_append, List.append_assoc] at hr hp
    obtain ⟨m, rfl⟩ : ∃ m, passes = m + (code b).length := ⟨passes - (code b).length, by omega⟩
    simp only [List.length_cons] at hc
    have hrest : (s.decoded n (code b).length [b]).io.is.rest = bs.flatMap code ++ r := by
      rw [decoded_rest, hr, List.drop_left]
    rw [walk_code root clen (code b) root cnt n m s _ i b f hne hpath hr (by omega),
      ih (cnt + 1) (n + (code b).length) m _ r (fun x hx => hb x (by simp [hx])) hrest (by omega) (by omega),
      decoded_decoded, List.flatMap_cons, List.length_append]
    rfl

/-- The codes of a byte sequence followed by anything: the walk is back at the root after them (R168). -/
theorem walk_prefix (root : Node) (clen : Nat) (code : Byte → BitString) (bs : List Byte) :
    ∀ (cnt n passes : Nat) (s : State) (r : BitString),
      (∀ b ∈ bs, code b ≠ [] ∧ root.hasPath (code b) b) → s.io.is.rest = bs.flatMap code ++ r → cnt + bs.length ≤ clen →
      walk root clen (passes + (bs.flatMap code).length) root cnt n s =
        walk root clen passes root (cnt + bs.length) (n + (bs.flatMap code).length)
          (s.decoded n (bs.flatMap code).length bs) := by
  induction bs with
  | nil =>
    intro cnt n passes s r _ _ _
    rw [List.flatMap_nil, List.length_nil, decoded_nil, consume_zero]
    rfl
  | cons b bs ih =>
    intro cnt n passes s r hb hr hc
    obtain ⟨hne, i, f, hpath⟩ := hb b (by simp)
    simp only [List.length_cons] at hc
    have hr' : s.io.is.rest = code b ++ (bs.flatMap code ++ r) := by
      rw [hr, List.flatMap_cons, List.append_assoc]
    have hrest : (s.decoded n (code b).length [b]).io.is.rest = bs.flatMap code ++ r := by
      rw [decoded_rest, hr', List.drop_left]
    have hl : ((b :: bs).flatMap code).length = (code b).length + (bs.flatMap code).length := by
      rw [List.flatMap_cons, List.length_append]
    have hpass : passes + ((code b).length + (bs.flatMap code).length) =
        passes + (bs.flatMap code).length + (code b).length := by omega
    have hcnt : cnt + 1 + bs.length = cnt + (bs.length + 1) := by omega
    rw [hl, hpass, walk_code root clen (code b) root cnt n _ s _ i b f hne hpath hr' (by omega),
      ih (cnt + 1) (n + (code b).length) passes _ r (fun x hx => hb x (by simp [hx])) hrest (by omega),
      decoded_decoded, List.length_cons, hcnt, Nat.add_assoc]
    rfl

theorem leaf_follow_ne_internal (i : BitVec 9) (u : Byte) (f : Word32) (p : BitString) :
    ∀ j l r g, (Node.leaf i u f).follow p ≠ .internal j l r g := by
  intro j l r g
  rw [leaf_follow]
  split <;> exact nofun

/-- Bits that stop at an internal node: the walk consumes them all, emits nothing and runs out (R168,
R200). -/
theorem walk_partial (root : Node) (clen : Nat) (p : BitString) :
    ∀ (cur : Node) (cnt n passes : Nat) (s : State),
      (∃ i l r f, cur.follow p = .internal i l r f) → s.io.is.rest = p → cnt < clen →
      walk root clen (passes + 1 + p.length) cur cnt n s = .error .eEos (s.consume n p.length) := by
  induction p with
  | nil =>
    intro cur cnt n passes s _ hr hc
    rw [List.length_nil, consume_zero]
    exact walk_eos hc hr
  | cons b p ih =>
    intro cur cnt n passes s hf hr hc
    obtain ⟨i, l, q, f, hf⟩ := hf
    rw [follow_cons] at hf
    cases hch : cur.child b with
    | absent =>
      rw [hch, follow_absent] at hf
      cases hf
    | leaf j v g =>
      rw [hch] at hf
      exact absurd hf (leaf_follow_ne_internal _ _ _ _ _ _ _ _)
    | internal j m k g =>
      have h1 : (s.decoded n 1 []).io.is.rest = p := by rw [decoded_rest, hr]; rfl
      rw [List.length_cons, ← Nat.add_assoc, walk_internal hc hr hch,
        ih _ cnt (n + 1) passes _ ⟨i, l, q, f, hch ▸ hf⟩ h1 hc, decoded_nil, consume_consume, Nat.add_comm 1]

/-- An internal node below which every internal node has both children. -/
def Node.branching (t : Node) : Prop := (∃ i l r f, t = .internal i l r f) ∧ t.full = true

theorem branching_child {t : Node} (h : t.branching) (b : Bool) :
    (∃ i u f, t.child b = .leaf i u f) ∨ (t.child b).branching := by
  obtain ⟨⟨i, l, r, f, rfl⟩, hf⟩ := h
  simp only [Node.full, Bool.and_eq_true] at hf
  have key : ∀ c : Node, c.full = true → (∃ i u f, c = .leaf i u f) ∨ c.branching := by
    intro c hc
    cases c with
    | absent => simp [Node.full] at hc
    | leaf i u f => exact .inl ⟨i, u, f, rfl⟩
    | internal i l r f => exact .inr ⟨⟨i, l, r, f, rfl⟩, hc⟩
  cases b
  · exact key l hf.1
  · exact key r hf.2

/-- Every way a walk can end: all symbols emitted, the input exhausted, or an absent child met, which a
tree with both children everywhere has not (R168, R169). Whatever it emitted are whole bytes. -/
theorem walk_ends (root : Node) (clen : Nat) (passes : Nat) :
    ∀ (cur : Node) (cnt n : Nat) (s : State), s.io.is.rest.length < passes → cnt ≤ clen →
      ∃ k bs, k ≤ s.io.is.rest.length ∧
        ((walk root clen passes cur cnt n s = .ok () (s.decoded n k bs) ∧ cnt + bs.length = clen) ∨
        (walk root clen passes cur cnt n s = .error .eEos (s.decoded n k bs) ∧ k = s.io.is.rest.length ∧
          cnt + bs.length < clen) ∨
        (walk root clen passes cur cnt n s = .error .eTree (s.decoded n k bs) ∧ cnt + bs.length < clen ∧
          ¬ (root.branching ∧ cur.branching))) := by
  induction passes with
  | zero => intro _ _ _ _ h; omega
  | succ passes ih =>
    intro cur cnt n s hlen hcnt
    by_cases hc : cnt < clen
    · cases hr : s.io.is.rest with
      | nil =>
        exact ⟨0, [], by simp, .inr (.inl ⟨by rw [walk_eos hc hr, decoded_nil, consume_zero], by simp, by simpa using hc⟩)⟩
      | cons b r =>
        have h1 : ∀ bs, (s.decoded n 1 bs).io.is.rest = r := fun bs => by rw [decoded_rest, hr]; rfl
        rw [hr] at hlen
        simp only [List.length_cons] at hlen ⊢
        cases hch : cur.child b with
        | absent =>
          refine ⟨1, [], by omega, .inr (.inr ⟨walk_absent hc hr hch, by simpa using hc, ?_⟩)⟩
          rintro ⟨_, h2⟩
          rcases branching_child h2 b with ⟨i, u, f, h3⟩ | ⟨⟨i, l, q, f, h3⟩, _⟩ <;> rw [hch] at h3 <;> cases h3
        | leaf j v g =>
          obtain ⟨k, bs, hk, hcase⟩ := ih root (cnt + 1) (n + 1) (s.decoded n 1 [v]) (by rw [h1]; omega) (by omega)
          rw [h1] at hk hcase
          refine ⟨1 + k, v :: bs, by omega, ?_⟩
          rw [decoded_decoded, List.singleton_append] at hcase
          rw [walk_leaf hc hr hch, List.length_cons]
          rcases hcase with ⟨h3, h4⟩ | ⟨h3, h4, h5⟩ | ⟨h3, h4, h5⟩
          · exact .inl ⟨h3, by omega⟩
          · exact .inr (.inl ⟨h3, by omega, by omega⟩)
          · exact .inr (.inr ⟨h3, by omega, fun h6 => h5 ⟨h6.1, h6.1⟩⟩)
        | internal j l q g =>
          obtain ⟨k, bs, hk, hcase⟩ := ih (.internal j l q g) cnt (n + 1) (s.decoded n 1 []) (by rw [h1]; omega) hcnt
          rw [h1] at hk hcase
          refine ⟨1 + k, bs, by omega, ?_⟩
          rw [decoded_decoded, List.nil_append] at hcase
          rw [walk_internal hc hr hch]
          rcases hcase with ⟨h3, h4⟩ | ⟨h3, h4, h5⟩ | ⟨h3, h4, h5⟩
          · exact .inl ⟨h3, h4⟩
          · exact .inr (.inl ⟨h3, by omega, h5⟩)
          · refine .inr (.inr ⟨h3, h4, fun h6 => h5 ⟨h6.1, ?_⟩⟩)
            rcases branching_child h6.2 b with ⟨i, u, f, h7⟩ | h7
            · rw [hch] at h7
              cases h7
            · rw [hch] at h7
              exact h7
    · refine ⟨0, [], Nat.zero_le _, .inl ⟨?_, by simp only [List.length_nil]; omega⟩⟩
      rw [walk_done hc, decoded_nil, consume_zero]

/-! ### The raw copy -/

/-- The state after `k` bits of raw content have been read and the bytes `bs` written (R170, R174). -/
def State.copied (s : State) (k : Nat) (bs : List Byte) : State :=
  { s with io := { is := { s.io.is with pos := s.io.is.pos + k }
                   os := s.io.os.wrBytes bs
                   prog := s.io.prog ++ List.replicate bs.length 1 } }

theorem copied_rest (s : State) (k : Nat) (bs : List Byte) : (s.copied k bs).io.is.rest = s.io.is.rest.drop k :=
  rest_advance _ _

theorem copied_copied (s : State) (j k : Nat) (as bs : List Byte) :
    (s.copied j as).copied k bs = s.copied (j + k) (as ++ bs) := by
  simp only [State.copied, wrBytes_append, List.append_assoc, List.replicate_append_replicate, List.length_append,
    Nat.add_assoc]

theorem copyRaw_byte (b : Byte) (k : Nat) (s : State) (r : BitString) (h : s.io.is.rest = byteBits b ++ r) :
    copyRaw (k + 1) s = copyRaw k (s.copied 8 [b]) := by
  rw [copyRaw, bind_ok (run_read_ok (rdByte_ok s.io.is b _ h)), bind_ok (run_write _ _), bind_ok (run_progress _ _),
    State.copied, wrBytes_singleton, List.length_singleton, List.replicate_one]

theorem copied_zero (s : State) : s.copied 0 [] = s := by
  simp [State.copied, OStream.wrBytes]

/-- Copying bytes that are there (R170). -/
theorem copyRaw_ok (bs : List Byte) (s : State) (r : BitString) (h : s.io.is.rest = bytesBits bs ++ r) :
    copyRaw bs.length s = .ok () (s.copied (8 * bs.length) bs) := by
  induction bs generalizing s with
  | nil =>
    rw [List.length_nil, copyRaw, run_pure, copied_zero]
  | cons b bs ih =>
    rw [bytesBits_cons, List.append_assoc] at h
    have h1 : (s.copied 8 [b]).io.is.rest = bytesBits bs ++ r := by
      rw [copied_rest, h, List.drop_left' (byteBits_length b)]
    rw [List.length_cons, copyRaw_byte b _ s _ h, ih _ h1, copied_copied]
    have : 8 + 8 * bs.length = 8 * (bs.length + 1) := by omega
    rw [this]
    rfl

/-- Copying more bytes than there are: those that exist are copied, and the bits after them are consumed
(R42, R170). -/
theorem copyRaw_short (bs : List Byte) (k : Nat) (s : State) (r : BitString) (h : s.io.is.rest = bytesBits bs ++ r)
    (hk : bs.length < k) (hr : r.length < 8) : copyRaw k s = .error .eEos (s.copied s.io.is.rest.length bs) := by
  induction bs generalizing k s with
  | nil =>
    obtain ⟨k, rfl⟩ : ∃ j, k = j + 1 := ⟨k - 1, by simp at hk; omega⟩
    have h8 : s.io.is.rest.length < 8 := by rw [h]; simpa [bytesBits] using hr
    rw [copyRaw, bind_error (run_read_error (rdByte_eos _ h8))]
    simp [State.copied, OStream.wrBytes]
  | cons b bs ih =>
    obtain ⟨k, rfl⟩ : ∃ j, k = j + 1 := ⟨k - 1, by simp at hk; omega⟩
    rw [bytesBits_cons, List.append_assoc] at h
    have h1 : (s.copied 8 [b]).io.is.rest = bytesBits bs ++ r := by
      rw [copied_rest, h, List.drop_left' (byteBits_length b)]
    have hl : s.io.is.rest.length = 8 + (bytesBits bs ++ r).length := by rw [h, List.length_append, byteBits_length]
    rw [copyRaw_byte b k s _ h, ih k _ h1 (by simpa using hk), copied_copied, h1, hl]
    rfl

/-- The whole bytes at the start of a bit string. -/
theorem exists_whole_bytes (bits : BitString) : ∃ bs r, bits = bytesBits bs ++ r ∧ r.length < 8 := by
  induction h : bits.length / 8 generalizing bits with
  | zero => exact ⟨[], bits, rfl, by omega⟩
  | succ n ih =>
    obtain ⟨b, r, rfl⟩ := exists_byte_of_length bits (by omega)
    rw [List.length_append, byteBits_length] at h
    obtain ⟨bs, r', h1, h2⟩ := ih r (by omega)
    exact ⟨b :: bs, r', by rw [bytesBits_cons, List.append_assoc, ← h1], h2⟩

theorem copyRaw_eos (k : Nat) (s : State) (h : s.io.is.rest.length < 8 * k) :
    ∃ bs, bs.length < k ∧ copyRaw k s = .error .eEos (s.copied s.io.is.rest.length bs) := by
  obtain ⟨bs, r, h1, h2⟩ := exists_whole_bytes s.io.is.rest
  have hl : s.io.is.rest.length = 8 * bs.length + r.length := by rw [h1, List.length_append, bytesBits_length]
  have hk : bs.length < k := by omega
  exact ⟨bs, hk, copyRaw_short bs k s r h1 hk h2⟩

/-! ### The command -/

/-- The errors DECBITS can raise after acceptance (R166). -/
abbrev ContentError (e : Res) : Prop := e = .eEos ∨ e = .eTree

theorem moves_content {α : Type} {r : Reader α} (h : Moves Forward OnlyEos r) : Moves Frame ContentError (Cmd.read r) :=
  moves_read (moves_mono h (fun _ _ => id) fun _ he => .inl he)

theorem rdContentBit_moves (n : Nat) : Moves Frame ContentError (rdContentBit n) :=
  moves_bind frame_trans (moves_content rdBit_moves) fun _ =>
    moves_bind frame_trans (by
      unfold bitProgress
      exact moves_ite (moves_progress 1) (moves_pure frame_refl ())) fun _ => moves_pure frame_refl _

theorem discardPadding_moves (k n : Nat) : Moves Frame ContentError (discardPadding k n) := by
  induction k generalizing n with
  | zero => exact moves_pure frame_refl _
  | succ k ih => exact moves_bind frame_trans (rdContentBit_moves n) fun _ => ih _

theorem walk_moves (root : Node) (clen passes : Nat) : ∀ (cur : Node) (cnt n : Nat),
    Moves Frame ContentError (walk root clen passes cur cnt n) := by
  induction passes with
  | zero => exact fun _ _ _ => moves_throw frame_refl (.inl rfl)
  | succ passes ih =>
    intro cur cnt n
    rw [walk]
    refine moves_ite (moves_bind frame_trans (rdContentBit_moves n) fun b => ?_) (moves_pure frame_refl _)
    cases cur.child b with
    | absent => exact moves_throw frame_refl (.inr rfl)
    | leaf i u f => exact moves_bind frame_trans (moves_wrByte u) fun _ => ih _ _ _
    | internal i l r f => exact ih _ _ _

theorem copyRaw_moves (k : Nat) : Moves Frame ContentError (copyRaw k) := by
  induction k with
  | zero => exact moves_pure frame_refl _
  | succ k ih =>
    exact moves_bind frame_trans (moves_content rdByte_moves) fun b =>
      moves_bind frame_trans (moves_wrByte b) fun _ => moves_bind frame_trans (moves_progress 1) fun _ => ih

theorem decodeContent_moves (c : Context) : Moves Frame ContentError (decodeContent c) :=
  moves_ite (moves_pure frame_refl _) <| moves_ite (copyRaw_moves _) <|
    moves_bind frame_trans (discardPadding_moves _ _) fun _ =>
      moves_bind frame_trans moves_bitsLeft fun _ => walk_moves _ _ _ _ _ _

theorem decbitsBody_moves : Moves Frame ContentError decbitsBody :=
  moves_bind frame_trans moves_ctx fun _ => moves_bind frame_trans (decodeContent_moves _) fun _ => moves_cleanup

theorem decbits_accepted (s : State) (h : acceptance .decbits s = .ok) {t : State}
    (ht : decodeContent s.ctx s = .ok () t) : decbits s = { t with ctx := Context.clean, err := .ok } := by
  rw [decbits, issue_accepted h]
  have : decbitsBody s = .ok () t.cleanup := by
    rw [decbitsBody, bind_ok (run_ctx s), bind_ok ht, run_cleanup]
  rw [complete_ok this]
  rfl

theorem decbits_raises (s : State) (h : acceptance .decbits s = .ok) {t : State} {e : Res}
    (ht : decodeContent s.ctx s = .error e t) : decbits s = { t with ctx := Context.clean, err := e } := by
  rw [decbits, issue_accepted h]
  have : decbitsBody s = .error e t := by
    rw [decbitsBody, bind_ok (run_ctx s), bind_error ht]
  rw [complete_error this]
  rfl

/-- The Huffman path on padding bits and the codes of a byte sequence (R166 to R168). -/
theorem decodeContent_codes (s : State) (code : Byte → BitString) (bs : List Byte) (pad r : BitString)
    (he : s.ctx.empty = false) (hd : s.ctx.disable = false) (hp : pad.length = s.ctx.pad.toNat)
    (hc : bs.length = s.ctx.clen.toNat) (hb : ∀ b ∈ bs, code b ≠ [] ∧ s.ctx.root.hasPath (code b) b)
    (hr : s.io.is.rest = pad ++ (bs.flatMap code ++ r)) :
    decodeContent s.ctx s = .ok () (s.decoded 0 (pad.length + (bs.flatMap code).length) bs) := by
  have h1 := discardPadding_ok s.ctx.pad.toNat 0 s (by rw [hr, List.length_append]; omega)
  have h2 : (s.consume 0 s.ctx.pad.toNat).io.is.rest = bs.flatMap code ++ r := by
    rw [consume_rest, hr, List.drop_left' hp]
  have h3 := walk_codes s.ctx.root s.ctx.clen.toNat code bs 0 s.ctx.pad.toNat
    ((s.consume 0 s.ctx.pad.toNat).io.is.rest.length + 1) (s.consume 0 s.ctx.pad.toNat) r hb h2 (by omega)
    (by rw [h2, List.length_append]; omega)
  have hdd := decoded_decoded s 0 s.ctx.pad.toNat (bs.flatMap code).length [] bs
  rw [Nat.zero_add, decoded_nil, List.nil_append] at hdd
  rw [decodeContent, he, hd, if_neg (by simp), if_neg (by simp), bind_ok h1, bind_ok (run_bitsLeft _), h3, hdd, hp]

/-- The Huffman path on fewer bits than the padding takes (R167, R200). -/
theorem decodeContent_cutPadding (s : State) (he : s.ctx.empty = false) (hd : s.ctx.disable = false)
    (hl : s.io.is.rest.length < s.ctx.pad.toNat) :
    decodeContent s.ctx s = .error .eEos (s.consume 0 s.io.is.rest.length) := by
  rw [decodeContent, he, hd, if_neg (by simp), if_neg (by simp), bind_error (discardPadding_eos _ _ _ hl)]

/-- The Huffman path on padding bits, the codes of fewer than CLEN symbols, and bits that stop at an
internal node (R168, R200). -/
theorem decodeContent_cutCodes (s : State) (code : Byte → BitString) (bs : List Byte) (pad r : BitString)
    (he : s.ctx.empty = false) (hd : s.ctx.disable = false) (hp : pad.length = s.ctx.pad.toNat)
    (hc : bs.length < s.ctx.clen.toNat) (hb : ∀ b ∈ bs, code b ≠ [] ∧ s.ctx.root.hasPath (code b) b)
    (hi : ∃ i l q f, s.ctx.root.follow r = .internal i l q f) (hr : s.io.is.rest = pad ++ (bs.flatMap code ++ r)) :
    decodeContent s.ctx s = .error .eEos (s.decoded 0 s.io.is.rest.length bs) := by
  have h1 := discardPadding_ok s.ctx.pad.toNat 0 s (by rw [hr, List.length_append]; omega)
  have h2 : (s.consume 0 s.ctx.pad.toNat).io.is.rest = bs.flatMap code ++ r := by
    rw [consume_rest, hr, List.drop_left' hp]
  have hlen : (s.consume 0 s.ctx.pad.toNat).io.is.rest.length + 1 = 0 + 1 + r.length + (bs.flatMap code).length := by
    rw [h2, List.length_append]
    omega
  have h3 := walk_prefix s.ctx.root s.ctx.clen.toNat code bs 0 s.ctx.pad.toNat (0 + 1 + r.length)
    (s.consume 0 s.ctx.pad.toNat) r hb h2 (by omega)
  have h4 := walk_partial s.ctx.root s.ctx.clen.toNat r s.ctx.root (0 + bs.length)
    (s.ctx.pad.toNat + (bs.flatMap code).length) 0
    ((s.consume 0 s.ctx.pad.toNat).decoded s.ctx.pad.toNat (bs.flatMap code).length bs) hi
    (by rw [decoded_rest, h2, List.drop_left]) (by omega)
  have hdd := decoded_decoded s 0 s.ctx.pad.toNat (bs.flatMap code).length [] bs
  have hdr := decoded_decoded s 0 (s.ctx.pad.toNat + (bs.flatMap code).length) r.length bs []
  rw [Nat.zero_add, decoded_nil, List.nil_append] at hdd
  rw [Nat.zero_add, decoded_nil, List.append_nil] at hdr
  have hall : s.io.is.rest.length = s.ctx.pad.toNat + (bs.flatMap code).length + r.length := by
    rw [hr, List.length_append, List.length_append]
    omega
  rw [decodeContent, he, hd, if_neg (by simp), if_neg (by simp), bind_ok h1, bind_ok (run_bitsLeft _), hlen, h3, h4, hdd,
    hdr, hall]

/-- The raw path on the bytes the header declared (R170). -/
theorem decodeContent_raw (s : State) (bs : List Byte) (r : BitString) (he : s.ctx.empty = false)
    (hd : s.ctx.disable = true) (hc : bs.length = s.ctx.clen.toNat) (hr : s.io.is.rest = bytesBits bs ++ r) :
    decodeContent s.ctx s = .ok () (s.copied (8 * bs.length) bs) := by
  rw [decodeContent, he, hd, if_neg (by simp), if_pos rfl, ← hc, copyRaw_ok bs s r hr]

/-- The empty path (R171). -/
theorem decodeContent_empty (s : State) (he : s.ctx.empty = true) : decodeContent s.ctx s = .ok () s := by
  rw [decodeContent, he, if_pos rfl, run_pure]

/-- Every way the content can end (R166 to R172): all CLEN bytes written (none on the empty path), or the
input exhausted, or, in a tree that lacks a child, E_TREE. -/
theorem decodeContent_ends (s : State) :
    (∃ t bs, decodeContent s.ctx s = .ok () t ∧ t.io.os = s.io.os.wrBytes bs ∧
      bs.length = if s.ctx.empty then 0 else s.ctx.clen.toNat) ∨
    (∃ e t bs, decodeContent s.ctx s = .error e t ∧ t.io.os = s.io.os.wrBytes bs ∧ s.ctx.empty = false ∧
      ((e = .eEos ∧ t.io.is.rest = [] ∧ (bs.length < s.ctx.clen.toNat ∨ bs = [])) ∨
        (e = .eTree ∧ s.ctx.disable = false ∧ bs.length < s.ctx.clen.toNat ∧ ¬ s.ctx.root.branching))) := by
  cases he : s.ctx.empty with
  | true =>
    exact .inl ⟨s, [], decodeContent_empty s he, (wrBytes_nil _).symm, by simp⟩
  | false =>
    cases hd : s.ctx.disable with
    | true =>
      by_cases hl : s.io.is.rest.length < 8 * s.ctx.clen.toNat
      · obtain ⟨bs, h1, h2⟩ := copyRaw_eos _ s hl
        refine .inr ⟨.eEos, s.copied s.io.is.rest.length bs, bs, ?_, rfl, rfl, .inl ⟨rfl, ?_, .inl h1⟩⟩
        · rw [decodeContent, he, hd, if_neg (by simp), if_pos rfl, h2]
        · rw [copied_rest, List.drop_length]
      · have hsplit : ∀ (n : Nat) (bits : BitString), 8 * n ≤ bits.length →
            ∃ bs r, bs.length = n ∧ bits = bytesBits bs ++ r := by
          intro n
          induction n with
          | zero => exact fun bits _ => ⟨[], bits, rfl, rfl⟩
          | succ n ih =>
            intro bits hb
            obtain ⟨b, r, rfl⟩ := exists_byte_of_length bits (by omega)
            rw [List.length_append, byteBits_length] at hb
            obtain ⟨bs, r', h1, rfl⟩ := ih r (by omega)
            exact ⟨b :: bs, r', by simp [h1], by rw [bytesBits_cons, List.append_assoc]⟩
        obtain ⟨bs, r, h1, h2⟩ := hsplit s.ctx.clen.toNat s.io.is.rest (by omega)
        exact .inl ⟨s.copied (8 * bs.length) bs, bs, decodeContent_raw s bs r he hd h1 h2, rfl, by simpa using h1⟩
    | false =>
      have hform : decodeContent s.ctx s = (do
          discardPadding s.ctx.pad.toNat 0
          let left ← Cmd.bitsLeft
          walk s.ctx.root s.ctx.clen.toNat (left + 1) s.ctx.root 0 s.ctx.pad.toNat : Cmd Unit) s := by
        rw [decodeContent, he, hd, if_neg (by simp), if_neg (by simp)]
      by_cases hl : s.io.is.rest.length < s.ctx.pad.toNat
      · refine .inr ⟨.eEos, s.consume 0 s.io.is.rest.length, [], ?_, (wrBytes_nil _).symm, rfl,
          .inl ⟨rfl, ?_, .inr rfl⟩⟩
        · exact decodeContent_cutPadding s he hd hl
        · rw [consume_rest, List.drop_length]
      · have h1 := discardPadding_ok s.ctx.pad.toNat 0 s (by omega)
        obtain ⟨k, bs, hk, hcase⟩ := walk_ends s.ctx.root s.ctx.clen.toNat
          ((s.consume 0 s.ctx.pad.toNat).io.is.rest.length + 1) s.ctx.root 0 s.ctx.pad.toNat
          (s.consume 0 s.ctx.pad.toNat) (by omega) (Nat.zero_le _)
        rw [hform, bind_ok h1, bind_ok (run_bitsLeft _)]
        rcases hcase with ⟨h2, h3⟩ | ⟨h2, h3, h4⟩ | ⟨h2, h3, h4⟩
        · exact .inl ⟨_, bs, h2, rfl, by simpa using h3⟩
        · refine .inr ⟨_, _, bs, h2, rfl, rfl, .inl ⟨rfl, ?_, .inl (by omega)⟩⟩
          rw [decoded_rest, h3, List.drop_length]
        · exact .inr ⟨_, _, bs, h2, rfl, rfl, .inr ⟨rfl, rfl, by omega, fun h5 => h4 ⟨h5, h5⟩⟩⟩

end Sys2Proof.Machine
end

