-- ==== Sys2Proof/Laws/Encoder.lean ====
section
/-!
SUPPORT. Laws of ENCBITS: the second scan in closed form, and what each path of the body comes to.
-/

namespace Sys2Proof.Machine

/-- A scan that writes something for each byte, over whole bytes from wherever the cursor stands
(R152, R153). -/
theorem scanLoop_ok (f : Byte → OStream → OStream) (bs : List Byte) (n : Nat) (s : State)
    (h : s.io.is.rest = bytesBits bs) (hn : bs.length ≤ n) :
    scanLoop (fun b => Cmd.write (f b)) n s = .ok () { s with
      io := { is := { s.io.is with pos := s.io.is.pos + 8 * bs.length }
              os := bs.foldl (fun os b => f b os) s.io.os
              prog := s.io.prog ++ List.replicate bs.length 1 } } := by
  induction bs generalizing n s with
  | nil =>
    have hs : s = { s with io := { is := { s.io.is with pos := s.io.is.pos + 0 }, os := s.io.os, prog := s.io.prog ++ [] } } := by
      simp
    cases n with
    | zero =>
      rw [scanLoop, run_pure]
      simp
    | succ n =>
      have he : s.io.is.atEnd = true := (atEnd_iff_rest _).2 h
      rw [scanLoop, bind_ok (run_atEnd s), run_ite, if_pos he, run_pure]
      simp
  | cons b bs ih =>
    obtain ⟨n, rfl⟩ : ∃ m, n = m + 1 := ⟨n - 1, by simp only [List.length_cons] at hn; omega⟩
    rw [bytesBits_cons] at h
    have he : ¬ s.io.is.atEnd = true := by
      rw [atEnd_iff_rest, h]
      intro hnil
      have := congrArg List.length hnil
      simp [byteBits_length] at this
    have hb := run_read_ok (rdByte_ok s.io.is b _ h)
    rw [scanLoop, bind_ok (run_atEnd s), run_ite, if_neg he, bind_ok hb, bind_ok (run_write _ _),
      bind_ok (run_progress _ _), ih]
    · simp only [List.foldl_cons, List.length_cons, List.append_assoc, List.replicate_succ, List.singleton_append]
      have : s.io.is.pos + 8 + 8 * bs.length = s.io.is.pos + 8 * (bs.length + 1) := by omega
      rw [this]
    · simp only
      rw [rest_advance, h, List.drop_left' (byteBits_length b)]
    · simp only [List.length_cons] at hn
      omega

theorem scanInput_ok (f : Byte → OStream → OStream) (s : State) :
    scanInput (fun b => Cmd.write (f b)) s = .ok () { s with
      io := { is := { s.io.is with pos := 8 * s.io.is.bytes.length }
              os := s.io.is.bytes.foldl (fun os b => f b os) s.io.os
              prog := s.io.prog ++ List.replicate s.io.is.bytes.length 1 } } := by
  rw [scanInput, bind_ok (run_rewind s), bind_ok (run_inputLength _), scanLoop_ok f s.io.is.bytes]
  · simp [IStream.rewind]
  · simp [IStream.rewind, IStream.rest]
  · simp [IStream.rewind]

theorem foldl_wrBits (code : Byte → BitString) (bs : List Byte) (os : OStream) :
    bs.foldl (fun os b => os.wrBits (code b)) os = os.wrBits (bs.flatMap code) := by
  induction bs generalizing os with
  | nil => rfl
  | cons b bs ih => rw [List.foldl_cons, ih, List.flatMap_cons, wrBits_append]

/-- Where ENCBITS leaves the streams (R150 to R155). -/
def encodedStreams (c : Context) (io : Streams) : Streams :=
  { is := if c.empty then io.is else { io.is with pos := 8 * io.is.bytes.length }
    os := (io.os.wrBits (c.content io.is.bytes)).flush
    prog := io.prog ++ if c.empty then [] else List.replicate io.is.bytes.length 1 }

theorem emitContent_ok (s : State) :
    emitContent s.ctx s = .ok () { s with
      io := { is := (encodedStreams s.ctx s.io).is
              os := s.io.os.wrBits (s.ctx.content s.io.is.bytes)
              prog := (encodedStreams s.ctx s.io).prog } } := by
  unfold emitContent
  cases he : s.ctx.empty with
  | true =>
    rw [run_ite, if_pos rfl, run_pure]
    simp [encodedStreams, Context.content, he, OStream.wrBits]
  | false =>
    rw [run_ite, if_neg (by simp), run_ite]
    cases hd : s.ctx.disable with
    | true =>
      rw [if_pos rfl]
      have h1 : scanInput emitRaw s = _ := scanInput_ok (fun b os => os.wrByte b) s
      have h3 : List.foldl (fun os b => OStream.wrByte os b) s.io.os s.io.is.bytes
          = s.io.os.wrBits (bytesBits s.io.is.bytes) := wrBytes_eq_wrBits _ _
      rw [h1, h3]
      simp [encodedStreams, Context.content, he, hd]
    | false =>
      rw [if_neg (by simp)]
      have h1 : emitPadding s.ctx.pad s = _ := run_write _ s
      have h2 : ∀ t, scanInput (emitCode s.ctx.code) t = _ :=
        fun t => scanInput_ok (fun b os => os.wrBits (symAt s.ctx.code b)) t
      rw [bind_ok h1, h2]
      simp [encodedStreams, Context.content, he, hd, foldl_wrBits, wrBits_append, Config.padValue]

theorem encbitsBody_ok (s : State) :
    encbitsBody s = .ok () { s with ctx := Context.clean, io := encodedStreams s.ctx s.io } := by
  rw [encbitsBody, bind_ok (run_ctx s), bind_ok (emitContent_ok s), bind_ok (run_write _ _), run_cleanup]
  rfl

theorem encbits_accepted (s : State) (h : acceptance .encbits s = .ok) :
    encbits s = { s with ctx := Context.clean, io := encodedStreams s.ctx s.io, err := .ok } := by
  rw [encbits, issue_accepted h, complete_ok (encbitsBody_ok s)]
  rfl

/-- The bits ENCBITS adds, when the stream and the content end on byte boundaries: the content itself,
and `flush()` adds nothing (R48, R154). -/
theorem encoded_bits_aligned (c : Context) (io : Streams)
    (h : (io.os.nacc.val + (c.content io.is.bytes).length) % 8 = 0) :
    (encodedStreams c io).os = io.os.wrBits (c.content io.is.bytes) := by
  have hn : (io.os.wrBits (c.content io.is.bytes)).nacc = 0 := by
    apply Fin.ext
    rw [wrBits_nacc]
    exact h
  simp only [encodedStreams]
  exact flush_aligned _ hn

end Sys2Proof.Machine
end

