-- ==== Sys2Proof/Laws/Sequencer.lean ====
section
/-!
SUPPORT. Laws of the sequencer: CLEAR and the reserved codes, ENCODE in closed form, every way DECODE can end, and the
frame of every command.
-/

namespace Sys2Proof.Machine

theorem acceptance_clear (s : State) : acceptance .clear s = .ok := by
  simp [acceptance, isCommand, phaseAllows, needsIS, needsOS]

theorem clear_eq (s : State) : clear s = { s with ctx := Context.clean, err := .ok } := by
  rw [clear, issue_accepted (acceptance_clear s), complete_ok (run_cleanup s)]
  rfl

theorem reserved_eq (i : Instr) (h : isCommand i = false) (s : State) : reservedCode i s = s.reject .eCmd := by
  simp [reservedCode, issue, acceptance, h]

/-! ### ENCODE -/

/-- The context in which WRHDR finds an encode of `bs` that began in context `c` (R181). -/
def Context.prepared (c : Context) (bs : List Byte) : Context :=
  if (c.counted bs).noneSeen then c.counted bs else (c.counted bs).build.gencode.hist.policy

/-- The context in which ENCBITS finds that encode (R135). -/
def Context.headed (c : Context) : Context :=
  { c with empty := decide (c.phase = .counted) || c.empty, phase := .hdrWritten }

theorem ofInput_hdrWritten (bs : List Byte) :
    Context.ofInput .hdrWritten bs = (Context.clean.prepared bs).headed := by
  simp only [Context.ofInput, Context.prepared]
  have h1 : (Context.clean.counted bs).phase = .counted := rfl
  have h2 : (Context.clean.counted bs).build.gencode.hist.policy.phase = .policed := rfl
  have h3 : (Context.clean.counted bs).build.gencode.hist.policy.empty = false := by
    simp only [Context.policy, Context.hist, Context.gencode, Context.build]
    rw [counted_others]
    rfl
  split
  · simp [Context.headed, h1]
  · simp [Context.headed, h2, h3]

/-- The state COUNT leaves, with a context of its own (R90, R181). -/
def State.scanned (s : State) (c : Context) : State :=
  { s with ctx := c, io := { s.io with is := { s.io.is with pos := 8 * s.io.is.bytes.length } }, err := .ok }

/-- From COUNT to POLICY no command of the expansion can fail (R181). -/
theorem encode_prepares (s : State) :
    (if (s.ctx.counted s.io.is.bytes).noneSeen then s.scanned (s.ctx.counted s.io.is.bytes)
      else ((((s.scanned (s.ctx.counted s.io.is.bytes)).andThen build).andThen gencode).andThen hist).andThen policy)
      = s.scanned (s.ctx.prepared s.io.is.bytes) := by
  have hcp : (s.ctx.counted s.io.is.bytes).phase = .counted := rfl
  unfold Context.prepared
  cases hn : (s.ctx.counted s.io.is.bytes).noneSeen with
  | true => simp
  | false =>
    simp only [Bool.false_eq_true, if_false]
    rw [andThen_ok (f := build) rfl, build_accepted _ ((acceptance_ok_iff _ _).2
      ⟨rfl, by simp [phaseAllows, State.scanned, hcp, hn], nofun, nofun⟩)]
    rw [andThen_ok (f := gencode) rfl, gencode_accepted _ ((acceptance_ok_iff _ _).2
      ⟨rfl, by simp [phaseAllows, Context.build], nofun, nofun⟩)]
    rw [andThen_ok (f := hist) rfl, hist_accepted _ ((acceptance_ok_iff _ _).2
      ⟨rfl, by simp [phaseAllows, Context.gencode], nofun, nofun⟩)]
    rw [andThen_ok (f := policy) rfl, policy_accepted _ ((acceptance_ok_iff _ _).2
      ⟨rfl, by simp [phaseAllows, Context.hist], nofun, nofun⟩)]
    rfl

theorem prepared_allows_wrhdr (c : Context) (bs : List Byte) : phaseAllows .wrhdr (c.prepared bs) = true := by
  have hcp : (c.counted bs).phase = .counted := rfl
  unfold Context.prepared
  cases hn : (c.counted bs).noneSeen with
  | true => simp [phaseAllows, hcp, hn]
  | false => simp [phaseAllows, Context.policy]

/-- ENCODE, accepted, in closed form (R181): no unit command of the expansion can fail. -/
theorem encodeCall_accepted (s : State) (h : acceptance .encode s = .ok) :
    encodeCall s = { s with
      ctx := Context.clean
      io := encodedStreams (s.ctx.prepared s.io.is.bytes).headed
        { is := { s.io.is with pos := 8 * s.io.is.bytes.length }
          os := s.io.os.wrBytes (s.ctx.prepared s.io.is.bytes).headerBytes
          prog := s.io.prog }
      err := .ok } := by
  obtain ⟨_, hph, his, hos⟩ := (acceptance_ok_iff _ _).1 h
  have hidle : s.ctx.phase = .idle := by simpa [phaseAllows] using hph
  have hcount : count s = s.scanned (s.ctx.counted s.io.is.bytes) := count_accepted s ((acceptance_ok_iff _ _).2
    ⟨rfl, by simp [phaseAllows, hidle], fun _ => his rfl, nofun⟩)
  have hunits : encodeUnits s = ((s.scanned (s.ctx.prepared s.io.is.bytes)).andThen wrhdr).andThen encbits := by
    rw [← encode_prepares s, encodeUnits, hcount]
    rfl
  rw [encodeCall, issue_accepted h, hunits]
  rw [andThen_ok (f := wrhdr) rfl, wrhdr_accepted (s.scanned (s.ctx.prepared s.io.is.bytes)) ((acceptance_ok_iff _ _).2
    ⟨rfl, prepared_allows_wrhdr _ _, nofun, fun _ => hos rfl⟩)]
  rw [andThen_ok (f := encbits) rfl]
  refine (encbits_accepted _ ?_).trans ?_
  · exact (acceptance_ok_iff _ _).2 ⟨rfl, rfl, fun _ => his rfl, fun _ => hos rfl⟩
  · rfl

/-! ### DECODE -/

theorem loadHeader_phase (c : Context) (h : Header) : (c.loadHeader h).phase = .hdrRead := by cases h <;> rfl

/-- Every way DECODE, accepted, can end (R182): the header fails; the tree fails; the content fails; or all
three go well. -/
theorem decodeCall_cases (s : State) (h : acceptance .decode s = .ok) :
    (∃ e is, rdHeader s.io.is = .error e is ∧
      decodeCall s = { s with ctx := Context.clean, io := { s.io with is := is }, err := e }) ∨
    ∃ hd is, rdHeader s.io.is = .ok hd is ∧
      let read : State := { s with
        ctx := s.ctx.loadHeader hd
        io := { s.io with is := is, prog := s.io.prog ++ [Config.progHdrUnits] }
        err := .ok }
      ((read.ctx.disable = false ∧ read.ctx.empty = false ∧ rebuildTree read.ctx = none ∧
        decodeCall s = read.raise .eTree) ∨
      ∃ c : Context,
        ((c = read.ctx ∧ (read.ctx.disable = true ∨ read.ctx.empty = true)) ∨
        (read.ctx.disable = false ∧ read.ctx.empty = false ∧ ∃ t n, rebuildTree read.ctx = some (t, n) ∧
          c = { read.ctx with root := t, nodeCnt := BitVec.ofNat 9 n, phase := .rebuilt })) ∧
        ((∃ t, decodeContent c { read with ctx := c } = .ok () t ∧
          decodeCall s = { t with ctx := Context.clean, err := .ok }) ∨
        (∃ e t, decodeContent c { read with ctx := c } = .error e t ∧
          decodeCall s = { t with ctx := Context.clean, err := e }))) := by
  obtain ⟨_, hph, his, hos⟩ := (acceptance_ok_iff _ _).1 h
  have hIS : s.isValid = true := his rfl
  have hOS : s.osValid = true := hos rfl
  have hidle : s.ctx.phase = .idle := by simpa [phaseAllows] using hph
  have hrd : acceptance .rdhdr s = .ok := (acceptance_ok_iff _ _).2
    ⟨rfl, by simp [phaseAllows, hidle], fun _ => hIS, nofun⟩
  rw [decodeCall, issue_accepted h, decodeUnits]
  cases hr : rdHeader s.io.is with
  | error e is =>
    refine .inl ⟨e, is, rfl, ?_⟩
    rw [rdhdr_raises s hrd hr, andThen_error]
    intro he
    rcases ((rdHeader_moves s.io.is).2 e is hr).2 with h1 | h1 | h1 | h1 <;> rw [h1] at he <;> cases he
  | ok hd is =>
    refine .inr ⟨hd, is, rfl, ?_⟩
    rw [rdhdr_accepted s hrd hr, andThen_ok rfl]
    simp only
    have hphase := loadHeader_phase s.ctx hd
    by_cases hform : (s.ctx.loadHeader hd).disable = false ∧ (s.ctx.loadHeader hd).empty = false
    · obtain ⟨hdis, hemp⟩ := hform
      have hreb : ∀ e io, acceptance .rebuild { s with ctx := s.ctx.loadHeader hd, err := e, io := io } = .ok :=
        fun e io => (acceptance_ok_iff _ _).2
          ⟨rfl, by simp [phaseAllows, hphase, hdis, hemp], nofun, nofun⟩
      rw [if_pos (by simp [hdis, hemp])]
      cases ht : rebuildTree (s.ctx.loadHeader hd) with
      | none =>
        refine .inl ⟨hdis, hemp, rfl, ?_⟩
        rw [rebuild_raises _ (hreb _ _) ht, andThen_error (by simp [State.raise])]
      | some p =>
        obtain ⟨t, n⟩ := p
        refine .inr ⟨_, .inr ⟨hdis, hemp, t, n, rfl, rfl⟩, ?_⟩
        rw [rebuild_accepted _ (hreb _ _) ht, andThen_ok rfl]
        have hdb : ∀ e io, acceptance .decbits
            { s with ctx := { s.ctx.loadHeader hd with root := t, nodeCnt := BitVec.ofNat 9 n, phase := .rebuilt },
                     err := e, io := io } = .ok :=
          fun e io => (acceptance_ok_iff _ _).2 ⟨rfl, by simp [phaseAllows], fun _ => hIS, fun _ => hOS⟩
        cases hc : decodeContent { s.ctx.loadHeader hd with root := t, nodeCnt := BitVec.ofNat 9 n, phase := .rebuilt }
            { s with ctx := { s.ctx.loadHeader hd with root := t, nodeCnt := BitVec.ofNat 9 n, phase := .rebuilt },
                     io := { s.io with is := is, prog := s.io.prog ++ [Config.progHdrUnits] }, err := .ok } with
        | ok u t' => exact .inl ⟨t', rfl, decbits_accepted _ (hdb _ _) hc⟩
        | error e t' => exact .inr ⟨e, t', rfl, decbits_raises _ (hdb _ _) hc⟩
    · have hor : (s.ctx.loadHeader hd).disable = true ∨ (s.ctx.loadHeader hd).empty = true := by
        by_contra hc
        rw [not_or] at hc
        exact hform ⟨by simpa using hc.1, by simpa using hc.2⟩
      have hnot : ¬ ((!(s.ctx.loadHeader hd).disable && !(s.ctx.loadHeader hd).empty) = true) := by
        rcases hor with h1 | h1 <;> simp [h1]
      refine .inr ⟨_, .inl ⟨rfl, hor⟩, ?_⟩
      rw [if_neg hnot]
      have hdb : ∀ e io, acceptance .decbits { s with ctx := s.ctx.loadHeader hd, err := e, io := io } = .ok :=
        fun e io => (acceptance_ok_iff _ _).2
          ⟨rfl, by rcases hor with h1 | h1 <;> simp [phaseAllows, hphase, h1], fun _ => hIS, fun _ => hOS⟩
      cases hc : decodeContent (s.ctx.loadHeader hd)
          { s with ctx := s.ctx.loadHeader hd,
                   io := { s.io with is := is, prog := s.io.prog ++ [Config.progHdrUnits] }, err := .ok } with
      | ok u t' => exact .inl ⟨t', rfl, decbits_accepted _ (hdb _ _) hc⟩
      | error e t' => exact .inr ⟨e, t', rfl, decbits_raises _ (hdb _ _) hc⟩

/-! ### Frames of every command -/

/-- Being impossible: the commands whose bodies raise nothing. -/
abbrev NoError (_ : Res) : Prop := False

theorem count_frame (s : State) : Frame s (count s) := by
  rcases issue_cases .count (complete countBody) s with ⟨h, _⟩ | ⟨_, h⟩
  · rw [count_accepted s h]
    exact ⟨rfl, fun _ => Nat.le_refl _, List.prefix_rfl, List.prefix_rfl, id, List.prefix_rfl, rfl, rfl, rfl⟩
  · rw [count, h]
    exact frame_reject _ _

theorem build_frame (s : State) : Frame s (build s) := issue_frame (E := NoError) .build (moves_modifyCtx _) s

theorem gencode_frame (s : State) : Frame s (gencode s) := issue_frame (E := NoError) .gencode (moves_modifyCtx _) s

theorem hist_frame (s : State) : Frame s (hist s) := issue_frame (E := NoError) .hist (moves_modifyCtx _) s

theorem policy_frame (s : State) : Frame s (policy s) := issue_frame (E := NoError) .policy (moves_modifyCtx _) s

theorem writeForm_moves (c : Context) : Moves Frame NoError (writeForm c) :=
  moves_ite (moves_bind frame_trans (moves_wrBytes _) fun _ => moves_modifyCtx _)
    (moves_ite (moves_wrBytes _) (moves_wrBytes _))

theorem wrhdr_frame (s : State) : Frame s (wrhdr s) :=
  issue_frame (E := NoError) .wrhdr (moves_bind frame_trans moves_ctx fun _ =>
    moves_bind frame_trans (writeForm_moves _) fun _ => moves_modifyCtx _) s

theorem rdhdr_frame (s : State) : Frame s (rdhdr s) := issue_frame .rdhdr rdhdrBody_moves s

theorem rebuild_frame (s : State) : Frame s (rebuild s) := issue_frame .rebuild rebuildBody_moves s

theorem decbits_frame (s : State) : Frame s (decbits s) := issue_frame .decbits decbitsBody_moves s

theorem clear_frame (s : State) : Frame s (clear s) := issue_frame (E := NoError) .clear moves_cleanup s

theorem encbits_frame (s : State) : Frame s (encbits s) := by
  rcases issue_cases .encbits (complete encbitsBody) s with ⟨h, _⟩ | ⟨_, h⟩
  · rw [encbits_accepted s h]
    have h1 : Frame s { s with io := { s.io with os := (s.io.os.wrBits (s.ctx.content s.io.is.bytes)).flush } } := by
      have hw := (moves_wrBits (E := NoError) (s.ctx.content s.io.is.bytes) s).1 () _ (run_write _ s)
      exact frame_trans _ _ _ hw ((moves_flush (E := NoError) _).1 () _ (run_write _ _))
    refine ⟨?_, ?_, h1.osBytes, h1.osBits, h1.osWf, List.prefix_append _ _, rfl, rfl, rfl⟩
    · simp only [encodedStreams]
      split <;> rfl
    · intro hc
      simp only [encodedStreams]
      split
      · exact hc
      · exact Nat.le_refl _
  · rw [encbits, h]
    exact frame_reject _ _

theorem andThen_frame {s t : State} {f : State → State} (h : Frame s t) (hf : ∀ u, Frame u (f u)) :
    Frame s (t.andThen f) := by
  by_cases he : t.err = .ok
  · rw [andThen_ok he]
    exact frame_trans _ _ _ h (hf t)
  · rw [andThen_error he]
    exact h

theorem encodeCall_frame (s : State) : Frame s (encodeCall s) := by
  rcases issue_cases .encode encodeUnits s with ⟨_, h⟩ | ⟨_, h⟩
  · rw [encodeCall, h, encodeUnits]
    refine andThen_frame (andThen_frame ?_ wrhdr_frame) encbits_frame
    split
    · exact count_frame s
    · exact andThen_frame (andThen_frame (andThen_frame (andThen_frame (count_frame s) build_frame) gencode_frame)
        hist_frame) policy_frame
  · rw [encodeCall, h]
    exact frame_reject _ _

theorem decodeCall_frame (s : State) : Frame s (decodeCall s) := by
  rcases issue_cases .decode decodeUnits s with ⟨_, h⟩ | ⟨_, h⟩
  · rw [decodeCall, h, decodeUnits]
    refine andThen_frame (rdhdr_frame s) fun u => andThen_frame ?_ decbits_frame
    split
    · exact rebuild_frame u
    · exact frame_refl u
  · rw [decodeCall, h]
    exact frame_reject _ _

theorem reserved_frame (i : Instr) (s : State) : Frame s (reservedCode i s) := by
  rcases issue_cases i (fun t => t) s with ⟨_, h⟩ | ⟨_, h⟩
  · rw [reservedCode, h]
    exact frame_refl s
  · rw [reservedCode, h]
    exact frame_reject _ _

/-- The next state of a command, as a function: every command answers one. -/
def run (i : Instr) (s : State) : State :=
  match i with
  | .clear => clear s
  | .count => count s
  | .build => build s
  | .gencode => gencode s
  | .hist => hist s
  | .policy => policy s
  | .wrhdr => wrhdr s
  | .encbits => encbits s
  | .rdhdr => rdhdr s
  | .rebuild => rebuild s
  | .decbits => decbits s
  | .encode => encodeCall s
  | .decode => decodeCall s
  | .reserved0 => reservedCode .reserved0 s
  | .reservedE => reservedCode .reservedE s
  | .reservedF => reservedCode .reservedF s

/-- Every command runs to completion (R185, R230). -/
theorem exec_eq (i : Instr) (s : State) : exec i s = .next (run i s) := by cases i <;> rfl

theorem run_frame (i : Instr) (s : State) : Frame s (run i s) := by
  cases i with
  | clear => exact clear_frame s
  | count => exact count_frame s
  | build => exact build_frame s
  | gencode => exact gencode_frame s
  | hist => exact hist_frame s
  | policy => exact policy_frame s
  | wrhdr => exact wrhdr_frame s
  | encbits => exact encbits_frame s
  | rdhdr => exact rdhdr_frame s
  | rebuild => exact rebuild_frame s
  | decbits => exact decbits_frame s
  | encode => exact encodeCall_frame s
  | decode => exact decodeCall_frame s
  | reserved0 => exact reserved_frame _ s
  | reservedE => exact reserved_frame _ s
  | reservedF => exact reserved_frame _ s

/-- A command that fails its acceptance check changes ERR and nothing else (R183, R206). -/
theorem run_rejected (i : Instr) (s : State) (h : acceptance i s ≠ .ok) : run i s = s.reject (acceptance i s) := by
  have key : ∀ f : State → State, issue i f s = s.reject (acceptance i s) := by
    intro f
    rcases issue_cases i f s with ⟨h1, _⟩ | ⟨_, h1⟩
    · exact absurd h1 h
    · exact h1
  cases i
  all_goals
    simp only [run, clear, count, build, gencode, hist, policy, wrhdr, encbits, rdhdr, rebuild, decbits, encodeCall,
      decodeCall, reservedCode]
    exact key _

end Sys2Proof.Machine
end

