-- ==== Sys2Proof/Laws/Commands.lean ====
section
/-!
SUPPORT. What any command does: how it can end, the phase it leaves, and which parts of the streams it leaves alone.
-/

namespace Sys2Proof.Machine

/-- The three checks, in order, as one case split (R183). -/
theorem acceptance_eq (i : Instr) (s : State) : acceptance i s =
    if isCommand i = false then .eCmd else if phaseAllows i s.ctx = false then .eSeq
    else if (needsIS i = true ∧ s.isValid = false) ∨ (needsOS i = true ∧ s.osValid = false) then .eNull else .ok := by
  unfold acceptance
  cases isCommand i <;> cases phaseAllows i s.ctx <;> cases needsIS i <;> cases needsOS i <;>
    cases s.isValid <;> cases s.osValid <;> rfl

theorem noneSeen_false_iff (c : Context) : c.noneSeen = false ↔ ¬ ∀ b : Byte, symAt c.freq b = 0 := by
  rw [← noneSeen_iff]; simp

/-- The codes an accepted command ends with. -/
theorem decode_ends (s : State) (h : acceptance .decode s = .ok) :
    (decodeCall s).err = .ok ∨ ((decodeCall s).ctx = Context.clean ∧ ((decodeCall s).err = .eMarker ∨ (decodeCall s).err = .eHdrlen ∨ (decodeCall s).err = .eTree ∨
      (decodeCall s).err = .eEos)) := by
  rcases decodeCall_cases s h with ⟨e, is, hr, heq⟩ | ⟨hd, is, hr, ⟨_, _, _, heq⟩ | ⟨c, _, ⟨t, ht, heq⟩ | ⟨e, t, ht, heq⟩⟩⟩
  · rw [heq]
    exact .inr ⟨rfl, ((rdHeader_moves s.io.is).2 e is hr).2⟩
  · rw [heq]
    exact .inr ⟨rfl, .inr (.inr (.inl rfl))⟩
  · rw [heq]
    exact .inl rfl
  · rw [heq]
    have := ((decodeContent_moves _ _).2 e t ht).2
    rcases this with rfl | rfl
    · exact .inr ⟨rfl, .inr (.inr (.inr rfl))⟩
    · exact .inr ⟨rfl, .inr (.inr (.inl rfl))⟩

theorem issue_ends (i : Instr) {E : Res → Prop} {body : Cmd Unit} (h : Moves Frame E body) (s : State)
    (ha : acceptance i s = .ok) :
    (issue i (complete body) s).err = .ok ∨ (E (issue i (complete body) s).err ∧ (issue i (complete body) s).ctx = Context.clean) := by
  rcases issue_err i h s with ⟨_, h1⟩ | ⟨h1, _⟩ | ⟨_, h1⟩
  · exact .inl h1
  · exact absurd ha h1
  · exact .inr h1

/-- What an accepted command may raise. -/
def mayRaise : Instr → Res → Prop
  | .rdhdr, e | .decode, e => e = .eMarker ∨ e = .eHdrlen ∨ e = .eTree ∨ e = .eEos
  | .rebuild, e => e = .eTree
  | .decbits, e => e = .eEos ∨ e = .eTree
  | _, _ => False

theorem run_ends (i : Instr) (s : State) (ha : acceptance i s = .ok) :
    (run i s).err = .ok ∨ (mayRaise i (run i s).err ∧ (run i s).ctx = Context.clean) := by
  cases i <;> simp only [run]
  case clear => rw [clear_eq]; exact .inl rfl
  case count => rw [count_accepted s ha]; exact .inl rfl
  case build => rw [build_accepted s ha]; exact .inl rfl
  case gencode => rw [gencode_accepted s ha]; exact .inl rfl
  case hist => rw [hist_accepted s ha]; exact .inl rfl
  case policy => rw [policy_accepted s ha]; exact .inl rfl
  case wrhdr => rw [wrhdr_accepted s ha]; exact .inl rfl
  case encbits => rw [encbits_accepted s ha]; exact .inl rfl
  case encode => rw [encodeCall_accepted s ha]; exact .inl rfl
  case rdhdr => exact issue_ends .rdhdr rdhdrBody_moves s ha
  case rebuild => exact issue_ends .rebuild rebuildBody_moves s ha
  case decbits => exact issue_ends .decbits decbitsBody_moves s ha
  case decode =>
    rcases decode_ends s ha with h | ⟨h1, h2⟩
    · exact .inl h
    · exact .inr ⟨h2, h1⟩
  case reserved0 => simp [acceptance_eq, isCommand] at ha
  case reservedE => simp [acceptance_eq, isCommand] at ha
  case reservedF => simp [acceptance_eq, isCommand] at ha

/-- The phases before and after a command that completes with OK (R184). -/
def transitions : List (Instr × Phase × Phase) :=
  [(.count, .idle, .counted), (.build, .counted, .built), (.gencode, .built, .coded), (.hist, .coded, .histed),
    (.policy, .histed, .policed), (.wrhdr, .policed, .hdrWritten), (.wrhdr, .counted, .hdrWritten),
    (.encbits, .hdrWritten, .idle), (.rdhdr, .idle, .hdrRead), (.rebuild, .hdrRead, .rebuilt),
    (.decbits, .rebuilt, .idle), (.decbits, .hdrRead, .idle), (.encode, .idle, .idle), (.decode, .idle, .idle)]

theorem decodeCall_ctx (s : State) (h : acceptance .decode s = .ok) : (decodeCall s).ctx = Context.clean := by
  rcases decodeCall_cases s h with ⟨e, is, hr, heq⟩ | ⟨hd, is, hr, ⟨_, _, _, heq⟩ | ⟨c, _, ⟨t, ht, heq⟩ | ⟨e, t, ht, heq⟩⟩⟩
  · rw [heq]
  · rw [heq]
    rfl
  · rw [heq]
  · rw [heq]

theorem decbits_ctx (s : State) (h : acceptance .decbits s = .ok) : (decbits s).ctx = Context.clean := by
  rcases decodeContent_ends s with ⟨t, bs, ht, _⟩ | ⟨e, t, bs, ht, _⟩
  · rw [decbits_accepted s h ht]
  · rw [decbits_raises s h ht]

theorem rdhdr_phase (s : State) (h : acceptance .rdhdr s = .ok) (he : (rdhdr s).err = .ok) :
    (rdhdr s).ctx.phase = .hdrRead := by
  cases hr : rdHeader s.io.is with
  | ok hd is =>
    rw [rdhdr_accepted s h hr]
    exact loadHeader_phase _ _
  | error e is =>
    rw [rdhdr_raises s h hr] at he
    rcases ((rdHeader_moves s.io.is).2 e is hr).2 with rfl | rfl | rfl | rfl <;> cases he

theorem rebuild_phase (s : State) (h : acceptance .rebuild s = .ok) (he : (rebuild s).err = .ok) :
    (rebuild s).ctx.phase = .rebuilt := by
  cases hr : rebuildTree s.ctx with
  | some p =>
    rw [rebuild_accepted s h hr]
  | none =>
    rw [rebuild_raises s h hr] at he
    cases he

/-- The phase a command leaves when it completes with OK (R184). -/
theorem run_phase (i : Instr) (s : State) (ha : acceptance i s = .ok) (he : (run i s).err = .ok) :
    phaseAfter i = some (run i s).ctx.phase := by
  cases i <;> simp only [run] at he ⊢
  case clear => rw [clear_eq]; rfl
  case count => rw [count_accepted s ha]; rfl
  case build => rw [build_accepted s ha]; rfl
  case gencode => rw [gencode_accepted s ha]; rfl
  case hist => rw [hist_accepted s ha]; rfl
  case policy => rw [policy_accepted s ha]; rfl
  case wrhdr => rw [wrhdr_accepted s ha]; rfl
  case encbits => rw [encbits_accepted s ha]; rfl
  case encode => rw [encodeCall_accepted s ha]; rfl
  case rdhdr => rw [rdhdr_phase s ha he]; rfl
  case rebuild => rw [rebuild_phase s ha he]; rfl
  case decbits => rw [decbits_ctx s ha]; rfl
  case decode => rw [decodeCall_ctx s ha]; rfl
  case reserved0 => simp [acceptance_eq, isCommand] at ha
  case reservedE => simp [acceptance_eq, isCommand] at ha
  case reservedF => simp [acceptance_eq, isCommand] at ha

theorem run_transition (i : Instr) (s : State) (he : (run i s).err = .ok) :
    (i = .clear ∧ (run i s).ctx.phase = .idle) ∨ (i, s.ctx.phase, (run i s).ctx.phase) ∈ transitions := by
  by_cases ha : acceptance i s = .ok
  · have hp := run_phase i s ha he
    have h2 := ((acceptance_ok_iff i s).1 ha).2.1
    generalize (run i s).ctx.phase = q at hp ⊢
    cases i <;> simp only [phaseAllows, phaseAfter, Option.some.injEq, Bool.and_eq_true, Bool.or_eq_true,
      decide_eq_true_eq, reduceCtorEq] at hp h2 <;> subst hp
    case clear => exact .inl ⟨rfl, rfl⟩
    case wrhdr => rcases h2 with h2 | h2 <;> simp [h2, transitions]
    case decbits => rcases h2 with h2 | h2 <;> simp [h2, transitions]
    all_goals simp [h2, transitions]
  · rw [run_rejected i s ha] at he
    exact absurd he ha

theorem decodeContent_nacc {c : Context} {s : State} (hc : s.ctx = c) :
    (∀ t, decodeContent c s = .ok () t → t.io.os.nacc = s.io.os.nacc) ∧
    (∀ e t, decodeContent c s = .error e t → t.io.os.nacc = s.io.os.nacc) := by
  subst hc
  constructor
  · intro t ht
    rcases decodeContent_ends s with ⟨t', bs, ht', h, _⟩ | ⟨e, t', bs, ht', h, _⟩
    · rw [ht] at ht'
      cases ht'
      rw [h]
      exact wrBytes_nacc _ _
    · rw [ht] at ht'
      cases ht'
  · intro e t ht
    rcases decodeContent_ends s with ⟨t', bs, ht', h, _⟩ | ⟨e, t', bs, ht', h, _⟩
    · rw [ht] at ht'
      cases ht'
    · rw [ht] at ht'
      cases ht'
      rw [h]
      exact wrBytes_nacc _ _

theorem rejected_io (i : Instr) (s : State) (h : acceptance i s ≠ .ok) : (run i s).io = s.io := by
  rw [run_rejected i s h]
  rfl

/-- Only ENCBITS and ENCODE change how many bits are pending (R53). -/
theorem run_nacc (i : Instr) (s : State) (h1 : i ≠ .encbits) (h2 : i ≠ .encode) : (run i s).io.os.nacc = s.io.os.nacc := by
  by_cases ha : acceptance i s = .ok
  · cases i <;> simp only [run]
    case encbits => exact absurd rfl h1
    case encode => exact absurd rfl h2
    case clear => rw [clear_eq]
    case count => rw [count_accepted s ha]
    case build => rw [build_accepted s ha]
    case gencode => rw [gencode_accepted s ha]
    case hist => rw [hist_accepted s ha]
    case policy => rw [policy_accepted s ha]
    case wrhdr => rw [wrhdr_accepted s ha]; exact wrBytes_nacc _ _
    case rdhdr =>
      cases hr : rdHeader s.io.is with
      | ok hd is => rw [rdhdr_accepted s ha hr]
      | error e is => rw [rdhdr_raises s ha hr]
    case rebuild =>
      cases hr : rebuildTree s.ctx with
      | some p => rw [rebuild_accepted s ha hr]
      | none =>
        rw [rebuild_raises s ha hr]
        rfl
    case decbits =>
      rcases decodeContent_ends s with ⟨t, bs, ht, h, _⟩ | ⟨e, t, bs, ht, h, _⟩
      · rw [decbits_accepted s ha ht]
        exact (decodeContent_nacc rfl).1 t ht
      · rw [decbits_raises s ha ht]
        exact (decodeContent_nacc rfl).2 e t ht
    case decode =>
      rcases decodeCall_cases s ha with ⟨e, is, hr, heq⟩ | ⟨hd, is, hr, ⟨_, _, _, heq⟩ | ⟨c, _, ⟨t, ht, heq⟩ | ⟨e, t, ht, heq⟩⟩⟩
      · rw [heq]
      · rw [heq]
        rfl
      · rw [heq]
        have h := (decodeContent_nacc (by rfl)).1 t ht
        exact h
      · rw [heq]
        have h := (decodeContent_nacc (by rfl)).2 e t ht
        exact h
    all_goals rfl
  · rw [rejected_io i s ha]

/-- The commands that use no stream (R49). -/
theorem run_io (i : Instr) (s : State)
    (h : i ∈ [Instr.clear, .build, .gencode, .hist, .policy, .rebuild, .reserved0, .reservedE, .reservedF]) :
    (run i s).io = s.io := by
  by_cases ha : acceptance i s = .ok
  · simp only [List.mem_cons, List.not_mem_nil, or_false] at h
    rcases h with rfl | rfl | rfl | rfl | rfl | rfl | rfl | rfl | rfl <;> simp only [run]
    · rw [clear_eq]
    · rw [build_accepted s ha]
    · rw [gencode_accepted s ha]
    · rw [hist_accepted s ha]
    · rw [policy_accepted s ha]
    · cases hr : rebuildTree s.ctx with
      | some p => rw [rebuild_accepted s ha hr]
      | none =>
        rw [rebuild_raises s ha hr]
        rfl
    all_goals rfl
  · exact rejected_io i s ha

end Sys2Proof.Machine
end

