-- ==== Sys2Proof/Laws/RoundTrip.lean ====
section
/-!
SUPPORT. What the encoder writes is what the decoder reads: the facts of an encoded input, the header read back, and
the decoding of a stream the encoder wrote.
-/

namespace Sys2Proof.Machine

/-! ### Facts about an encoded input -/

theorem clean_counted_clen (bs : List Byte) (h : bs.length < 2 ^ 32) : (Context.clean.counted bs).clen.toNat = bs.length := by
  rw [counted_clen]
  simpa [Context.clean] using h

theorem clean_counted_freq (bs : List Byte) (h : bs.length < 2 ^ 32) (u : Byte) :
    (symAt (Context.clean.counted bs).freq u).toNat = bs.count u := by
  have hc : bs.count u < 2 ^ 32 := Nat.lt_of_le_of_lt List.count_le_length h
  rw [counted_freq]
  simpa [Context.clean, symAt_replicate] using hc

theorem counted_noneSeen_iff (bs : List Byte) (h : bs.length < 2 ^ 32) :
    (Context.clean.counted bs).noneSeen = true ↔ bs = [] := by
  rw [noneSeen_iff]
  constructor
  · intro h1
    cases bs with
    | nil => rfl
    | cons b bs => exact absurd (by simp) ((counted_freq_zero_iff _ h b).1 (h1 b))
  · rintro rfl u
    exact (counted_freq_zero_iff [] h u).2 (by simp)

/-- What BUILD and GENCODE make of a frequency table that is not all zero: the records are the canonical
sequence of the seen symbols, and each has its canonical code (R105, R118, R120). -/
structure Coded (freq : SymbolTable Word32) (rs : List SymLen) : Prop where
  canonical : canonicalOrder rs
  distinct : (rs.map SymLen.sym).Nodup
  seen : ∀ s, s ∈ rs.map SymLen.sym ↔ symAt freq s ≠ 0
  lenPos : ∀ r ∈ rs, 1 ≤ r.len.toNat
  room : 1 ≤ rs.length ∧ rs.length ≤ 256
  space : (∀ r ∈ rs, r.len.toNat ≤ 16) → codeSpace rs = 2 ^ 16 ∨ ∃ s, rs = [{ sym := s, len := 1 }]

theorem build_leaves_nodup (freq : SymbolTable Word32) (h : seenSymbols freq ≠ []) :
    ((buildTree freq).1.leaves.map Prod.fst).Nodup := by
  obtain ⟨_, _, hperm, _⟩ := buildTree_spec freq h
  exact (hperm.map Prod.fst).nodup_iff.2 (seenSymbols_nodup freq)

theorem build_symlen (freq : SymbolTable Word32) (h : seenSymbols freq ≠ []) :
    SymlenSpec (buildTree freq).1 (symlenOf (buildTree freq).1) := by
  obtain ⟨hfull, _, hperm, _⟩ := buildTree_spec freq h
  exact symlenOf_spec _ hfull (by rw [hperm.length_eq]; exact seenSymbols_length_le freq) (build_leaves_nodup freq h)

theorem build_coded (freq : SymbolTable Word32) (h : seenSymbols freq ≠ []) :
    Coded freq (symlenOf (buildTree freq).1) := by
  obtain ⟨hfull, _, hperm, _⟩ := buildTree_spec freq h
  have hspec := build_symlen freq h
  have hlen : (symlenOf (buildTree freq).1).length = (seenSymbols freq).length := by
    have h1 := hspec.syms.length_eq
    rw [List.length_map, List.length_map] at h1
    rw [h1, hperm.length_eq]
  have hpos : 1 ≤ (seenSymbols freq).length := List.length_pos_iff.2 h
  refine ⟨hspec.canonical, hspec.syms.nodup_iff.2 (build_leaves_nodup freq h), ?_, hspec.lenPos, ?_, ?_⟩
  · intro s
    rw [hspec.syms.mem_iff, (hperm.map Prod.fst).mem_iff, List.mem_map]
    constructor
    · rintro ⟨p, hp, rfl⟩
      obtain ⟨h1, h2⟩ := (mem_seenSymbols freq p).1 hp
      rw [h1]
      exact h2
    · intro hs
      exact ⟨(s, symAt freq s), (mem_seenSymbols freq _).2 ⟨rfl, hs⟩, rfl⟩
  · exact ⟨by rw [hlen]; exact hpos, by rw [hlen]; exact seenSymbols_length_le freq⟩
  · intro h16
    by_cases h2 : 2 ≤ (buildTree freq).1.leaves.length
    · obtain ⟨hp, hd⟩ := hspec.many h2
      left
      have hM : ∀ p ∈ leafDepths (buildTree freq).1 0, p.2 ≤ 16 := by
        intro p hp'
        rw [← hd p hp']
        exact h16 _ (hp.mem_iff.2 (List.mem_map_of_mem hp'))
      have hk := leafDepths_kraft _ 0 16 hfull hM
      rw [codeSpace, (hp.map fun r => 2 ^ (16 - r.len.toNat)).sum_eq, List.map_map]
      rw [Nat.sub_zero] at hk
      rw [← hk]
      congr 1
      apply List.map_congr_left
      intro p hp'
      simp only [Function.comp]
      rw [hd p hp']
    · right
      cases ht : (buildTree freq).1 with
      | absent => rw [ht] at hfull; simp [Node.full] at hfull
      | leaf i s f => exact ⟨s, ht ▸ hspec.single i s f ht⟩
      | internal i l r f =>
        rw [ht] at hfull h2
        simp only [Node.full, Bool.and_eq_true] at hfull
        have h3 := full_leaves_pos l hfull.1
        have h4 := full_leaves_pos r hfull.2
        simp only [Node.leaves, List.length_append] at h2
        omega

/-- The bits the codes of an input take, byte by byte or symbol by symbol (R117, R152). -/
theorem content_bits (bs : List Byte) (h : bs.length < 2 ^ 32) (rs : List SymLen) (hd : (rs.map SymLen.sym).Nodup)
    (hmem : ∀ b ∈ bs, b ∈ rs.map SymLen.sym) (code : Byte → BitString)
    (hcode : ∀ r ∈ rs, (code r.sym).length = r.len.toNat) :
    (bs.flatMap code).length = codeBits (Context.clean.counted bs).freq rs := by
  have h1 : codeBits (Context.clean.counted bs).freq rs = (rs.map fun r => r.len.toNat * bs.count r.sym).sum := by
    simp only [codeBits, clean_counted_freq bs h]
  rw [h1]
  clear h1 h
  induction bs with
  | nil => simp
  | cons b bs ih =>
    rw [List.flatMap_cons, List.length_append, ih fun x hx => hmem x (by simp [hx])]
    have hsplit : (rs.map fun r => r.len.toNat * (b :: bs).count r.sym).sum
        = (rs.map fun r => if r.sym = b then r.len.toNat else 0).sum + (rs.map fun r => r.len.toNat * bs.count r.sym).sum := by
      rw [← List.sum_map_add]
      congr 1
      apply List.map_congr_left
      intro r _
      rw [List.count_cons, Nat.mul_add, Nat.add_comm]
      congr 1
      by_cases hb : r.sym = b
      · simp [hb]
      · have : (b == r.sym) = false := by simpa using fun e => hb e.symm
        simp [this, hb]
    rw [hsplit]
    congr 1
    have hb := hmem b (by simp)
    clear hsplit ih hmem
    induction rs with
    | nil => simp at hb
    | cons r rs ihr =>
      rw [List.map_cons, List.nodup_cons] at hd
      rw [List.map_cons, List.sum_cons]
      by_cases hrb : r.sym = b
      · have hz : (rs.map fun r => if r.sym = b then r.len.toNat else 0).sum = 0 := by
          apply List.sum_eq_zero
          intro x hx
          obtain ⟨r', hr', rfl⟩ := List.mem_map.1 hx
          rw [if_neg]
          rintro rfl
          exact hd.1 (hrb ▸ List.mem_map_of_mem hr')
        rw [if_pos hrb, hz, Nat.add_zero, ← hcode r (by simp), hrb]
      · rw [if_neg hrb, Nat.zero_add]
        refine ihr hd.2 (fun x hx => hcode x (by simp [hx])) ?_
        rw [List.map_cons, List.mem_cons] at hb
        exact hb.resolve_left fun e => hrb e.symm

/-! ### The header read back -/

theorem ascends_split (rs : List SymLen) (L : Nat) (ha : lengthsAscend rs) (hl : ∀ r ∈ rs, L ≤ r.len.toNat) :
    ∃ A B, rs = A ++ B ∧ (∀ r ∈ A, r.len.toNat = L) ∧ (∀ r ∈ B, L + 1 ≤ r.len.toNat) ∧ A.length = countLength rs L := by
  induction rs with
  | nil => exact ⟨[], [], rfl, by simp, by simp, rfl⟩
  | cons r rs ih =>
    have ha' := List.pairwise_cons.1 ha
    rw [countLength_cons]
    by_cases hr : r.len.toNat = L
    · obtain ⟨A, B, h1, h2, h3, h4⟩ := ih ha'.2 fun x hx => hl x (by simp [hx])
      refine ⟨r :: A, B, by rw [h1]; rfl, ?_, h3, ?_⟩
      · intro x hx
        rcases List.mem_cons.1 hx with rfl | hx
        · exact hr
        · exact h2 x hx
      · rw [if_pos hr, List.length_cons, h4]
        omega
    · have hgt : ∀ x ∈ r :: rs, L + 1 ≤ x.len.toNat := by
        intro x hx
        have h1 := hl r (by simp)
        rcases List.mem_cons.1 hx with rfl | hx
        · omega
        · have := ha'.1 x hx
          omega
      refine ⟨[], r :: rs, rfl, by simp, hgt, ?_⟩
      rw [if_neg hr, Nat.zero_add]
      have : countLength rs L = 0 := by
        rw [countLength, List.countP_eq_zero]
        intro x hx
        have := hgt x (by simp [hx])
        simp only [decide_eq_true_eq]
        omega
      rw [this]
      rfl

/-- Putting the symbols back into buckets of the counts gives the records back (R79, R143). -/
theorem bucketRecords_back (counts : List Byte) :
    ∀ (L : Nat) (rs : List SymLen), lengthsAscend rs → (∀ r ∈ rs, L ≤ r.len.toNat ∧ r.len.toNat < L + counts.length) →
      (∀ j, j < counts.length → (counts.getD j 0).toNat = countLength rs (L + j)) →
      bucketRecords L counts (rs.map SymLen.sym) = rs ∧ countSum counts = rs.length := by
  induction counts with
  | nil =>
    intro L rs _ hl _
    cases rs with
    | nil => exact ⟨rfl, rfl⟩
    | cons r rs =>
      have := hl r (by simp)
      simp only [List.length_nil] at this
      omega
  | cons n counts ih =>
    intro L rs ha hl hc
    obtain ⟨A, B, rfl, hA, hB, hlen⟩ := ascends_split rs L ha fun r hr => (hl r hr).1
    have hn : n.toNat = A.length := by
      have := hc 0 (by simp)
      simpa [hlen] using this
    have haB : lengthsAscend B := (List.pairwise_append.1 ha).2.1
    have hcB : ∀ j, j < counts.length → (counts.getD j 0).toNat = countLength B (L + 1 + j) := by
      intro j hj
      have h1 := hc (j + 1) (by simp only [List.length_cons]; omega)
      have h2 : countLength (A ++ B) (L + (j + 1)) = countLength B (L + 1 + j) := by
        have h3 : L + (j + 1) = L + 1 + j := by omega
        rw [h3, countLength, List.countP_append]
        have : A.countP (fun r => decide (r.len.toNat = L + 1 + j)) = 0 := by
          rw [List.countP_eq_zero]
          intro x hx
          have := hA x hx
          simp only [decide_eq_true_eq]
          omega
        rw [this, Nat.zero_add]
        rfl
      rw [← h2, ← h1]
      rfl
    have hlB : ∀ r ∈ B, L + 1 ≤ r.len.toNat ∧ r.len.toNat < L + 1 + counts.length := by
      intro r hr
      have := (hl r (by simp [hr])).2
      simp only [List.length_cons] at this
      exact ⟨hB r hr, by omega⟩
    obtain ⟨h1, h2⟩ := ih (L + 1) B haB hlB hcB
    constructor
    · rw [bucketRecords, List.map_append, hn]
      have ht : (A.map SymLen.sym ++ B.map SymLen.sym).take A.length = A.map SymLen.sym := by
        rw [← List.length_map (f := SymLen.sym) (as := A), List.take_left']
        rfl
      have hd : (A.map SymLen.sym ++ B.map SymLen.sym).drop A.length = B.map SymLen.sym := by
        rw [← List.length_map (f := SymLen.sym) (as := A), List.drop_left']
        rfl
      rw [ht, hd, h1, List.map_map]
      congr 1
      conv_rhs => rw [← List.map_id A]
      apply List.map_congr_left
      intro r hr
      have h3 : BitVec.ofNat 8 L = r.len := by
        apply BitVec.eq_of_toNat_eq
        rw [← hA r hr]
        simp
      simp only [Function.comp, id_eq, h3]
    · simp only [countSum, List.map_cons, List.sum_cons, List.length_append, hn]
      rw [countSum] at h2
      rw [h2]

/-- The count bytes of a header (R138). -/
def countBytes (t : LengthTable) : List Byte := bucketLengths.map fun L => (lenAt t L).extractLsb' 0 8

theorem countBytes_length (t : LengthTable) : (countBytes t).length = 16 := by simp [countBytes, bucketLengths]

theorem countBytes_getD (t : LengthTable) (j : Nat) (hj : j < 16) :
    (countBytes t).getD j 0 = (lenAt t (j + 1)).extractLsb' 0 8 := by
  simp [countBytes, bucketLengths, List.getD, hj]

/-- HLEN as the two header bytes give it (R78, R138). -/
theorem headerLength_bytes (c : Context) (n : Nat) (hn : c.nsym.toNat = n) (hr : n ≤ 256) :
    256 * ((headerLength c).extractLsb' 8 8).toNat + ((headerLength c).extractLsb' 0 8).toNat = 23 + n := by
  have hhl : (headerLength c).toNat = 23 + n := by
    rw [headerLength, hn, BitVec.toNat_ofNat, Nat.mod_eq_of_lt (by omega)]
  rw [BitVec.extractLsb'_toNat, BitVec.extractLsb'_toNat, hhl, Nat.shiftRight_eq_div_pow, Nat.shiftRight_zero]
  omega

theorem huffmanHeader_form (c : Context) :
    huffmanHeader c = Config.markerHuff :: fullBody ((headerLength c).extractLsb' 8 8)
      ((headerLength c).extractLsb' 0 8) c.clen (countBytes c.lcnt) (c.records.map SymLen.sym) c.pad := by
  simp only [huffmanHeader, fullBody, countBytes, List.cons_append, List.append_assoc, List.nil_append]

theorem huffmanHeader_length (c : Context) : (huffmanHeader c).length = 24 + c.records.length := by
  rw [huffmanHeader_form]
  simp only [fullBody, u32Bytes, List.length_cons, List.length_append, List.length_map, countBytes_length, List.length_nil]
  omega

/-- The Huffman header of a context whose records fit it reads back as that context says (R138, R143,
R145). -/
theorem huffmanHeader_reads (c : Context) (hn : c.nsym.toNat = c.symlen.length) (hr : c.symlen.length ≤ 256)
    (ha : lengthsAscend c.symlen) (hl : ∀ r ∈ c.symlen, 1 ≤ r.len.toNat ∧ r.len.toNat ≤ 16)
    (hc : ∀ L, 1 ≤ L → L ≤ 16 → (lenAt c.lcnt L).toNat = countLength c.symlen L ∧ countLength c.symlen L ≤ 255)
    (is : IStream) (r : BitString) (h : is.rest = bytesBits (huffmanHeader c) ++ r) :
    rdHeader is = .ok (.full c.clen (countBytes c.lcnt) c.symlen c.pad)
      { is with pos := is.pos + (bytesBits (huffmanHeader c)).length } ∧
    countSum (countBytes c.lcnt) = c.symlen.length := by
  have hrec : c.records = c.symlen := by rw [Context.records, hn, List.take_length]
  have hcounts : ∀ j, j < (countBytes c.lcnt).length →
      ((countBytes c.lcnt).getD j 0).toNat = countLength c.symlen (1 + j) := by
    intro j hj
    rw [countBytes_length] at hj
    obtain ⟨h1, h2⟩ := hc (j + 1) (by omega) (by omega)
    rw [countBytes_getD _ _ hj, BitVec.extractLsb'_toNat, h1, Nat.shiftRight_zero, Nat.add_comm 1 j]
    exact Nat.mod_eq_of_lt (by omega)
  obtain ⟨hback, hsum⟩ := bucketRecords_back (countBytes c.lcnt) 1 c.symlen ha
    (fun x hx => by rw [countBytes_length]; have := hl x hx; omega) hcounts
  refine ⟨?_, hsum⟩
  have hv := headerLength_bytes c _ hn hr
  have hlen := huffmanHeader_length c
  have hform := huffmanHeader_form c
  rw [hrec] at hlen hform
  have h0 := h
  rw [hform, bytesBits_cons, List.append_assoc] at h0
  have h1 := rest_skip 8 h0 (byteBits_length _)
  have hread := rdHuffmanHeader_full _ _ _ c.clen _ _ c.pad r h1 (by omega) (countBytes_length _)
    (by rw [List.length_map, hsum]) (by omega)
  rw [hsum, if_pos hv.symm, hback] at hread
  rw [rdHeader_huff is _ h0, hread, bytesBits_length, hlen]
  have hpos : is.pos + 8 + 8 * (23 + c.symlen.length) = is.pos + 8 * (24 + c.symlen.length) := by omega
  simp only [hpos]

/-! ### The encoded context -/

/-- What holds of the context in which WRHDR finds an encode of a non-empty input (R105, R118, R126). -/
structure Prepared (bs : List Byte) (c : Context) : Prop where
  phase : c.phase = .policed
  empty : c.empty = false
  clen : c.clen.toNat = bs.length
  coded : Coded (Context.clean.counted bs).freq c.symlen
  nsym : c.nsym.toNat = c.symlen.length
  codes : ∀ i r, c.symlen[i]? = some r → symAt c.code r.sym = canonicalCode c.symlen i
  pad : c.pad.toNat ≤ 7 ∧ (c.pad.toNat + (bs.flatMap (symAt c.code)).length) % 8 = 0
  bytes : ∀ b ∈ bs, b ∈ c.symlen.map SymLen.sym
  enabled : c.disable = false → (∀ r ∈ c.symlen, 1 ≤ r.len.toNat ∧ r.len.toNat ≤ 16) ∧
    ∀ L, 1 ≤ L → L ≤ 16 → (lenAt c.lcnt L).toNat = countLength c.symlen L ∧ countLength c.symlen L ≤ 255

theorem hist_records (c : Context) : c.hist.records = c.records := by
  rw [Context.records, Context.records]
  rfl

/-! Which command of the chain wrote each field (R110, R125, R126). -/

theorem chain_symlen (c : Context) : c.build.gencode.hist.policy.symlen = symlenOf (buildTree c.freq).1 := by
  simp only [Context.policy, Context.hist, Context.gencode, Context.build]

theorem chain_nsym (c : Context) : c.build.gencode.hist.policy.nsym = BitVec.ofNat 9 (symlenOf (buildTree c.freq).1).length := by
  simp only [Context.policy, Context.hist, Context.gencode, Context.build]

theorem chain_code (c : Context) : c.build.gencode.hist.policy.code = assignCodes c.code (symlenOf (buildTree c.freq).1) := by
  simp only [Context.policy, Context.hist, Context.gencode, Context.build]

theorem chain_pad (c : Context) : c.build.gencode.hist.policy.pad = paddingOf c.freq (symlenOf (buildTree c.freq).1) := by
  simp only [Context.policy, Context.hist, Context.gencode, Context.build]

theorem chain_empty (c : Context) : c.build.gencode.hist.policy.empty = c.empty := by
  simp only [Context.policy, Context.hist, Context.gencode, Context.build]

theorem chain_clen (c : Context) : c.build.gencode.hist.policy.clen = c.clen := by
  simp only [Context.policy, Context.hist, Context.gencode, Context.build]

theorem chain_phase (c : Context) : c.build.gencode.hist.policy.phase = .policed := by
  simp only [Context.policy, Context.hist, Context.gencode, Context.build]

theorem chain_lcnt (c : Context) : c.build.gencode.hist.policy.lcnt = (histogram c.build.gencode.records).1 := by
  simp only [Context.policy, Context.hist, Context.gencode, Context.build]

theorem chain_maxlen (c : Context) : c.build.gencode.hist.policy.maxlen = (histogram c.build.gencode.records).2 := by
  simp only [Context.policy, Context.hist, Context.gencode, Context.build]

theorem policy_lcnt (c : Context) : c.policy.lcnt = c.lcnt := by simp only [Context.policy]

theorem hist_lcnt (c : Context) : c.hist.lcnt = (histogram c.records).1 := by simp only [Context.hist]

theorem hist_maxlen (c : Context) : c.hist.maxlen = (histogram c.records).2 := by simp only [Context.hist]

theorem hist_symlen (c : Context) : c.build.gencode.hist.symlen = symlenOf (buildTree c.freq).1 := by
  simp only [Context.hist, Context.gencode, Context.build]

theorem hist_nsym (c : Context) : c.build.gencode.hist.nsym = BitVec.ofNat 9 (symlenOf (buildTree c.freq).1).length := by
  simp only [Context.hist, Context.gencode, Context.build]

theorem prepared_spec (bs : List Byte) (h : bs.length < 2 ^ 32) (hne : bs ≠ []) :
    Prepared bs (Context.clean.prepared bs) := by
  have hn : (Context.clean.counted bs).noneSeen = false := by
    rw [Bool.eq_false_iff]
    exact fun h1 => hne ((counted_noneSeen_iff bs h).1 h1)
  have hseen := seenSymbols_ne_nil _ hn
  have hcoded := build_coded _ hseen
  have hprep : Context.clean.prepared bs = (Context.clean.counted bs).build.gencode.hist.policy := by
    rw [Context.prepared, hn]
    rfl
  have hroom := hcoded.room
  have hmod : (BitVec.ofNat 9 (symlenOf (buildTree (Context.clean.counted bs).freq).1).length).toNat
      = (symlenOf (buildTree (Context.clean.counted bs).freq).1).length := by
    rw [BitVec.toNat_ofNat, Nat.mod_eq_of_lt (by omega)]
  have hcodes : ∀ i r, (symlenOf (buildTree (Context.clean.counted bs).freq).1)[i]? = some r →
      symAt (assignCodes (Context.clean.counted bs).code (symlenOf (buildTree (Context.clean.counted bs).freq).1)) r.sym
        = canonicalCode (symlenOf (buildTree (Context.clean.counted bs).freq).1) i :=
    fun i r hi => assignCodes_record _ _ (canonical_ascends hcoded.canonical) hcoded.distinct i r hi
  have hbytes : ∀ b ∈ bs, b ∈ (symlenOf (buildTree (Context.clean.counted bs).freq).1).map SymLen.sym := by
    intro b hb
    rw [hcoded.seen, Ne, counted_freq_zero_iff bs h]
    simpa using hb
  have hempty : (Context.clean.counted bs).empty = false := by
    rw [counted_others]
    rfl
  rw [hprep]
  refine ⟨chain_phase _, (chain_empty _).trans hempty, by rw [chain_clen]; exact clean_counted_clen bs h,
    by rw [chain_symlen]; exact hcoded, by rw [chain_symlen, chain_nsym]; exact hmod,
    by rw [chain_symlen, chain_code]; exact hcodes, ?_, by rw [chain_symlen]; exact hbytes, ?_⟩
  · have h1 := paddingOf_spec (Context.clean.counted bs).freq (symlenOf (buildTree (Context.clean.counted bs).freq).1)
    have h2 := content_bits bs h _ hcoded.distinct hbytes
      (symAt (assignCodes (Context.clean.counted bs).code (symlenOf (buildTree (Context.clean.counted bs).freq).1))) (by
        intro r hr
        obtain ⟨i, hi⟩ := List.mem_iff_getElem?.1 hr
        rw [hcodes i r hi, canonicalCode_length _ _ _ hi])
    rw [chain_code, chain_pad, h2]
    exact h1
  · intro hd
    obtain ⟨h1, h2⟩ := policy_enabled (Context.clean.counted bs).build.gencode.hist
      (by rw [hist_symlen, hist_nsym]; exact hmod) (by rw [hist_symlen]; exact hroom.2)
      (by rw [hist_records, hist_lcnt]) (by rw [hist_records, hist_maxlen]) hd
    rw [hist_symlen] at h1 h2
    rw [chain_symlen, policy_lcnt]
    exact ⟨fun r hr => ⟨hcoded.lenPos r hr, h1 r hr⟩, h2⟩

/-- Every code of an encoded input is the canonical code of some record, and is not empty. -/
theorem prepared_code {bs : List Byte} {c : Context} (h : Prepared bs c) (b : Byte) (hb : b ∈ bs) :
    ∃ i r, c.symlen[i]? = some r ∧ r.sym = b ∧ symAt c.code b = canonicalCode c.symlen i ∧ symAt c.code b ≠ [] := by
  obtain ⟨r, hr, rfl⟩ := List.mem_map.1 (h.bytes b hb)
  obtain ⟨i, hi⟩ := List.mem_iff_getElem?.1 hr
  refine ⟨i, r, hi, rfl, h.codes i r hi, ?_⟩
  intro he
  have h1 := canonicalCode_length _ _ _ hi
  rw [← h.codes i r hi, he] at h1
  have h2 := h.coded.lenPos r hr
  simp at h1
  omega

/-! ### The stream of an encode -/

/-- The bits an encode of `bs` appends to OS before its flush: header, then content (R80, R181). -/
def encodedBits (bs : List Byte) : BitString :=
  bytesBits (Context.clean.prepared bs).headerBytes ++ (Context.clean.prepared bs).headed.content bs

theorem prepared_nil : Context.clean.prepared [] = Context.clean.counted [] := by
  rw [Context.prepared, if_pos ((counted_noneSeen_iff [] (by decide)).2 rfl)]

theorem encodedBits_nil : encodedBits [] = bytesBits emptyForm := by
  have h1 : (Context.clean.counted []).phase = .counted := rfl
  rw [encodedBits, prepared_nil, Context.headerBytes, if_pos h1, Context.content, Context.headed, if_pos (by simp [h1]),
    List.append_nil]

theorem encodedBits_raw {bs : List Byte} (h : Prepared bs (Context.clean.prepared bs))
    (hd : (Context.clean.prepared bs).disable = true) :
    encodedBits bs = bytesBits (rawHeader (Context.clean.prepared bs)) ++ bytesBits bs := by
  rw [encodedBits, Context.headerBytes, if_neg (by rw [h.phase]; decide), if_pos hd, Context.content, Context.headed,
    if_neg (by simp [h.phase, h.empty]), if_pos hd]

theorem encodedBits_huffman {bs : List Byte} (h : Prepared bs (Context.clean.prepared bs))
    (hd : (Context.clean.prepared bs).disable = false) :
    encodedBits bs = bytesBits (huffmanHeader (Context.clean.prepared bs)) ++
      (List.replicate (Context.clean.prepared bs).pad.toNat false ++ bs.flatMap (symAt (Context.clean.prepared bs).code)) := by
  have h1 : ¬ ((Context.clean.prepared bs).headed.empty = true) := by simp [Context.headed, h.phase, h.empty]
  have h2 : ¬ ((Context.clean.prepared bs).headed.disable = true) := by simp [Context.headed, hd]
  rw [encodedBits, Context.headerBytes, if_neg (by rw [h.phase]; decide), if_neg (by simp [hd]), Context.content,
    if_neg h1, if_neg h2]
  rfl

/-- The stream an encode writes is a whole number of bytes (R48, R117). -/
theorem encodedBits_length (bs : List Byte) (h : bs.length < 2 ^ 32) : (encodedBits bs).length % 8 = 0 := by
  by_cases hne : bs = []
  · subst hne
    rw [encodedBits_nil, bytesBits_length]
    omega
  · have hp := prepared_spec bs h hne
    cases hd : (Context.clean.prepared bs).disable with
    | true =>
      rw [encodedBits_raw hp hd, List.length_append, bytesBits_length, bytesBits_length]
      omega
    | false =>
      have := hp.pad.2
      rw [encodedBits_huffman hp hd, List.length_append, List.length_append, bytesBits_length, List.length_replicate]
      omega

theorem exists_bytes (bits : BitString) (h : bits.length % 8 = 0) : ∃ bs, bits = bytesBits bs := by
  have key : ∀ (n : Nat) (bits : BitString), bits.length = 8 * n → ∃ bs, bits = bytesBits bs := by
    intro n
    induction n with
    | zero =>
      intro bits hb
      rw [Nat.mul_zero, List.length_eq_zero_iff] at hb
      exact ⟨[], hb⟩
    | succ n ih =>
      intro bits hb
      obtain ⟨b, r, rfl⟩ := exists_byte_of_length bits (by omega)
      rw [List.length_append, byteBits_length] at hb
      obtain ⟨bs, rfl⟩ := ih r (by omega)
      exact ⟨b :: bs, rfl⟩
  exact key (bits.length / 8) bits (by omega)

/-- ENCODE from a clean context onto a byte-aligned OS: OS gains exactly the bytes of the stream (R48,
R181). -/
theorem encodeCall_aligned (s : State) (h : acceptance .encode s = .ok) (hc : s.ctx = Context.clean)
    (hlen : s.io.is.bytes.length < 2 ^ 32) (h0 : s.io.os.nacc = 0) (hw : s.io.os.wf) :
    ∃ out, bytesBits out = encodedBits s.io.is.bytes ∧ (encodeCall s).err = .ok ∧
      (encodeCall s).io.os = { s.io.os with bytes := s.io.os.bytes ++ out } := by
  obtain ⟨out, ho⟩ := exists_bytes _ (encodedBits_length s.io.is.bytes hlen)
  refine ⟨out, ho.symm, ?_, ?_⟩
  · rw [encodeCall_accepted s h]
  · have h1 : (encodeCall s).io.os = ((s.io.os.wrBytes (Context.clean.prepared s.io.is.bytes).headerBytes).wrBits
        ((Context.clean.prepared s.io.is.bytes).headed.content s.io.is.bytes)).flush := by
      rw [encodeCall_accepted s h, hc]
      rfl
    rw [h1, wrBytes_eq_wrBits, ← wrBits_append]
    have h2 : bytesBits (Context.clean.prepared s.io.is.bytes).headerBytes ++
        (Context.clean.prepared s.io.is.bytes).headed.content s.io.is.bytes = bytesBits out := ho
    rw [h2, ← wrBytes_eq_wrBits, wrBytes_aligned _ _ h0 hw]
    exact flush_aligned _ h0

/-! ### Decoding it -/

theorem loaded_decodable (clen : Word32) (counts : List Byte) (symlen : List SymLen) (pad : Byte)
    (hs : countSum counts = symlen.length) (hr : symlen.length ≤ 256) (ha : lengthsAscend symlen)
    (hl : ∀ r ∈ symlen, 1 ≤ r.len.toNat ∧ r.len.toNat ≤ 16) :
    (Context.clean.loadHeader (.full clen counts symlen pad)).decodable := by
  refine ⟨?_, hr, ha, hl⟩
  have : (Context.clean.loadHeader (.full clen counts symlen pad)).nsym = BitVec.ofNat 9 (countSum counts) := rfl
  rw [this, hs, BitVec.toNat_ofNat, Nat.mod_eq_of_lt (by omega)]
  rfl

/-- DECODE from a clean context on a stream an encode of `bs` wrote: OS gains exactly `bs`, and IS.POS
stands just after the stream (R173, R175). -/
theorem decodeCall_encoded (s : State) (bs : List Byte) (r : BitString) (h : acceptance .decode s = .ok)
    (hc : s.ctx = Context.clean) (hlen : bs.length < 2 ^ 32) (hr : s.io.is.rest = encodedBits bs ++ r) :
    ∃ prog, decodeCall s = { s with
      err := .ok
      io := { is := { s.io.is with pos := s.io.is.pos + (encodedBits bs).length }
              os := s.io.os.wrBytes bs
              prog := prog } } := by
  by_cases hne : bs = []
  · subst hne
    have hread := rdHeader_empty s.io.is r (by rw [hr, encodedBits_nil])
    rcases decodeCall_cases s h with ⟨e, is, h1, _⟩ | ⟨hd, is, h1, h2⟩
    · rw [hread] at h1
      cases h1
    · rw [hread] at h1
      cases h1
      rw [hc] at h2
      rcases h2 with ⟨_, h3, _, _⟩ | ⟨c, h3, h4⟩
      · cases h3
      · rcases h3 with ⟨rfl, _⟩ | ⟨_, h3, _⟩
        · have hcont := decodeContent_empty { s with
            ctx := Context.clean.loadHeader .empty
            io := { s.io with is := { s.io.is with pos := s.io.is.pos + 24 }, prog := s.io.prog ++ [Config.progHdrUnits] }
            err := .ok } rfl
          rcases h4 with ⟨t, h4, h5⟩ | ⟨e, t, h4, h5⟩
          · rw [hcont] at h4
            cases h4
            refine ⟨s.io.prog ++ [Config.progHdrUnits], ?_⟩
            rw [h5, encodedBits_nil, bytesBits_length, hc, wrBytes_nil]
            rfl
          · rw [hcont] at h4
            cases h4
        · cases h3
  · have hp := prepared_spec bs hlen hne
    cases hd : (Context.clean.prepared bs).disable with
    | true =>
      have hbits := encodedBits_raw hp hd
      rw [hbits, List.append_assoc] at hr
      have hread := rdHeader_raw s.io.is (Context.clean.prepared bs).clen _ hr
      have hrest := rest_skip 40 hr (by rw [bytesBits_length]; rfl)
      rcases decodeCall_cases s h with ⟨e, is, h1, _⟩ | ⟨hd', is, h1, h2⟩
      · rw [hread] at h1
        cases h1
      · rw [hread] at h1
        cases h1
        rw [hc] at h2
        rcases h2 with ⟨h3, _⟩ | ⟨c, h3, h4⟩
        · cases h3
        · rcases h3 with ⟨rfl, _⟩ | ⟨h3, _⟩
          · have hcont := decodeContent_raw { s with
              ctx := Context.clean.loadHeader (.raw (Context.clean.prepared bs).clen)
              io := { s.io with is := { s.io.is with pos := s.io.is.pos + 40 }, prog := s.io.prog ++ [Config.progHdrUnits] }
              err := .ok } bs r rfl rfl hp.clen.symm hrest
            rcases h4 with ⟨t, h4, h5⟩ | ⟨e, t, h4, h5⟩
            · rw [hcont] at h4
              cases h4
              refine ⟨s.io.prog ++ [Config.progHdrUnits] ++ List.replicate bs.length 1, ?_⟩
              rw [h5, hbits, hc, List.length_append, bytesBits_length, bytesBits_length]
              have hl40 : (rawHeader (Context.clean.prepared bs)).length = 5 := rfl
              have hpos : s.io.is.pos + (8 * (rawHeader (Context.clean.prepared bs)).length + 8 * bs.length)
                  = s.io.is.pos + 40 + 8 * bs.length := by omega
              rw [hpos]
              rfl
            · rw [hcont] at h4
              cases h4
          · cases h3
    | false =>
      have hbits := encodedBits_huffman hp hd
      obtain ⟨hlens, hcnts⟩ := hp.enabled hd
      have ha := canonical_ascends hp.coded.canonical
      rw [hbits, List.append_assoc] at hr
      obtain ⟨hread, hsum⟩ := huffmanHeader_reads _ hp.nsym hp.coded.room.2 ha hlens hcnts s.io.is _ hr
      have hrest := rest_skip _ hr rfl
      have hdec := loaded_decodable (Context.clean.prepared bs).clen (countBytes (Context.clean.prepared bs).lcnt)
        (Context.clean.prepared bs).symlen (Context.clean.prepared bs).pad hsum hp.coded.room.2 ha hlens
      rcases decodeCall_cases s h with ⟨e, is, h1, _⟩ | ⟨hd', is, h1, h2⟩
      · rw [hread] at h1
        cases h1
      · rw [hread] at h1
        cases h1
        rw [hc] at h2
        have hspace := hp.coded.space fun r hr => (hlens r hr).2
        have htree : ∃ t n, rebuildTree (Context.clean.loadHeader (.full (Context.clean.prepared bs).clen
            (countBytes (Context.clean.prepared bs).lcnt) (Context.clean.prepared bs).symlen
            (Context.clean.prepared bs).pad)) = some (t, n) ∧ PlacedAll (Context.clean.prepared bs).symlen 16 t n := by
          rcases rebuildTree_spec _ hdec with ⟨_, h3, h4⟩ | ⟨t, n, h3, h4, _⟩
          · rcases hspace with h5 | h5
            · exact absurd h5 h3
            · exact absurd h5 h4
          · exact ⟨t, n, h3, h4⟩
        obtain ⟨t, n, ht, hplaced⟩ := htree
        rcases h2 with ⟨_, _, h3, _⟩ | ⟨c, h3, h4⟩
        · exact absurd (ht.symm.trans h3) (by simp)
        · rcases h3 with ⟨_, h3 | h3⟩ | ⟨_, _, t', n', h3, rfl⟩
          · cases h3
          · cases h3
          · have he := ht.symm.trans h3
            simp only [Option.some.injEq, Prod.mk.injEq] at he
            obtain ⟨rfl, rfl⟩ := he
            have hpaths : ∀ b ∈ bs, symAt (Context.clean.prepared bs).code b ≠ [] ∧
                t.hasPath (symAt (Context.clean.prepared bs).code b) b := by
              intro b hb
              obtain ⟨i, r', hi, hrb, hcd, hnn⟩ := prepared_code hp b hb
              refine ⟨hnn, ?_⟩
              obtain ⟨j, hj⟩ := hplaced.paths i r' hi
              rw [hcd]
              exact ⟨j, 0, hrb ▸ hj⟩
            have hcont := decodeContent_codes { s with
              ctx := { Context.clean.loadHeader (.full (Context.clean.prepared bs).clen
                (countBytes (Context.clean.prepared bs).lcnt) (Context.clean.prepared bs).symlen
                (Context.clean.prepared bs).pad) with root := t, nodeCnt := BitVec.ofNat 9 n, phase := .rebuilt }
              io := { s.io with
                is := { s.io.is with pos := s.io.is.pos + (bytesBits (huffmanHeader (Context.clean.prepared bs))).length }
                prog := s.io.prog ++ [Config.progHdrUnits] }
              err := .ok } (symAt (Context.clean.prepared bs).code) bs
              (List.replicate (Context.clean.prepared bs).pad.toNat false) r rfl rfl (List.length_replicate ..)
              hp.clen.symm hpaths (by rw [← List.append_assoc]; exact hrest)
            rcases h4 with ⟨u, h4, h5⟩ | ⟨e, u, h4, h5⟩
            · have h6 := hcont.symm.trans h4
              simp only [EStateM.Result.ok.injEq, true_and] at h6
              rw [h5, ← h6, hc, hbits]
              refine ⟨s.io.prog ++ [Config.progHdrUnits] ++ List.replicate (ticks 0
                ((List.replicate (Context.clean.prepared bs).pad.toNat false).length +
                  (bs.flatMap (symAt (Context.clean.prepared bs).code)).length)) 1, ?_⟩
              simp only [State.decoded, State.consume, List.length_append, Nat.add_assoc]
            · exact absurd (hcont.symm.trans h4) (by simp)

end Sys2Proof.Machine
end

