-- ==== Sys2Proof/Laws/Optimal.lean ====
section
/-!
SUPPORT. Laws of the merge order of BUILD: the loop pops the two smallest entries each time (R102, R103), and no full
tree over the same leaves has a smaller weighted path length (R105).
-/

namespace Sys2Proof.Machine

/-! ### The merge order -/

theorem popMin_isMin {q r : List Entry} {m : Entry} (hn : (q.map Entry.seq).Nodup) (h : popMin q = some (m, r)) :
    IsMin m q r := by
  have hp := popMin_perm h
  refine ⟨hp, ?_⟩
  intro x hx
  have hl := popMin_least h x hx
  have hne : m.seq ≠ x.seq := by
    have hn' := (hp.map Entry.seq).nodup_iff.1 hn
    rw [List.map_cons, List.nodup_cons] at hn'
    exact fun he => hn'.1 (he ▸ List.mem_map_of_mem hx)
  simp only [Entry.before, Config.tieBreak, Bool.or_eq_false_iff, Bool.and_eq_false_iff, decide_eq_false_iff_not] at hl
  omega

theorem mergeLoop_merges (k : Nat) (q : List Entry) (n : Nat) (h1 : 1 ≤ q.length) (h2 : q.length ≤ k + 1)
    (hn : (q.map Entry.seq).Nodup) (hb : ∀ e ∈ q, e.seq < n) :
    ∃ e, (mergeLoop k q n).1 = [e] ∧ Merges q n e.node := by
  induction k generalizing q n with
  | zero =>
    obtain ⟨e, rfl⟩ := List.length_eq_one_iff.1 (show q.length = 1 by omega)
    exact ⟨e, rfl, .root e n⟩
  | succ k ih =>
    cases hp : popMin q with
    | none =>
      rw [popMin_none] at hp
      subst hp
      simp at h1
    | some p =>
      obtain ⟨a, q1⟩ := p
      have hl1 := popMin_length hp
      cases hp2 : popMin q1 with
      | none =>
        rw [popMin_none] at hp2
        subst hp2
        obtain ⟨e, rfl⟩ := List.length_eq_one_iff.1 (show q.length = 1 by simpa using hl1)
        exact ⟨e, by simp [mergeLoop, popMin], .root e n⟩
      | some p2 =>
        obtain ⟨b, q2⟩ := p2
        have hl2 := popMin_length hp2
        have hperm := popMin_perm hp
        have hperm2 := popMin_perm hp2
        have hn1 : ((a :: q1).map Entry.seq).Nodup := (hperm.map Entry.seq).nodup_iff.1 hn
        rw [List.map_cons, List.nodup_cons] at hn1
        have hn2 : ((b :: q2).map Entry.seq).Nodup := (hperm2.map Entry.seq).nodup_iff.1 hn1.2
        rw [List.map_cons, List.nodup_cons] at hn2
        have hmem : ∀ e ∈ q2, e ∈ q := fun e he => hperm.mem_iff.2 (by simp [hperm2.mem_iff, he])
        obtain ⟨e, he1, he2⟩ := ih (mergedEntry a b n :: q2) (n + 1) (by simp) (by simp only [List.length_cons]; omega)
          (by
            rw [List.map_cons, List.nodup_cons]
            refine ⟨?_, hn2.2⟩
            intro hm
            obtain ⟨x, hx, hxe⟩ := List.mem_map.1 hm
            have := hb x (hmem x hx)
            simp only [mergedEntry] at hxe
            omega)
          (by
            intro x hx
            rcases List.mem_cons.1 hx with rfl | hx
            · simp [mergedEntry]
            · have := hb x (hmem x hx)
              omega)
        refine ⟨e, ?_, .merge (popMin_isMin hn hp) (popMin_isMin hn1.2 hp2) he2⟩
        rw [← he1]
        simp only [mergeLoop, hp, hp2]
        rfl

theorem leafEntries_seqs (seen : List (Byte × Word32)) (n : Nat) :
    (leafEntries n seen).map Entry.seq = List.range' n seen.length := by
  induction seen generalizing n with
  | nil => rfl
  | cons p seen ih =>
    obtain ⟨s, f⟩ := p
    rw [leafEntries, List.map_cons, ih, List.length_cons, List.range'_succ]

/-- BUILD's tree is what the merge loop of R102 makes of the leaves of R101. -/
theorem buildTree_merges (freq : SymbolTable Word32) (h : seenSymbols freq ≠ []) :
    Merges (leafEntries 0 (seenSymbols freq)) (seenSymbols freq).length (buildTree freq).1 := by
  have hl : (leafEntries 0 (seenSymbols freq)).length = (seenSymbols freq).length :=
    (leafEntries_merging (seenSymbols freq)).2
  have hpos : 1 ≤ (seenSymbols freq).length := List.length_pos_iff.2 h
  have hs := leafEntries_seqs (seenSymbols freq) 0
  obtain ⟨e, h1, h2⟩ := mergeLoop_merges (leafEntries 0 (seenSymbols freq)).length (leafEntries 0 (seenSymbols freq))
    (leafEntries 0 (seenSymbols freq)).length (by omega) (by omega) (by rw [hs]; exact List.nodup_range')
    (by
      intro x hx
      have : x.seq ∈ List.range' 0 (seenSymbols freq).length := by
        rw [← hs]
        exact List.mem_map_of_mem hx
      have := List.mem_range'_1.1 this
      omega)
  have htree : (buildTree freq).1 = e.node := by
    simp only [buildTree]
    rw [h1]
    rfl
  rw [htree, ← hl]
  exact h2

/-! ### Depths that fit a code space -/

/-- The code space a list of (weight, depth) pairs uses, in units of `2^(-M)`. -/
def pairSpace (M : Nat) (ps : List (Nat × Nat)) : Nat := (ps.map fun p => 2 ^ (M - p.2)).sum

/-- The sum of weight times depth. -/
def pairCost (ps : List (Nat × Nat)) : Nat := (ps.map fun p => p.1 * p.2).sum

theorem mul_swap_le {a x d e : Nat} (hax : a ≤ x) (hed : e ≤ d) : x * e + a * d ≤ a * e + x * d := by
  obtain ⟨u, rfl⟩ := Nat.le.dest hax
  obtain ⟨v, rfl⟩ := Nat.le.dest hed
  have : a * e + (a + u) * (e + v) = (a + u) * e + a * (e + v) + u * v := by ring
  omega

/-- Moving the smallest weight to the deepest place does not raise the cost. -/
theorem exchange (x d a : Nat) (ws : List Nat) (R : List (Nat × Nat)) (hp : (x :: R.map Prod.fst).Perm (a :: ws))
    (ha : ∀ w ∈ ws, a ≤ w) (hd : ∀ p ∈ R, p.2 ≤ d) :
    ∃ R' : List (Nat × Nat), (R'.map Prod.fst).Perm ws ∧ R'.map Prod.snd = R.map Prod.snd ∧
      pairCost R' + a * d ≤ pairCost R + x * d := by
  by_cases hx : x = a
  · subst hx
    exact ⟨R, List.Perm.cons_inv hp, rfl, Nat.le_refl _⟩
  · have hmem : a ∈ x :: R.map Prod.fst := hp.mem_iff.2 (by simp)
    have hR : a ∈ R.map Prod.fst := (List.mem_cons.1 hmem).resolve_left fun h => hx h.symm
    obtain ⟨⟨a', e⟩, hpe, rfl⟩ := List.mem_map.1 hR
    obtain ⟨R1, R2, rfl⟩ := List.append_of_mem hpe
    have hxw : x ∈ ws := by
      have : x ∈ a' :: ws := hp.mem_iff.1 (by simp)
      exact (List.mem_cons.1 this).resolve_left hx
    have hed := hd _ hpe
    refine ⟨R1 ++ (x, e) :: R2, ?_, by simp, ?_⟩
    · simp only [List.map_append, List.map_cons] at hp ⊢
      have h1 : (a' :: (R1.map Prod.fst ++ x :: R2.map Prod.fst)).Perm (a' :: ws) := by
        refine List.Perm.trans ?_ hp
        refine (List.Perm.cons a' List.perm_middle).trans ?_
        refine (List.Perm.swap x a' _).trans ?_
        exact (List.Perm.cons x List.perm_middle.symm)
      exact List.Perm.cons_inv h1
    · have := mul_swap_le (ha x hxw) hed
      simp only [pairCost, List.map_append, List.map_cons, List.sum_append, List.sum_cons] at *
      omega

theorem exists_sorted_depths (ps : List (Nat × Nat)) :
    ∃ qs : List (Nat × Nat), ps.Perm qs ∧ qs.Pairwise fun p q => q.2 ≤ p.2 := by
  induction ps with
  | nil => exact ⟨[], List.Perm.refl _, List.Pairwise.nil⟩
  | cons p ps ih =>
    obtain ⟨qs, h1, h2⟩ := ih
    have key : ∀ qs : List (Nat × Nat), (qs.Pairwise fun p q => q.2 ≤ p.2) →
        ∃ rs : List (Nat × Nat), (p :: qs).Perm rs ∧ rs.Pairwise fun p q => q.2 ≤ p.2 := by
      intro qs
      induction qs with
      | nil => exact fun _ => ⟨[p], List.Perm.refl _, List.pairwise_singleton _ _⟩
      | cons q qs ihq =>
        intro hs
        have hs' := List.pairwise_cons.1 hs
        by_cases hpq : q.2 ≤ p.2
        · refine ⟨p :: q :: qs, List.Perm.refl _, List.pairwise_cons.2 ⟨?_, hs⟩⟩
          intro y hy
          rcases List.mem_cons.1 hy with rfl | hy
          · exact hpq
          · exact (hs'.1 y hy).trans hpq
        · obtain ⟨rs, h3, h4⟩ := ihq hs'.2
          refine ⟨q :: rs, (List.Perm.swap _ _ _).trans (h3.cons q), List.pairwise_cons.2 ⟨?_, h4⟩⟩
          intro y hy
          have := h3.mem_iff.2 hy
          rcases List.mem_cons.1 this with rfl | hy
          · omega
          · exact hs'.1 y hy
    obtain ⟨rs, h3, h4⟩ := key qs h2
    exact ⟨rs, (h1.cons p).trans h3, h4⟩

theorem pairSpace_perm {M : Nat} {ps qs : List (Nat × Nat)} (h : ps.Perm qs) : pairSpace M ps = pairSpace M qs :=
  (h.map _).sum_eq

theorem pairCost_perm {ps qs : List (Nat × Nat)} (h : ps.Perm qs) : pairCost ps = pairCost qs := (h.map _).sum_eq

theorem pairSpace_snd (M : Nat) {ps qs : List (Nat × Nat)} (h : ps.map Prod.snd = qs.map Prod.snd) :
    pairSpace M ps = pairSpace M qs := by
  have e : ∀ rs : List (Nat × Nat), pairSpace M rs = ((rs.map Prod.snd).map fun d => 2 ^ (M - d)).sum := by
    intro rs
    rw [pairSpace, List.map_map]
    rfl
  rw [e, e, h]

theorem mem_snd {ps qs : List (Nat × Nat)} (h : ps.map Prod.snd = qs.map Prod.snd) {D : Nat} (hd : ∀ p ∈ qs, p.2 ≤ D) :
    ∀ p ∈ ps, p.2 ≤ D := by
  intro p hp
  have : p.2 ∈ qs.map Prod.snd := h ▸ List.mem_map_of_mem hp
  obtain ⟨q, hq, hqe⟩ := List.mem_map.1 this
  rw [← hqe]
  exact hd q hq

/-- Merging the two smallest weights: whatever depths fit the code space, depths for the merged weights fit
it too, at a cost smaller by the merged weight. -/
theorem merge_pairs (M a b : Nat) (ws : List Nat) (ps : List (Nat × Nat)) (hp : (ps.map Prod.fst).Perm (a :: b :: ws))
    (ha : ∀ w ∈ b :: ws, a ≤ w) (hb : ∀ w ∈ ws, b ≤ w) (hM : ∀ p ∈ ps, p.2 ≤ M) (hk : pairSpace M ps ≤ 2 ^ M) :
    ∃ qs : List (Nat × Nat), (qs.map Prod.fst).Perm ((a + b) :: ws) ∧ (∀ p ∈ qs, p.2 ≤ M) ∧ pairSpace M qs ≤ 2 ^ M ∧
      pairCost qs + (a + b) ≤ pairCost ps := by
  obtain ⟨rs, hrs, hsort⟩ := exists_sorted_depths ps
  rw [pairSpace_perm hrs] at hk
  rw [pairCost_perm hrs]
  have hp' := (hrs.map Prod.fst).symm.trans hp
  have hM' : ∀ p ∈ rs, p.2 ≤ M := fun p h => hM p (hrs.mem_iff.2 h)
  have hlen : 2 ≤ rs.length := by
    have := hp'.length_eq
    simp only [List.length_map, List.length_cons] at this
    omega
  match rs, hlen with
  | (x, d1) :: (y, d2) :: R, _ =>
    have hs1 := List.pairwise_cons.1 hsort
    have hs2 := List.pairwise_cons.1 hs1.2
    have hd12 : d2 ≤ d1 := hs1.1 (y, d2) (by simp)
    -- the smallest weight goes to the first place
    obtain ⟨R1, h1, h2, h3⟩ := exchange x d1 a (b :: ws) ((y, d2) :: R) hp' ha hs1.1
    match R1, h1, h2, h3 with
    | [], _, h2, _ => simp at h2
    | (y', d2') :: R1, h1, h2', h3 =>
      rw [List.map_cons, List.map_cons, List.cons.injEq] at h2'
      obtain ⟨hd2, htail⟩ := h2'
      simp only at hd2
      subst hd2
      have hR1 : ∀ p ∈ R1, p.2 ≤ d2' := mem_snd htail hs2.1
      -- the next smallest to the second
      obtain ⟨R2, h4, h5, h6⟩ := exchange y' d2' b ws R1 h1 hb hR1
      have hR2 : ∀ p ∈ R2, p.2 ≤ d2' := mem_snd h5 hR1
      have hd1M := hM' (x, d1) (by simp)
      have hd2M := hM' (y, d2') (by simp)
      simp only [pairSpace, List.map_cons, List.sum_cons] at hk
      have hsp : (R.map fun p => 2 ^ (M - p.2)).sum = pairSpace M R2 := (pairSpace_snd M (h5.trans htail)).symm
      rw [hsp] at hk
      -- everything is a multiple of the unit at depth d2
      have hdvd : 2 ^ (M - d2') ∣ pairSpace M R2 := by
        apply List.dvd_sum
        intro v hv
        obtain ⟨p, hpR, rfl⟩ := List.mem_map.1 hv
        exact Nat.pow_dvd_pow 2 (by have := hR2 p hpR; omega)
      have hpow : 2 ^ M = 2 ^ (M - d2') * 2 ^ d2' := by rw [← Nat.pow_add]; congr 1; simp only at hd2M; omega
      have hpos1 := Nat.two_pow_pos (M - d1)
      obtain ⟨c, hc⟩ := hdvd
      have hu := Nat.two_pow_pos (M - d2')
      have hlt : 2 ^ (M - d2') * (c + 1) < 2 ^ (M - d2') * 2 ^ d2' := by
        rw [← hpow, Nat.mul_add, ← hc, Nat.mul_one]
        omega
      have hc1 : c + 1 < 2 ^ d2' := Nat.lt_of_mul_lt_mul_left hlt
      have hd2pos : 1 ≤ d2' := by
        by_contra h0
        have : d2' = 0 := by omega
        subst this
        simp at hc1
      have htwo : 2 ^ (M - (d2' - 1)) = 2 * 2 ^ (M - d2') := by
        have : M - (d2' - 1) = (M - d2') + 1 := by simp only at hd2M; omega
        rw [this, Nat.pow_succ, Nat.mul_comm]
      refine ⟨(a + b, d2' - 1) :: R2, by rw [List.map_cons]; exact h4.cons _, ?_, ?_, ?_⟩
      · intro p hpm
        rcases List.mem_cons.1 hpm with rfl | hpm
        · simp only at hd2M ⊢
          omega
        · have := hR2 p hpm
          simp only at hd2M
          omega
      · have hle : 2 ^ (M - d2') * (c + 2) ≤ 2 ^ (M - d2') * 2 ^ d2' := Nat.mul_le_mul_left _ hc1
        rw [← hpow, Nat.mul_add, ← hc] at hle
        have hcons : pairSpace M ((a + b, d2' - 1) :: R2) = 2 ^ (M - (d2' - 1)) + pairSpace M R2 := by
          simp [pairSpace]
        rw [hcons, htwo]
        omega
      · simp only [pairCost, List.map_cons, List.sum_cons] at *
        have e1 : a * d2' ≤ a * d1 := Nat.mul_le_mul_left _ hd12
        have e2 : (a + b) * (d2' - 1) + (a + b) = a * d2' + b * d2' := by
          obtain ⟨k, rfl⟩ : ∃ k, d2' = k + 1 := ⟨d2' - 1, by omega⟩
          simp only [Nat.add_sub_cancel]
          ring
        omega

/-! ### Weighted path length -/

/-- The sum of the leaf frequencies, as a natural number. -/
def Node.weight (t : Node) : Nat := (t.leaves.map fun p => p.2.toNat).sum

theorem weight_internal (i : BitVec 9) (l r : Node) (f : Word32) :
    (Node.internal i l r f).weight = l.weight + r.weight := by
  simp [Node.weight, Node.leaves]

theorem weightedPathLength_deeper (t : Node) (d : Nat) :
    t.weightedPathLength (d + 1) = t.weightedPathLength d + t.weight := by
  induction t generalizing d with
  | absent => rfl
  | leaf i s f => simp [Node.weightedPathLength, Node.weight, Node.leaves, Nat.add_mul]
  | internal i l r f hl hr =>
    rw [weight_internal]
    simp only [Node.weightedPathLength, hl, hr]
    omega

/-- The weighted path length from the depths of the leaves (R105, R111). -/
theorem weightedPathLength_leaves (t : Node) (d : Nat) :
    t.weightedPathLength d = pairCost ((t.leaves.zip (leafDepths t d)).map fun p => (p.1.2.toNat, p.2.2)) := by
  induction t generalizing d with
  | absent => rfl
  | leaf i s f => simp [Node.weightedPathLength, Node.leaves, leafDepths, pairCost, Nat.mul_comm]
  | internal i l r f hl hr =>
    simp only [Node.weightedPathLength, Node.leaves, leafDepths, hl, hr]
    rw [List.zip_append (leafDepths_length l (d + 1)).symm]
    simp [pairCost]

/-- Each entry's frequency is its leaves' sum, with no wrap. -/
def Exact (q : List Entry) : Prop := ∀ e ∈ q, e.node.freq.toNat = e.node.weight

theorem merges_optimal {q : List Entry} {n : Nat} {t : Node} (h : Merges q n t) :
    Exact q → (q.map fun e => e.node.weight).sum < 2 ^ 32 →
    ∀ (M : Nat) (ps : List (Nat × Nat)), (ps.map Prod.fst).Perm (q.map fun e => e.node.weight) →
      (∀ p ∈ ps, p.2 ≤ M) → pairSpace M ps ≤ 2 ^ M →
      t.weightedPathLength 0 ≤ (q.map fun e => e.node.weightedPathLength 0).sum + pairCost ps := by
  induction h with
  | root e n =>
    intro _ _ M ps _ _ _
    simp
  | @merge q q1 q2 a b n t h1 h2 hrest ih =>
    intro hex hsum M ps hp hM hk
    have hperm : q.Perm (a :: b :: q2) := h1.1.trans (h2.1.cons a)
    have hmem : ∀ e ∈ q2, e ∈ q := fun e he => hperm.mem_iff.2 (by simp [he])
    have hea := hex a (hperm.mem_iff.2 (by simp))
    have heb := hex b (hperm.mem_iff.2 (by simp))
    have hsum' := (hperm.map fun e => e.node.weight).sum_eq
    simp only [List.map_cons, List.sum_cons] at hsum'
    have hpw : (Node.internal (BitVec.ofNat 9 n) a.node b.node (a.node.freq + b.node.freq)).weight
        = a.node.weight + b.node.weight := weight_internal _ _ _ _
    have hpf : (a.node.freq + b.node.freq).toNat = a.node.weight + b.node.weight := by
      rw [BitVec.toNat_add, hea, heb, Nat.mod_eq_of_lt (by omega)]
    have hex' : Exact (⟨.internal (BitVec.ofNat 9 n) a.node b.node (a.node.freq + b.node.freq), n⟩ :: q2) := by
      intro e he
      rcases List.mem_cons.1 he with rfl | he
      · rw [hpw]
        exact hpf
      · exact hex e (hmem e he)
    have hle : ∀ x ∈ q, ∀ y, y ∈ q → x.node.freq.toNat ≤ y.node.freq.toNat → x.node.weight ≤ y.node.weight := by
      intro x hx y hy hxy
      rw [← hex x hx, ← hex y hy]
      exact hxy
    have hqa : a ∈ q := hperm.mem_iff.2 (by simp)
    have hqb : b ∈ q := hperm.mem_iff.2 (by simp)
    have hmin1 : ∀ w ∈ (b :: q2).map (fun e => e.node.weight), a.node.weight ≤ w := by
      intro w hw
      obtain ⟨e, he, rfl⟩ := List.mem_map.1 hw
      have he1 : e ∈ q1 := h2.1.mem_iff.2 he
      refine hle a hqa e (hperm.mem_iff.2 (List.mem_cons_of_mem _ he)) ?_
      rcases h1.2 e he1 with h | h <;> omega
    have hmin2 : ∀ w ∈ q2.map (fun e => e.node.weight), b.node.weight ≤ w := by
      intro w hw
      obtain ⟨e, he, rfl⟩ := List.mem_map.1 hw
      refine hle b hqb e (hmem e he) ?_
      rcases h2.2 e he with h | h <;> omega
    obtain ⟨qs, hq1, hq2, hq3, hq4⟩ := merge_pairs M a.node.weight b.node.weight
      (q2.map fun e : Entry => e.node.weight) ps (hp.trans (hperm.map fun e : Entry => e.node.weight)) hmin1 hmin2 hM hk
    have := ih hex' (by simp only [List.map_cons, List.sum_cons, hpw]; omega) M qs
      (by simp only [List.map_cons, hpw]; exact hq1) hq2 hq3
    have hw := (hperm.map fun e => e.node.weightedPathLength 0).sum_eq
    have ha1 := weightedPathLength_deeper a.node 0
    have hb1 := weightedPathLength_deeper b.node 0
    simp only [List.map_cons, List.sum_cons, Node.weightedPathLength, Nat.zero_add] at *
    omega

theorem leafEntries_exact (seen : List (Byte × Word32)) (n : Nat) :
    Exact (leafEntries n seen) ∧ ((leafEntries n seen).map fun e => e.node.weight) = seen.map (fun p => p.2.toNat) ∧
    ((leafEntries n seen).map fun e => e.node.weightedPathLength 0).sum = 0 := by
  induction seen generalizing n with
  | nil => exact ⟨(fun e he => by cases he), rfl, rfl⟩
  | cons p seen ih =>
    obtain ⟨s, f⟩ := p
    obtain ⟨h1, h2, h3⟩ := ih (n + 1)
    refine ⟨?_, ?_, ?_⟩
    · intro e he
      rcases List.mem_cons.1 he with rfl | he
      · simp [Node.freq, Node.weight, Node.leaves]
      · exact h1 e he
    · simp only [leafEntries, List.map_cons, h2]
      simp [Node.weight, Node.leaves]
    · simp only [leafEntries, List.map_cons, List.sum_cons, h3, Node.weightedPathLength]
      omega

theorem leafDepths_deep (t : Node) (d : Nat) : ∀ p ∈ leafDepths t d, d ≤ p.2 := by
  induction t generalizing d with
  | absent => exact fun p hp => by cases hp
  | leaf i s f =>
    intro p hp
    rw [List.mem_singleton.1 hp]
  | internal i l r f hl hr =>
    intro p hp
    rcases List.mem_append.1 hp with hp | hp
    · exact Nat.le_of_succ_le (hl (d + 1) p hp)
    · exact Nat.le_of_succ_le (hr (d + 1) p hp)

/-- In any tree, one-child nodes allowed, the leaves take at most the whole code space. -/
theorem leafDepths_kraft_le (t : Node) (d M : Nat) (hM : ∀ p ∈ leafDepths t d, p.2 ≤ M) :
    ((leafDepths t d).map fun p => 2 ^ (M - p.2)).sum ≤ 2 ^ (M - d) := by
  induction t generalizing d with
  | absent => simp [leafDepths]
  | leaf i s f => simp [leafDepths]
  | internal i l r f hl hr =>
    simp only [leafDepths, List.mem_append] at hM
    have h1 := hl (d + 1) fun p hp => hM p (.inl hp)
    have h2 := hr (d + 1) fun p hp => hM p (.inr hp)
    simp only [leafDepths, List.map_append, List.sum_append]
    by_cases hd : d + 1 ≤ M
    · have e : M - d = M - (d + 1) + 1 := by omega
      rw [e, Nat.pow_succ]
      omega
    · have none : ∀ t : Node, (∀ p ∈ leafDepths t (d + 1), p.2 ≤ M) → leafDepths t (d + 1) = [] := fun t ht =>
        List.eq_nil_iff_forall_not_mem.2 fun p hp => by
          have := leafDepths_deep t (d + 1) p hp
          have := ht p hp
          omega
      rw [none l fun p hp => hM p (.inl hp), none r fun p hp => hM p (.inr hp)]
      exact Nat.zero_le _

/-- No tree over the same leaves, one-child nodes allowed, has a smaller weighted path length than BUILD's, when the counts sum
to less than 2^32 (R105). -/
theorem buildTree_optimal (freq : SymbolTable Word32) (h : seenSymbols freq ≠ [])
    (hsum : ((seenSymbols freq).map fun p => p.2.toNat).sum < 2 ^ 32) (t : Node)
    (hl : t.leaves.Perm (seenSymbols freq)) :
    (buildTree freq).1.weightedPathLength 0 ≤ t.weightedPathLength 0 := by
  obtain ⟨h1, h2, h3⟩ := leafEntries_exact (seenSymbols freq) 0
  let M := ((leafDepths t 0).map Prod.snd).sum
  have hM : ∀ p ∈ leafDepths t 0, p.2 ≤ M := fun p hp => List.single_le_sum (by simp) _ (List.mem_map_of_mem hp)
  have hlen := leafDepths_length t 0
  let ps := (t.leaves.zip (leafDepths t 0)).map fun p => (p.1.2.toNat, p.2.2)
  have hfst : ps.map Prod.fst = t.leaves.map fun p => p.2.toNat := by
    have : ps.map Prod.fst = ((t.leaves.zip (leafDepths t 0)).map Prod.fst).map fun p => p.2.toNat := by
      simp [ps, List.map_map, Function.comp_def]
    rw [this, List.map_fst_zip (by omega)]
  have hsnd : ps.map Prod.snd = (leafDepths t 0).map Prod.snd := by
    have : ps.map Prod.snd = ((t.leaves.zip (leafDepths t 0)).map Prod.snd).map Prod.snd := by
      simp [ps, List.map_map, Function.comp_def]
    rw [this, List.map_snd_zip (by omega)]
  have hsp : pairSpace M ps ≤ 2 ^ M := by
    have hk := leafDepths_kraft_le t 0 M hM
    rw [Nat.sub_zero] at hk
    refine Nat.le_trans (Nat.le_of_eq ?_) hk
    rw [pairSpace]
    have e1 : (ps.map fun p => 2 ^ (M - p.2)) = (ps.map Prod.snd).map fun d => 2 ^ (M - d) := by
      exact (List.map_map (l := ps) (f := Prod.snd) (g := fun d => 2 ^ (M - d))).symm
    rw [e1, hsnd, List.map_map]
    rfl
  have hpd : ∀ p ∈ ps, p.2 ≤ M := by
    intro p hp
    have : p.2 ∈ (leafDepths t 0).map Prod.snd := hsnd ▸ List.mem_map_of_mem hp
    obtain ⟨q, hq, hqe⟩ := List.mem_map.1 this
    rw [← hqe]
    exact hM q hq
  have := merges_optimal (buildTree_merges freq h) h1 (by rw [h2]; exact hsum) M ps
    (by rw [hfst, h2]; exact hl.map _) hpd hsp
  rw [h3, Nat.zero_add] at this
  rw [weightedPathLength_leaves t 0]
  exact this

end Sys2Proof.Machine
end

