-- ==== Sys2Proof/Laws/State.lean ====
section
/-!
SUPPORT. One lemma for each field of State and each operation that writes a state whole.
-/

namespace Sys2Proof.Machine

@[simp] theorem cleanup_ctx (s : State) : s.cleanup.ctx = Context.clean := rfl

@[simp] theorem cleanup_err (s : State) : s.cleanup.err = s.err := rfl

@[simp] theorem cleanup_io (s : State) : s.cleanup.io = s.io := rfl

@[simp] theorem cleanup_isValid (s : State) : s.cleanup.isValid = s.isValid := rfl

@[simp] theorem cleanup_osValid (s : State) : s.cleanup.osValid = s.osValid := rfl

@[simp] theorem cleanup_pending (s : State) : s.cleanup.pending = s.pending := rfl

@[simp] theorem succeed_ctx (s : State) : s.succeed.ctx = s.ctx := rfl

@[simp] theorem succeed_err (s : State) : s.succeed.err = .ok := rfl

@[simp] theorem succeed_io (s : State) : s.succeed.io = s.io := rfl

@[simp] theorem succeed_isValid (s : State) : s.succeed.isValid = s.isValid := rfl

@[simp] theorem succeed_osValid (s : State) : s.succeed.osValid = s.osValid := rfl

@[simp] theorem succeed_pending (s : State) : s.succeed.pending = s.pending := rfl

@[simp] theorem reject_ctx (s : State) (e : Res) : (s.reject e).ctx = s.ctx := rfl

@[simp] theorem reject_err (s : State) (e : Res) : (s.reject e).err = e := rfl

@[simp] theorem reject_io (s : State) (e : Res) : (s.reject e).io = s.io := rfl

@[simp] theorem reject_isValid (s : State) (e : Res) : (s.reject e).isValid = s.isValid := rfl

@[simp] theorem reject_osValid (s : State) (e : Res) : (s.reject e).osValid = s.osValid := rfl

@[simp] theorem reject_pending (s : State) (e : Res) : (s.reject e).pending = s.pending := rfl

@[simp] theorem raise_ctx (s : State) (e : Res) : (s.raise e).ctx = Context.clean := rfl

@[simp] theorem raise_err (s : State) (e : Res) : (s.raise e).err = e := rfl

@[simp] theorem raise_io (s : State) (e : Res) : (s.raise e).io = s.io := rfl

@[simp] theorem raise_isValid (s : State) (e : Res) : (s.raise e).isValid = s.isValid := rfl

@[simp] theorem raise_osValid (s : State) (e : Res) : (s.raise e).osValid = s.osValid := rfl

@[simp] theorem raise_pending (s : State) (e : Res) : (s.raise e).pending = s.pending := rfl

@[simp] theorem hardwareReset_ctx (s : State) : s.hardwareReset.ctx = Context.clean := rfl

@[simp] theorem hardwareReset_err (s : State) : s.hardwareReset.err = .ok := rfl

@[simp] theorem hardwareReset_io (s : State) : s.hardwareReset.io = s.io := rfl

@[simp] theorem hardwareReset_isValid (s : State) : s.hardwareReset.isValid = s.isValid := rfl

@[simp] theorem hardwareReset_osValid (s : State) : s.hardwareReset.osValid = s.osValid := rfl

@[simp] theorem hardwareReset_pending (s : State) : s.hardwareReset.pending = s.pending := rfl

@[simp] theorem detachInput_ctx (s : State) : (detachInput s).ctx = s.ctx := rfl

@[simp] theorem detachInput_err (s : State) : (detachInput s).err = s.err := rfl

@[simp] theorem detachInput_io (s : State) : (detachInput s).io = s.io := rfl

@[simp] theorem detachInput_isValid (s : State) : (detachInput s).isValid = false := rfl

@[simp] theorem detachInput_osValid (s : State) : (detachInput s).osValid = s.osValid := rfl

@[simp] theorem detachInput_pending (s : State) : (detachInput s).pending = s.pending := rfl

@[simp] theorem detachOutput_ctx (s : State) : (detachOutput s).ctx = s.ctx := rfl

@[simp] theorem detachOutput_err (s : State) : (detachOutput s).err = s.err := rfl

@[simp] theorem detachOutput_io (s : State) : (detachOutput s).io = s.io := rfl

@[simp] theorem detachOutput_isValid (s : State) : (detachOutput s).isValid = s.isValid := rfl

@[simp] theorem detachOutput_osValid (s : State) : (detachOutput s).osValid = false := rfl

@[simp] theorem detachOutput_pending (s : State) : (detachOutput s).pending = s.pending := rfl

@[simp] theorem queueCommand_ctx (s : State) (w : Nat) : (s.queueCommand w).ctx = s.ctx := rfl

@[simp] theorem queueCommand_err (s : State) (w : Nat) : (s.queueCommand w).err = s.err := rfl

@[simp] theorem queueCommand_io (s : State) (w : Nat) : (s.queueCommand w).io = s.io := rfl

@[simp] theorem queueCommand_isValid (s : State) (w : Nat) : (s.queueCommand w).isValid = s.isValid := rfl

@[simp] theorem queueCommand_osValid (s : State) (w : Nat) : (s.queueCommand w).osValid = s.osValid := rfl

@[simp] theorem queueCommand_pending (s : State) (w : Nat) : (s.queueCommand w).pending = .command (BitVec.ofNat 4 w) :: s.pending := rfl

@[simp] theorem ctx_countByte_freq (c : Context) (b : Byte) : (c.countByte b).freq = symPut c.freq b (symAt c.freq b + 1) := rfl

@[simp] theorem ctx_countByte_clen (c : Context) (b : Byte) : (c.countByte b).clen = c.clen + 1 := rfl

@[simp] theorem ctx_countByte_pad (c : Context) (b : Byte) : (c.countByte b).pad = c.pad := rfl

@[simp] theorem ctx_countByte_disable (c : Context) (b : Byte) : (c.countByte b).disable = c.disable := rfl

@[simp] theorem ctx_countByte_symlen (c : Context) (b : Byte) : (c.countByte b).symlen = c.symlen := rfl

@[simp] theorem ctx_countByte_nsym (c : Context) (b : Byte) : (c.countByte b).nsym = c.nsym := rfl

@[simp] theorem ctx_countByte_code (c : Context) (b : Byte) : (c.countByte b).code = c.code := rfl

@[simp] theorem ctx_countByte_root (c : Context) (b : Byte) : (c.countByte b).root = c.root := rfl

@[simp] theorem ctx_countByte_nodeCnt (c : Context) (b : Byte) : (c.countByte b).nodeCnt = c.nodeCnt := rfl

@[simp] theorem ctx_countByte_lcnt (c : Context) (b : Byte) : (c.countByte b).lcnt = c.lcnt := rfl

@[simp] theorem ctx_countByte_maxlen (c : Context) (b : Byte) : (c.countByte b).maxlen = c.maxlen := rfl

@[simp] theorem ctx_countByte_empty (c : Context) (b : Byte) : (c.countByte b).empty = c.empty := rfl

@[simp] theorem ctx_countByte_phase (c : Context) (b : Byte) : (c.countByte b).phase = c.phase := rfl

@[simp] theorem ctx_build_freq (c : Context) : c.build.freq = c.freq := rfl

@[simp] theorem ctx_build_clen (c : Context) : c.build.clen = c.clen := rfl

@[simp] theorem ctx_build_pad (c : Context) : c.build.pad = c.pad := rfl

@[simp] theorem ctx_build_disable (c : Context) : c.build.disable = c.disable := rfl

@[simp] theorem ctx_build_symlen (c : Context) : c.build.symlen = c.symlen := rfl

@[simp] theorem ctx_build_nsym (c : Context) : c.build.nsym = c.nsym := rfl

@[simp] theorem ctx_build_code (c : Context) : c.build.code = c.code := rfl

@[simp] theorem ctx_build_root (c : Context) : c.build.root = (buildTree c.freq).1 := rfl

@[simp] theorem ctx_build_nodeCnt (c : Context) : c.build.nodeCnt = BitVec.ofNat 9 (buildTree c.freq).2 := rfl

@[simp] theorem ctx_build_lcnt (c : Context) : c.build.lcnt = c.lcnt := rfl

@[simp] theorem ctx_build_maxlen (c : Context) : c.build.maxlen = c.maxlen := rfl

@[simp] theorem ctx_build_empty (c : Context) : c.build.empty = c.empty := rfl

@[simp] theorem ctx_build_phase (c : Context) : c.build.phase = .built := rfl

@[simp] theorem ctx_gencode_freq (c : Context) : c.gencode.freq = c.freq := rfl

@[simp] theorem ctx_gencode_clen (c : Context) : c.gencode.clen = c.clen := rfl

@[simp] theorem ctx_gencode_pad (c : Context) : c.gencode.pad = paddingOf c.freq (symlenOf c.root) := rfl

@[simp] theorem ctx_gencode_disable (c : Context) : c.gencode.disable = c.disable := rfl

@[simp] theorem ctx_gencode_symlen (c : Context) : c.gencode.symlen = symlenOf c.root := rfl

@[simp] theorem ctx_gencode_nsym (c : Context) : c.gencode.nsym = BitVec.ofNat 9 (symlenOf c.root).length := rfl

@[simp] theorem ctx_gencode_code (c : Context) : c.gencode.code = assignCodes c.code (symlenOf c.root) := rfl

@[simp] theorem ctx_gencode_root (c : Context) : c.gencode.root = c.root := rfl

@[simp] theorem ctx_gencode_nodeCnt (c : Context) : c.gencode.nodeCnt = c.nodeCnt := rfl

@[simp] theorem ctx_gencode_lcnt (c : Context) : c.gencode.lcnt = c.lcnt := rfl

@[simp] theorem ctx_gencode_maxlen (c : Context) : c.gencode.maxlen = c.maxlen := rfl

@[simp] theorem ctx_gencode_empty (c : Context) : c.gencode.empty = c.empty := rfl

@[simp] theorem ctx_gencode_phase (c : Context) : c.gencode.phase = .coded := rfl

@[simp] theorem ctx_hist_freq (c : Context) : c.hist.freq = c.freq := rfl

@[simp] theorem ctx_hist_clen (c : Context) : c.hist.clen = c.clen := rfl

@[simp] theorem ctx_hist_pad (c : Context) : c.hist.pad = c.pad := rfl

@[simp] theorem ctx_hist_disable (c : Context) : c.hist.disable = c.disable := rfl

@[simp] theorem ctx_hist_symlen (c : Context) : c.hist.symlen = c.symlen := rfl

@[simp] theorem ctx_hist_nsym (c : Context) : c.hist.nsym = c.nsym := rfl

@[simp] theorem ctx_hist_code (c : Context) : c.hist.code = c.code := rfl

@[simp] theorem ctx_hist_root (c : Context) : c.hist.root = c.root := rfl

@[simp] theorem ctx_hist_nodeCnt (c : Context) : c.hist.nodeCnt = c.nodeCnt := rfl

@[simp] theorem ctx_hist_lcnt (c : Context) : c.hist.lcnt = (histogram c.records).1 := rfl

@[simp] theorem ctx_hist_maxlen (c : Context) : c.hist.maxlen = (histogram c.records).2 := rfl

@[simp] theorem ctx_hist_empty (c : Context) : c.hist.empty = c.empty := rfl

@[simp] theorem ctx_hist_phase (c : Context) : c.hist.phase = .histed := rfl

@[simp] theorem ctx_policy_freq (c : Context) : c.policy.freq = c.freq := rfl

@[simp] theorem ctx_policy_clen (c : Context) : c.policy.clen = c.clen := rfl

@[simp] theorem ctx_policy_pad (c : Context) : c.policy.pad = c.pad := rfl

@[simp] theorem ctx_policy_disable (c : Context) : c.policy.disable = (c.tooLong || c.allEqual) := rfl

@[simp] theorem ctx_policy_symlen (c : Context) : c.policy.symlen = c.symlen := rfl

@[simp] theorem ctx_policy_nsym (c : Context) : c.policy.nsym = c.nsym := rfl

@[simp] theorem ctx_policy_code (c : Context) : c.policy.code = c.code := rfl

@[simp] theorem ctx_policy_root (c : Context) : c.policy.root = c.root := rfl

@[simp] theorem ctx_policy_nodeCnt (c : Context) : c.policy.nodeCnt = c.nodeCnt := rfl

@[simp] theorem ctx_policy_lcnt (c : Context) : c.policy.lcnt = c.lcnt := rfl

@[simp] theorem ctx_policy_maxlen (c : Context) : c.policy.maxlen = c.maxlen := rfl

@[simp] theorem ctx_policy_empty (c : Context) : c.policy.empty = c.empty := rfl

@[simp] theorem ctx_policy_phase (c : Context) : c.policy.phase = .policed := rfl

end Sys2Proof.Machine
end

