-- ==== Sys2Proof/Laws/Step.lean ====
section
/-!
SUPPORT. Laws of a step: what it does for each host action, and the ways attaching a stream can end.
-/

namespace Sys2Proof.Machine

/-- With nothing queued the block waits (R212). -/
theorem step_idle {s : State} (h : s.pending = []) : step s = .next s := by
  simp [step, runNext, h]

theorem step_action {s : State} {a : HostAction} {rest : List HostAction} (h : s.pending = a :: rest) :
    step s = runAction a { s with pending := rest } := by
  simp [step, runNext, h]

/-- A queued command word runs the command it selects (R23, R72). -/
theorem step_command {s : State} {op : BitVec 4} {rest : List HostAction} (h : s.pending = .command op :: rest) :
    step s = .next (run (decodeOp op) { s with pending := rest }) := by
  rw [step_action h, runAction, exec_eq]

/-- Every way a step can answer a next state. -/
theorem step_next_cases {s t : State} (h : step s = .next t) :
    (s.pending = [] ∧ t = s) ∨
    ∃ a rest, s.pending = a :: rest ∧ runAction a { s with pending := rest } = .next t := by
  cases hp : s.pending with
  | nil =>
    rw [step_idle hp] at h
    cases h
    exact .inl ⟨rfl, rfl⟩
  | cons a rest =>
    rw [step_action hp] at h
    exact .inr ⟨a, rest, rfl, h⟩

/-- Attaching an input stream: only one the spec allows, and during an encode only one with the same bytes
(R24, R223). -/
theorem attachInput_next {is : IStream} {s t : State} (h : attachInput is s = .next t) :
    cursorOk is.bytes.length is.pos = true ∧ (s.ctx.phase.encoding = true → is.bytes = s.io.is.bytes) ∧
      t = { s with io := { s.io with is := is }, isValid := true } := by
  unfold attachInput at h
  by_cases h1 : cursorOk is.bytes.length is.pos = true
  · by_cases h2 : (s.ctx.phase.encoding && !decide (is.bytes = s.io.is.bytes)) = true
    · simp [h1, h2] at h
    · simp only [h1, Bool.not_true, Bool.false_eq_true, if_false, h2] at h
      cases h
      refine ⟨h1, ?_, rfl⟩
      intro h3
      rw [h3] at h2
      simpa using h2
  · simp [h1] at h

theorem attachOutput_next {os : OStream} {s t : State} (h : attachOutput os s = .next t) :
    os.wf ∧ t = { s with io := { s.io with os := os }, osValid := true } := by
  unfold attachOutput at h
  by_cases h1 : accumulatorOk os.acc os.nacc = true
  · simp only [h1, Bool.not_true, Bool.false_eq_true, if_false] at h
    cases h
    exact ⟨h1, rfl⟩
  · simp [h1] at h

end Sys2Proof.Machine
end

