-- ==== Sys2Proof/Laws/Invariant.lean ====
section
/-!
SUPPORT. What the invariant says phase by phase, and the lemmas by which a step keeps it.
-/

namespace Sys2Proof.Machine

/-! ### Headers that RDHDR lets pass -/

theorem rdBytes_length {n : Nat} {is js : IStream} {bs : List Byte} (h : rdBytes n is = .ok bs js) : bs.length = n := by
  induction n generalizing is bs with
  | zero =>
    cases h
    rfl
  | succ n ih =>
    rw [rdBytes] at h
    obtain ⟨b, ks, _, h2⟩ := bind_eq_ok.1 h
    obtain ⟨cs, ls, h3, h4⟩ := bind_eq_ok.1 h2
    cases h4
    rw [List.length_cons, ih h3]

theorem rdSymbols_buckets {counts : List Byte} {L : Nat} {is js : IStream} {rs : List SymLen}
    (h : rdSymbols L counts is = .ok rs js) :
    ∃ syms, syms.length = countSum counts ∧ rs = bucketRecords L counts syms := by
  induction counts generalizing L is rs with
  | nil =>
    cases h
    exact ⟨[], rfl, rfl⟩
  | cons n counts ih =>
    rw [rdSymbols] at h
    obtain ⟨bs, ks, h1, h2⟩ := bind_eq_ok.1 h
    obtain ⟨rest, ls, h3, h4⟩ := bind_eq_ok.1 h2
    cases h4
    obtain ⟨syms, h5, rfl⟩ := ih h3
    have hl := rdBytes_length h1
    refine ⟨bs ++ syms, ?_, ?_⟩
    · rw [List.length_append, hl, h5]
      simp [countSum]
    · rw [bucketRecords, ← hl, List.take_left, List.drop_left]

theorem rdHeader_checked {is js : IStream} {h : Header} (hr : rdHeader is = .ok h js) : h.checked := by
  rw [rdHeader] at hr
  obtain ⟨m, ks, _, h1⟩ := bind_eq_ok.1 hr
  rw [run_ite] at h1
  split at h1
  · obtain ⟨v, ls, _, h2⟩ := bind_eq_ok.1 h1
    cases h2
    trivial
  · rw [run_ite] at h1
    split at h1
    · rw [rdHuffmanHeader] at h1
      obtain ⟨n, ls, _, h2⟩ := bind_eq_ok.1 h1
      rw [run_ite] at h2
      split at h2
      · cases h2
        trivial
      · obtain ⟨v, ms, _, h3⟩ := bind_eq_ok.1 h2
        obtain ⟨counts, ns, hc, h4⟩ := bind_eq_ok.1 h3
        rw [run_ite] at h4
        split at h4
        · cases h4
        · rename_i hcap
          obtain ⟨rs, os, hs, h5⟩ := bind_eq_ok.1 h4
          obtain ⟨pad, ps, _, h6⟩ := bind_eq_ok.1 h5
          rw [run_ite] at h6
          split at h6
          · cases h6
          · cases h6
            obtain ⟨syms, h7, h8⟩ := rdSymbols_buckets hs
            exact ⟨rdBytes_length hc, Nat.le_of_not_lt hcap, syms, h7, h8⟩
    · cases h1

theorem pairwise_same_len {rs : List SymLen} {L : Nat} (h : ∀ r ∈ rs, r.len.toNat = L) : lengthsAscend rs := by
  induction rs with
  | nil => exact List.Pairwise.nil
  | cons r rs ih =>
    refine List.Pairwise.cons (fun e he => ?_) (ih fun e he => h e (List.mem_cons_of_mem r he))
    rw [h r (List.mem_cons_self ..), h e (List.mem_cons_of_mem r he)]

theorem bucketRecords_lengths (counts : List Byte) (L : Nat) (syms : List Byte) (h : L + counts.length ≤ 256) :
    lengthsAscend (bucketRecords L counts syms) ∧
      ∀ r ∈ bucketRecords L counts syms, L ≤ r.len.toNat ∧ r.len.toNat < L + counts.length := by
  induction counts generalizing L syms with
  | nil => exact ⟨List.Pairwise.nil, fun r hr => by cases hr⟩
  | cons n counts ih =>
    rw [List.length_cons] at h
    obtain ⟨h1, h2⟩ := ih (L + 1) (syms.drop n.toNat) (by omega)
    have hL : (BitVec.ofNat 8 L).toNat = L := by
      rw [BitVec.toNat_ofNat, Nat.mod_eq_of_lt (by omega)]
    have hmem : ∀ r ∈ (syms.take n.toNat).map (fun s => ({ sym := s, len := BitVec.ofNat 8 L } : SymLen)), r.len.toNat = L := by
      intro r hr
      obtain ⟨s, _, rfl⟩ := List.mem_map.1 hr
      exact hL
    rw [bucketRecords, List.length_cons]
    refine ⟨List.pairwise_append.2 ⟨?_, h1, ?_⟩, ?_⟩
    · exact pairwise_same_len hmem
    · intro a ha b hb
      rw [hmem a ha]
      have := (h2 b hb).1
      omega
    · intro r hr
      rcases List.mem_append.1 hr with hr | hr
      · rw [hmem r hr]
        omega
      · have := h2 r hr
        omega

/-- The records of a header that was let pass are ones REBUILD can work on (R143, R144). -/
theorem checked_decodable {h : Header} (hc : h.checked) : (Context.clean.loadHeader h).decodable := by
  cases h with
  | raw clen => exact ⟨rfl, Nat.zero_le _, List.Pairwise.nil, fun r hr => by cases hr⟩
  | empty => exact ⟨rfl, Nat.zero_le _, List.Pairwise.nil, fun r hr => by cases hr⟩
  | full clen counts symlen pad =>
    obtain ⟨h16, hle, syms, h1, h2⟩ := hc
    have hl := bucketRecords_length counts 1 syms h1
    rw [← h2] at hl
    obtain ⟨h3, h4⟩ := bucketRecords_lengths counts 1 syms (by omega)
    rw [← h2] at h3 h4
    exact loaded_decodable clen counts symlen pad hl.symm (by omega) h3 fun r hr => by
      have := h4 r hr
      omega

/-! ### The context, phase by phase -/

theorem idle_ctx {s : State} (h : s.Inv) (hp : s.ctx.phase = .idle) : s.ctx = Context.clean := by
  have := h.consistent
  simpa only [Context.consistent, hp] using this

theorem counted_ctx {s : State} (h : s.Inv) (hp : s.ctx.phase = .counted) :
    s.ctx = Context.clean.counted s.io.is.bytes := by
  have := h.consistent
  simpa only [Context.consistent, hp, Context.ofInput] using this

theorem built_ctx {s : State} (h : s.Inv) (hp : s.ctx.phase = .built) :
    s.ctx = (Context.clean.counted s.io.is.bytes).build ∧
      (Context.clean.counted s.io.is.bytes).noneSeen = false := by
  have := h.consistent
  simpa only [Context.consistent, hp, Context.ofInput] using this

theorem coded_ctx {s : State} (h : s.Inv) (hp : s.ctx.phase = .coded) :
    s.ctx = (Context.clean.counted s.io.is.bytes).build.gencode ∧
      (Context.clean.counted s.io.is.bytes).noneSeen = false := by
  have := h.consistent
  simpa only [Context.consistent, hp, Context.ofInput] using this

theorem histed_ctx {s : State} (h : s.Inv) (hp : s.ctx.phase = .histed) :
    s.ctx = (Context.clean.counted s.io.is.bytes).build.gencode.hist ∧
      (Context.clean.counted s.io.is.bytes).noneSeen = false := by
  have := h.consistent
  simpa only [Context.consistent, hp, Context.ofInput] using this

theorem policed_ctx {s : State} (h : s.Inv) (hp : s.ctx.phase = .policed) :
    s.ctx = (Context.clean.counted s.io.is.bytes).build.gencode.hist.policy ∧
      (Context.clean.counted s.io.is.bytes).noneSeen = false := by
  have := h.consistent
  simpa only [Context.consistent, hp, Context.ofInput] using this

theorem hdrWritten_ctx {s : State} (h : s.Inv) (hp : s.ctx.phase = .hdrWritten) :
    s.ctx = (Context.clean.prepared s.io.is.bytes).headed := by
  have := h.consistent
  simp only [Context.consistent, hp] at this
  rw [this, ofInput_hdrWritten]

theorem rebuilt_ctx {s : State} (h : s.Inv) (hp : s.ctx.phase = .rebuilt) :
    s.ctx.disable = false ∧ s.ctx.empty = false ∧ s.ctx.decodable ∧
      ∃ n, rebuildTree s.ctx = some (s.ctx.root, n) ∧ s.ctx.nodeCnt = BitVec.ofNat 9 n := by
  have := h.consistent
  simp only [Context.consistent, hp] at this
  obtain ⟨hd, t, n, h1, h2, h3, h4, h5⟩ := this
  have hdec := checked_decodable h1
  rw [h5]
  refine ⟨h2, h3, ⟨hdec.count, hdec.room, hdec.ascends, hdec.lengths⟩, n, ?_, rfl⟩
  rw [← h4]
  rfl

/-! ### A command keeps the context consistent -/

theorem clean_consistent (bs : List Byte) : Context.clean.consistent bs := rfl

/-- A command that completes with OK leaves a context consistent with its phase. -/
theorem accepted_consistent (i : Instr) (s : State) (hi : s.Inv) (ha : acceptance i s = .ok)
    (he : (run i s).err = .ok) : (run i s).ctx.consistent s.io.is.bytes := by
  have h2 := ((acceptance_ok_iff i s).1 ha).2.1
  cases i <;> simp only [run, phaseAllows, Bool.and_eq_true, Bool.or_eq_true, decide_eq_true_eq,
    Bool.not_eq_true'] at he h2 ⊢
  case clear => rw [clear_eq]; exact clean_consistent _
  case count =>
    rw [count_accepted s ha, idle_ctx hi h2]
    rfl
  case build =>
    have hc := counted_ctx hi h2.1
    have hn := h2.2
    rw [build_accepted s ha]
    rw [hc] at hn ⊢
    exact ⟨rfl, hn⟩
  case gencode =>
    obtain ⟨hc, hn⟩ := built_ctx hi h2
    rw [gencode_accepted s ha, hc]
    exact ⟨rfl, hn⟩
  case hist =>
    obtain ⟨hc, hn⟩ := coded_ctx hi h2
    rw [hist_accepted s ha, hc]
    exact ⟨rfl, hn⟩
  case policy =>
    obtain ⟨hc, hn⟩ := histed_ctx hi h2
    rw [policy_accepted s ha, hc]
    exact ⟨rfl, hn⟩
  case wrhdr =>
    rw [wrhdr_accepted s ha]
    have e : ∀ c : Context, c.headed = { c with empty := decide (c.phase = .counted) || c.empty, phase := .hdrWritten } :=
      fun _ => rfl
    rw [← e]
    have key : s.ctx = Context.clean.prepared s.io.is.bytes := by
      rcases h2 with h2 | ⟨h2, hn⟩
      · obtain ⟨hc, hn⟩ := policed_ctx hi h2
        rw [hc, Context.prepared, if_neg (by simp [hn])]
      · have hc := counted_ctx hi h2
        rw [hc] at hn
        rw [hc, Context.prepared, if_pos hn]
    rw [key]
    show (Context.clean.prepared s.io.is.bytes).headed = Context.ofInput .hdrWritten s.io.is.bytes
    rw [ofInput_hdrWritten]
  case encbits => rw [encbits_accepted s ha]; exact clean_consistent _
  case encode => rw [encodeCall_accepted s ha]; exact clean_consistent _
  case decbits => rw [decbits_ctx s ha]; exact clean_consistent _
  case decode => rw [decodeCall_ctx s ha]; exact clean_consistent _
  case rdhdr =>
    cases hr : rdHeader s.io.is with
    | ok hd js =>
      rw [rdhdr_accepted s ha hr, idle_ctx hi h2]
      have hch := rdHeader_checked hr
      have hph := loadHeader_phase Context.clean hd
      simp only [Context.consistent, hph]
      exact ⟨hd, hch, rfl⟩
    | error e js =>
      rw [rdhdr_raises s ha hr] at he ⊢
      exact clean_consistent _
  case rebuild =>
    cases hr : rebuildTree s.ctx with
    | some p =>
      obtain ⟨t, n⟩ := p
      rw [rebuild_accepted s ha hr]
      have hc := hi.consistent
      simp only [Context.consistent, h2.1.1] at hc
      obtain ⟨hd, hch, hc⟩ := hc
      simp only [Context.consistent]
      rw [hc] at hr h2
      exact ⟨hd, t, n, hch, h2.1.2, h2.2, hr, by rw [hc]⟩
    | none =>
      rw [rebuild_raises s ha hr]
      exact clean_consistent _
  all_goals cases h2

/-- Every command keeps the invariant. -/
theorem run_inv (i : Instr) (s : State) (hi : s.Inv) : (run i s).Inv := by
  have hf := run_frame i s
  have hcur : s.io.is.pos ≤ 8 * s.io.is.bytes.length := by simpa [cursorOk] using hi.cursor
  refine ⟨by simpa [cursorOk] using hf.cursor hcur, hf.osWf hi.accumulator, ?_⟩
  rw [hf.isBytes]
  by_cases ha : acceptance i s = .ok
  · by_cases he : (run i s).err = .ok
    · exact accepted_consistent i s hi ha he
    · rcases run_ends i s ha with h | ⟨_, h⟩
      · exact absurd h he
      · rw [h]
        exact clean_consistent _
  · rw [run_rejected i s ha]
    exact hi.consistent

/-- Only the phases of an encode look at the input (R223). -/
theorem consistent_other_input {c : Context} {bs : List Byte} (cs : List Byte) (h : c.consistent bs)
    (hp : c.phase.encoding = false) : c.consistent cs := by
  cases hc : c.phase <;> rw [hc] at hp <;> simp only [Phase.encoding, Bool.true_eq_false] at hp <;>
    simpa only [Context.consistent, hc] using h

end Sys2Proof.Machine
end

