-- ==== Sys2Proof/Laws/Bridges.lean ====
section
/-!
SUPPORT. Lemmas between the definitions of the commands and the terms of Safety: counts, merges, depths and canonical
codes, the policy's guarantee, full headers.
-/

namespace Sys2Proof.Machine

/-! ### Bit strings -/

theorem bin_zeros (n : Nat) : bin 0 n = List.replicate n false := by
  induction n with
  | zero => rfl
  | succ n ih => rw [bin, ih, Nat.zero_testBit, List.replicate_succ]

theorem bin_shift (v n k : Nat) : bin (v * 2 ^ k) (n + k) = bin v n ++ List.replicate k false := by
  induction n with
  | zero =>
    rw [Nat.zero_add]
    have : ∀ k j, k ≤ j → bin (v * 2 ^ j) k = List.replicate k false := by
      intro k
      induction k with
      | zero => intros; rfl
      | succ k ih =>
        intro j hj
        rw [bin, ih j (by omega), Nat.testBit_mul_two_pow, List.replicate_succ]
        simp; omega
    rw [this k k (Nat.le_refl _)]; rfl
  | succ n ih =>
    have : n + 1 + k = (n + k) + 1 := by omega
    rw [this, bin, ih, bin, Nat.testBit_mul_two_pow]
    simp

theorem bin_mod (v n : Nat) (m : Nat) (h : n ≤ m) : bin (v % 2 ^ m) n = bin v n := by
  induction n with
  | zero => rfl
  | succ n ih =>
    rw [bin, bin, ih (by omega), Nat.testBit_mod_two_pow]
    simp; omega

/-! ### Counts and the builder -/

theorem sum_counts_of (l bs : List Byte) (h : ∀ a ∈ bs, l.count a = 1) : (l.map fun b => bs.count b).sum = bs.length := by
  induction bs with
  | nil => simp
  | cons a bs ih =>
    have e : (l.map fun b => (a :: bs).count b) = l.map fun b => bs.count b + if b = a then 1 else 0 := by
      apply List.map_congr_left
      intro b _
      rw [List.count_cons]
      simp only [beq_iff_eq, eq_comm (a := a)]
    have h2 : (l.map fun b => if b = a then 1 else 0).sum = l.count a := by
      rw [List.count_eq_countP]
      clear h ih e
      induction l with
      | nil => rfl
      | cons x l ih =>
        rw [List.map_cons, List.sum_cons, ih, List.countP_cons]
        by_cases h : x = a <;> simp [h]; omega
    rw [e, List.sum_map_add, ih fun x hx => h x (List.mem_cons_of_mem _ hx), List.length_cons, h2, h a (List.mem_cons_self ..)]

/-- Every byte is one of the 256 symbols, so the counts of all symbols sum to the length (R92). -/
theorem sum_counts (bs : List Byte) : (allSymbols.map fun b => bs.count b).sum = bs.length :=
  sum_counts_of _ bs fun a _ => List.count_eq_one_of_mem allSymbols_nodup (mem_allSymbols a)

theorem seenSymbols_eq (freq : SymbolTable Word32) :
    seenSymbols freq = (allSymbols.filter fun b => symAt freq b != 0).map fun b => (b, symAt freq b) := by
  rw [seenSymbols, List.filter_map]
  rfl

theorem leafEntries_eq (l : List Byte) (freq : SymbolTable Word32) (n : Nat) :
    leafEntries n (l.map fun b => (b, symAt freq b)) =
      l.mapIdx fun i b => ({ node := .leaf (BitVec.ofNat 9 (n + i)) b (symAt freq b), seq := n + i } : Entry) := by
  induction l generalizing n with
  | nil => rfl
  | cons b l ih =>
    rw [List.map_cons, leafEntries, ih, List.mapIdx_cons]
    simp only [Nat.add_zero, List.cons.injEq, true_and]
    congr 1
    funext i b
    have : n + 1 + i = n + (i + 1) := by omega
    rw [this]

/-- BUILD is accepted in COUNTED when some symbol was seen (R100). -/
theorem build_acceptance {s : State} (h1 : s.ctx.phase = .counted) (h2 : ∃ b : Byte, symAt s.ctx.freq b ≠ 0) :
    acceptance .build s = .ok ∧ seenSymbols s.ctx.freq ≠ [] := by
  have hn : s.ctx.noneSeen = false := by
    rw [noneSeen_false_iff]
    obtain ⟨b, hb⟩ := h2
    exact fun h => hb (h b)
  exact ⟨by rw [acceptance_ok_iff]; exact ⟨rfl, by simp [phaseAllows, h1, hn], nofun, nofun⟩, seenSymbols_ne_nil _ hn⟩

/-- Every entry of the queue stands somewhere in the merged tree. -/
theorem merges_follow {q : List Entry} {n : Nat} {t : Node} (h : Merges q n t) :
    ∀ e ∈ q, ∃ path, t.follow path = e.node := by
  induction h with
  | root e n => intro x hx; simp at hx; subst hx; exact ⟨[], rfl⟩
  | @merge q q1 q2 a b n t h1 h2 hr ih =>
    intro e he
    have hperm : q.Perm (a :: b :: q2) := h1.1.trans (h2.1.cons a)
    have hm := hperm.mem_iff.1 he
    rcases List.mem_cons.1 hm with rfl | hm
    · obtain ⟨p, hp⟩ := ih _ (List.mem_cons_self ..)
      exact ⟨p ++ [false], by rw [follow_append, hp]; rfl⟩
    · rcases List.mem_cons.1 hm with rfl | hm
      · obtain ⟨p, hp⟩ := ih _ (List.mem_cons_self ..)
        exact ⟨p ++ [true], by rw [follow_append, hp]; rfl⟩
      · exact ih e (List.mem_cons_of_mem _ hm)

theorem sum_toNat (l : List (Byte × Word32)) (h : (l.map fun p => p.2.toNat).sum < 2 ^ 32) :
    ((l.map Prod.snd).sum).toNat = (l.map fun p => p.2.toNat).sum := by
  induction l with
  | nil => rfl
  | cons p l ih =>
    simp only [List.map_cons, List.sum_cons] at h ⊢
    rw [BitVec.toNat_add, ih (by omega), Nat.mod_eq_of_lt h]

/-- The counts of the seen symbols sum to the input's length (R92). -/
theorem seen_sum (bs : List Byte) (hlen : bs.length < 2 ^ 32) :
    ((seenSymbols (Context.clean.counted bs).freq).map fun p => p.2.toNat).sum = bs.length := by
  rw [← sum_counts bs, seenSymbols_eq, List.map_map]
  have hf : ∀ b : Byte, (symAt (Context.clean.counted bs).freq b).toNat = bs.count b := clean_counted_freq _ hlen
  simp only [Function.comp_def, hf]
  generalize allSymbols = l
  induction l with
  | nil => rfl
  | cons x l ih =>
    rw [List.map_cons, List.sum_cons, ← ih, List.filter_cons]
    by_cases hx : symAt (Context.clean.counted bs).freq x = 0
    · have := hf x
      rw [hx] at this
      simp [hx, ← this]
    · have : (symAt (Context.clean.counted bs).freq x != 0) = true := by simpa using hx
      rw [if_pos this, List.map_cons, List.sum_cons]

/-! ### Acceptance, depths, the code generator -/

/-- A command whose phase condition fails answers E_SEQ (R183). -/
theorem exec_eSeq {i : Instr} {s : State} (h1 : isCommand i = true) (h : phaseAllows i s.ctx = false) :
    exec i s = .next { s with err := .eSeq } := by
  have e : acceptance i s = .eSeq := by rw [acceptance_eq, h1, h]; rfl
  rw [exec_eq, run_rejected i s (by rw [e]; decide), e]; rfl

/-- A command that uses no stream is accepted when its phase condition holds (R183). -/
theorem acceptance_streamless {i : Instr} {s : State} (h1 : isCommand i = true) (h : phaseAllows i s.ctx = true) (h2 : needsIS i = false) (h3 : needsOS i = false) :
    acceptance i s = .ok := by
  rw [acceptance_ok_iff]; exact ⟨h1, h, by simp [h2], by simp [h3]⟩

/-- The depth walk lists exactly the leaves, with the lengths of their paths (R110). -/
theorem mem_leafDepths (t : Node) (d : Nat) (b : Byte) (n : Nat) :
    (b, n) ∈ leafDepths t d ↔ ∃ path i f, t.follow path = .leaf i b f ∧ n = d + path.length := by
  induction t generalizing d with
  | absent =>
    simp only [leafDepths, List.not_mem_nil, false_iff]
    rintro ⟨p, i, f, h, _⟩
    rw [follow_absent] at h
    cases h
  | leaf i s f =>
    simp only [leafDepths, List.mem_singleton, Prod.mk.injEq]
    constructor
    · rintro ⟨rfl, rfl⟩
      exact ⟨[], i, f, rfl, rfl⟩
    · rintro ⟨p, i', f', h, hn⟩
      rw [leaf_follow] at h
      by_cases hp : p = []
      · subst hp
        rw [if_pos rfl] at h
        cases h
        exact ⟨rfl, hn⟩
      · rw [if_neg hp] at h
        cases h
  | internal i l r f hl hr =>
    simp only [leafDepths, List.mem_append, hl, hr]
    constructor
    · rintro (⟨p, j, g, h, hn⟩ | ⟨p, j, g, h, hn⟩)
      · exact ⟨false :: p, j, g, h, by rw [hn, List.length_cons]; omega⟩
      · exact ⟨true :: p, j, g, h, by rw [hn, List.length_cons]; omega⟩
    · rintro ⟨p, j, g, h, hn⟩
      cases p with
      | nil => cases h
      | cons b p =>
        rw [follow_cons] at h
        rw [List.length_cons] at hn
        cases b
        · exact .inl ⟨p, j, g, h, by omega⟩
        · exact .inr ⟨p, j, g, h, by omega⟩

theorem leaves_ge_two {t : Node} (h : t.full = true) (hn : ∀ i b f, t ≠ .leaf i b f) : 2 ≤ t.leaves.length := by
  cases t with
  | absent => simp [Node.full] at h
  | leaf i b f => exact absurd rfl (hn i b f)
  | internal i l r f =>
    simp only [Node.full, Bool.and_eq_true] at h
    have h1 := full_leaves_pos l h.1
    have h2 := full_leaves_pos r h.2
    simp only [Node.leaves, List.length_append]
    omega

/-- The recurrence of R115 from the closed form. -/
theorem canonicalValue_next {rs : List SymLen} (ha : lengthsAscend rs) {i : Nat} {a b : SymLen} (hi : rs[i]? = some a)
    (hj : rs[i + 1]? = some b) :
    canonicalValue (rs.take (i + 1)) b.len.toNat = (canonicalValue (rs.take i) a.len.toNat + 1) * 2 ^ (b.len.toNat - a.len.toNat) := by
  have hle : a.len.toNat ≤ b.len.toNat := (canonicalValue_step rs ha i (i + 1) (by omega) a b hi hj).1
  obtain ⟨hlt, rfl⟩ := List.getElem?_eq_some_iff.1 hi
  have e : rs.take (i + 1) = rs.take i ++ [rs[i]] := by rw [List.take_succ_eq_append_getElem hlt]
  have hshort : ∀ r ∈ rs.take i ++ [rs[i]], r.len.toNat ≤ rs[i].len.toNat := by
    intro r hr
    rcases List.mem_append.1 hr with hr | hr
    · obtain ⟨j, hj', rfl⟩ := List.mem_iff_getElem.1 hr
      rw [List.length_take] at hj'
      rw [List.getElem_take]
      exact List.pairwise_iff_getElem.1 ha j i (by omega) hlt (by omega)
    · simp at hr; subst hr; exact Nat.le_refl _
  rw [e, canonicalValue_scale _ _ _ hshort hle, canonicalValue_append]
  congr 2
  simp [canonicalValue]

theorem gencode_symlen (c : Context) : c.build.gencode.symlen = symlenOf (buildTree c.freq).1 := by
  simp only [Context.gencode, Context.build]

theorem gencode_nsym (c : Context) : c.build.gencode.nsym = BitVec.ofNat 9 (symlenOf (buildTree c.freq).1).length := by
  simp only [Context.gencode, Context.build]

theorem gencode_code (c : Context) : c.build.gencode.code = assignCodes c.code (symlenOf (buildTree c.freq).1) := by
  simp only [Context.gencode, Context.build]

theorem gencode_pad (c : Context) : c.build.gencode.pad = paddingOf c.freq (symlenOf (buildTree c.freq).1) := by
  simp only [Context.gencode, Context.build]

theorem gencode_freq (c : Context) : c.build.gencode.freq = c.freq := by
  simp only [Context.gencode, Context.build]

theorem canonical_lt {rs : List SymLen} (h : canonicalOrder rs) {i j : Nat} {a b : SymLen} (hi : rs[i]? = some a)
    (hj : rs[j]? = some b) (hab : a.len.toNat < b.len.toNat ∨ (a.len.toNat = b.len.toNat ∧ a.sym.toNat < b.sym.toNat)) : i < j := by
  obtain ⟨h1, rfl⟩ := List.getElem?_eq_some_iff.1 hi
  obtain ⟨h2, rfl⟩ := List.getElem?_eq_some_iff.1 hj
  rcases Nat.lt_trichotomy i j with h3 | h3 | h3
  · exact h3
  · subst h3; omega
  · have := List.pairwise_iff_getElem.1 h j i h2 h1 h3
    omega

/-! ### The policy -/

/-- What the context holds after POLICY (R125 to R128). -/
structure Policed (c : Context) (freq : SymbolTable Word32) : Prop where
  symlen : c.symlen = symlenOf (buildTree freq).1
  nsym : c.nsym.toNat = c.symlen.length
  coded : Coded freq c.symlen
  lcnt : c.lcnt = (histogram c.symlen).1
  maxlen : c.maxlen = (histogram c.symlen).2
  spec : SymlenSpec (buildTree freq).1 c.symlen
  enabled : c.disable = false → (∀ r ∈ c.symlen, r.len.toNat ≤ 16) ∧ ∀ L, 1 ≤ L → L ≤ 16 → (lenAt c.lcnt L).toNat = countLength c.symlen L ∧ countLength c.symlen L ≤ 255

/-- The commands from BUILD to POLICY make such a context of any counts that are not all zero. -/
theorem policed_spec (c : Context) (hse : seenSymbols c.freq ≠ []) : Policed c.build.gencode.hist.policy c.freq := by
  have hcd := build_coded _ hse
  have hn : c.build.gencode.hist.policy.nsym.toNat = c.build.gencode.hist.policy.symlen.length := by
    rw [chain_nsym, chain_symlen, BitVec.toNat_ofNat, Nat.mod_eq_of_lt (by have := hcd.room.2; omega)]
  have hr : c.build.gencode.records = symlenOf (buildTree c.freq).1 := by
    have e : c.build.gencode.records = (symlenOf (buildTree c.freq).1).take (BitVec.ofNat 9 (symlenOf (buildTree c.freq).1).length).toNat := by
      simp only [Context.records, Context.gencode, Context.build]
    rw [e, BitVec.toNat_ofNat, Nat.mod_eq_of_lt (by have := hcd.room.2; omega), List.take_length]
  refine ⟨chain_symlen c, hn, by rw [chain_symlen]; exact hcd, by rw [chain_lcnt, hr, chain_symlen], by rw [chain_maxlen, hr, chain_symlen],
    by rw [chain_symlen]; exact build_symlen _ hse, ?_⟩
  intro hd
  have hn2 : c.build.gencode.hist.nsym.toNat = c.build.gencode.hist.symlen.length := by
    rw [hist_nsym, hist_symlen, BitVec.toNat_ofNat, Nat.mod_eq_of_lt (by have := hcd.room.2; omega)]
  have hrr : c.build.gencode.hist.records = c.build.gencode.records := hist_records _
  have h2 := policy_enabled c.build.gencode.hist hn2 (by rw [hist_symlen]; exact hcd.room.2) (by rw [hrr, hist_lcnt])
    (by rw [hrr, hist_maxlen]) hd
  rw [hist_symlen] at h2
  rw [chain_symlen, policy_lcnt]
  exact h2

theorem countLength_zero {rs : List SymLen} {L : Nat} (h : ∀ r ∈ rs, r.len.toNat ≠ L) : countLength rs L = 0 := by
  rw [countLength, List.countP_eq_zero]
  intro r hr
  simpa using h r hr

/-! ### Headers -/

/-- The two bytes of HLEN (R138). -/
theorem headerLength_halves (c : Context) : (headerLength c).extractLsb' 8 8 = BitVec.ofNat 8 ((23 + c.nsym.toNat) / 256) ∧
    (headerLength c).extractLsb' 0 8 = BitVec.ofNat 8 (23 + c.nsym.toNat) := by
  have h := c.nsym.isLt
  constructor
  · apply BitVec.eq_of_toNat_eq
    rw [BitVec.extractLsb'_toNat, headerLength, BitVec.toNat_ofNat, BitVec.toNat_ofNat, Nat.shiftRight_eq_div_pow]
    generalize c.nsym.toNat = n at h
    omega
  · apply BitVec.eq_of_toNat_eq
    rw [BitVec.extractLsb'_toNat, headerLength, BitVec.toNat_ofNat, BitVec.toNat_ofNat, Nat.shiftRight_eq_div_pow]
    generalize c.nsym.toNat = n at h
    omega

/-- The content of an encode is a whole number of bytes (R154). -/
theorem content_whole (bs : List Byte) (hlen : bs.length < 2 ^ 32) :
    ((Context.clean.prepared bs).headed.content bs).length % 8 = 0 := by
  have := encodedBits_length bs hlen
  rw [encodedBits, List.length_append, bytesBits_length] at this
  omega

theorem hlen_halves (n : Nat) (h : n ≤ 256) : 256 * (BitVec.ofNat 8 ((23 + n) / 256)).toNat + (BitVec.ofNat 8 (23 + n)).toNat = 23 + n := by
  rw [BitVec.toNat_ofNat, BitVec.toNat_ofNat]
  omega

theorem rest_fullHeader (is : IStream) (m hi lo : Byte) (clen : Word32) (counts syms : List Byte) (pad : Byte) (r : BitString)
    (h : is.rest = bytesBits ([m, hi, lo] ++ u32Bytes clen ++ counts ++ syms ++ [pad]) ++ r) :
    is.rest = byteBits m ++ (bytesBits (fullBody hi lo clen counts syms pad) ++ r) := by
  have e : [m, hi, lo] ++ u32Bytes clen ++ counts ++ syms ++ [pad] = m :: fullBody hi lo clen counts syms pad := by
    simp [fullBody]
  rw [h, e, bytesBits_cons, List.append_assoc]

/-- A full header, read: accepted when its declared length is 23 + T (R143, R144). -/
theorem rdHeader_full (is : IStream) (hi lo : Byte) (clen : Word32) (counts syms : List Byte) (pad : Byte) (r : BitString)
    (h : is.rest = bytesBits ([0x48, hi, lo] ++ u32Bytes clen ++ counts ++ syms ++ [pad]) ++ r)
    (h2 : 256 * hi.toNat + lo.toNat ≠ 2) (hc : counts.length = 16) (hs : (counts.map BitVec.toNat).sum = syms.length)
    (ht : syms.length ≤ 256) :
    rdHeader is =
      if 23 + syms.length = 256 * hi.toNat + lo.toNat then
        .ok (.full clen counts (bucketRecords 1 counts syms) pad) { is with pos := is.pos + 8 * (24 + syms.length) }
      else .error .eHdrlen { is with pos := is.pos + 8 * (24 + syms.length) } := by
  have h' := rest_fullHeader is 0x48 hi lo clen counts syms pad r h
  have h1 := rest_skip 8 h' (byteBits_length _)
  have hsum : countSum counts = syms.length := hs
  rw [rdHeader_huff is _ h', rdHuffmanHeader_full _ hi lo clen counts syms pad r h1 h2 hc hsum.symm (by rw [hsum]; exact ht), hsum]
  have e : is.pos + 8 + 8 * (23 + syms.length) = is.pos + 8 * (24 + syms.length) := by omega
  simp only [e]

theorem lastLength_eq (rs : List SymLen) : lastLength rs = ((rs.getLast?).map SymLen.len).getD 0 := by
  have key : ∀ (rs : List SymLen) (a : BitVec 8), rs.foldl (fun _ r => r.len) a = ((rs.getLast?).map SymLen.len).getD a := by
    intro rs
    induction rs with
    | nil => intro a; rfl
    | cons r rs ih =>
      intro a
      rw [List.foldl_cons, ih]
      cases rs with
      | nil => rfl
      | cons x xs => rw [List.getLast?_cons_cons]; simp [List.getLast?_cons]
  exact key rs 0

theorem rdHeader_raw_eos (is : IStream) (r : BitString) (h : is.rest = byteBits 0x4E ++ r) (hr : r.length < 32) :
    rdHeader is = .error .eEos { is with pos := is.pos + is.rest.length } := by
  have h1 := rest_skip 8 h (byteBits_length _)
  have hl : is.rest.length = 8 + r.length := by rw [h, List.length_append, byteBits_length]
  rw [rdHeader, bind_ok (rdByte_ok is 0x4E r h), run_ite, if_pos (by decide), bind_error (rdU32_eos _ (by rw [h1]; exact hr)), h1, hl, Nat.add_assoc]

/-! ### The decoder's tree -/

/-- The tree of the one record of length 1 (R164). -/
theorem rebuildTree_single (c : Context) (h : c.decodable) {b : Byte} (hs : c.symlen = [{ sym := b, len := 1 }]) :
    rebuildTree c = some (.internal 0 (.leaf 1 b 0) .absent 0, 2) := by
  have hn : c.nsym = 1 := by
    apply BitVec.eq_of_toNat_eq; rw [h.count, hs]; rfl
  have h1 : (1 : BitVec 8).toNat = 1 := rfl
  simp only [rebuildTree, decodable_records h, hs, placeAll, h1, emptyInternal, insertSymbol, if_true, Config.nodeCap,
    codeSpaceComplete, hn]
  rfl

/-! ### The encoder's tree, phase by phase -/

theorem counted_seen (bs : List Byte) (h : (Context.clean.counted bs).noneSeen = false) :
    seenSymbols (Context.clean.counted bs).freq ≠ [] := seenSymbols_ne_nil _ h

/-- The context holds the tree BUILD makes of its counts. -/
structure Context.HasTree (c : Context) : Prop where
  ne : seenSymbols c.freq ≠ []
  root : c.root = (buildTree c.freq).1
  nodeCnt : c.nodeCnt = BitVec.ofNat 9 (buildTree c.freq).2

theorem hasTree_build (c : Context) (h : seenSymbols c.freq ≠ []) : Context.HasTree c.build := ⟨h, rfl, rfl⟩

theorem hasTree_gencode {c : Context} (h : Context.HasTree c) : Context.HasTree c.gencode := by
  have e1 : c.gencode.freq = c.freq := by simp only [Context.gencode]
  have e2 : c.gencode.root = c.root := by simp only [Context.gencode]
  have e3 : c.gencode.nodeCnt = c.nodeCnt := by simp only [Context.gencode]
  exact ⟨by rw [e1]; exact h.ne, by rw [e1, e2]; exact h.root, by rw [e1, e3]; exact h.nodeCnt⟩

theorem hasTree_hist {c : Context} (h : Context.HasTree c) : Context.HasTree c.hist := by
  have e1 : c.hist.freq = c.freq := by simp only [Context.hist]
  have e2 : c.hist.root = c.root := by simp only [Context.hist]
  have e3 : c.hist.nodeCnt = c.nodeCnt := by simp only [Context.hist]
  exact ⟨by rw [e1]; exact h.ne, by rw [e1, e2]; exact h.root, by rw [e1, e3]; exact h.nodeCnt⟩

theorem hasTree_policy {c : Context} (h : Context.HasTree c) : Context.HasTree c.policy := by
  have e1 : c.policy.freq = c.freq := by simp only [Context.policy]
  have e2 : c.policy.root = c.root := by simp only [Context.policy]
  have e3 : c.policy.nodeCnt = c.nodeCnt := by simp only [Context.policy]
  exact ⟨by rw [e1]; exact h.ne, by rw [e1, e2]; exact h.root, by rw [e1, e3]; exact h.nodeCnt⟩

/-- So it does from BUILD to POLICY. -/
theorem encoder_hasTree {s : State} (hi : s.Inv) (hp : s.ctx.phase ∈ [Phase.built, .coded, .histed, .policed]) : Context.HasTree s.ctx := by
  simp only [List.mem_cons, List.not_mem_nil, or_false] at hp
  rcases hp with hp | hp | hp | hp
  · obtain ⟨hc, hn⟩ := built_ctx hi hp
    rw [hc]; exact hasTree_build _ (counted_seen _ hn)
  · obtain ⟨hc, hn⟩ := coded_ctx hi hp
    rw [hc]; exact hasTree_gencode (hasTree_build _ (counted_seen _ hn))
  · obtain ⟨hc, hn⟩ := histed_ctx hi hp
    rw [hc]; exact hasTree_hist (hasTree_gencode (hasTree_build _ (counted_seen _ hn)))
  · obtain ⟨hc, hn⟩ := policed_ctx hi hp
    rw [hc]; exact hasTree_policy (hasTree_hist (hasTree_gencode (hasTree_build _ (counted_seen _ hn))))

/-- NODE_CNT counts the nodes (R18). -/
theorem hasTree_count {c : Context} (h : Context.HasTree c) : c.nodeCnt.toNat = c.root.indices.length := by
  obtain ⟨_, _, _, h4, h5, _⟩ := buildTree_spec c.freq h.ne
  have := seenSymbols_length_le c.freq
  rw [h.nodeCnt, h.root, h5.length_eq, List.length_map, List.length_range, BitVec.toNat_ofNat, Nat.mod_eq_of_lt (by omega)]

end Sys2Proof.Machine
end

