-- ==== Sys2Proof/Laws/Independence.lean ====
section
/-!
SUPPORT. What no command looks at: the progress events already emitted, the completion code of the command before, and
what the host is going to do next.
-/

namespace Sys2Proof.Machine

/-- The state with other events before its own, another queue and another completion code. -/
def State.aside (s : State) (p : List Nat) (q : List HostAction) (e : Res) : State :=
  { s with err := e, io := { s.io with prog := p ++ s.io.prog }, pending := q }

/-- The state with other events before its own and another queue. -/
def State.behind (s : State) (p : List Nat) (q : List HostAction) : State := s.aside p q s.err

/-- A result, seen aside. -/
def asideResult {α : Type} (p : List Nat) (q : List HostAction) (e : Res) :
    EStateM.Result Res State α → EStateM.Result Res State α
  | .ok a t => .ok a (t.aside p q e)
  | .error x t => .error x (t.aside p q e)

/-- A command body that looks at none of the three. -/
def Blind {α : Type} (m : Cmd α) : Prop := ∀ s p q e, m (s.aside p q e) = asideResult p q e (m s)

theorem blind_pure {α : Type} (a : α) : Blind (pure a : Cmd α) := fun _ _ _ _ => rfl

theorem blind_throw {α : Type} (x : Res) : Blind (throw x : Cmd α) := fun _ _ _ _ => rfl

theorem blind_bind {α β : Type} {m : Cmd α} {f : α → Cmd β} (hm : Blind m) (hf : ∀ a, Blind (f a)) :
    Blind (m >>= f) := by
  intro s p q e
  have h := hm s p q e
  cases hr : m s with
  | ok a t =>
    rw [hr] at h
    rw [bind_ok h, bind_ok hr, hf a]
  | error x t =>
    rw [hr] at h
    rw [bind_error h, bind_error hr]
    rfl

theorem blind_ite {α : Type} {c : Prop} [Decidable c] {m n : Cmd α} (hm : Blind m) (hn : Blind n) :
    Blind (if c then m else n) := by
  split
  · exact hm
  · exact hn

theorem blind_read {α : Type} (r : Reader α) : Blind (Cmd.read r) := by
  intro s p q e
  have h : (s.aside p q e).io.is = s.io.is := rfl
  unfold Cmd.read
  rw [h]
  cases r s.io.is <;> rfl

theorem blind_rewind : Blind Cmd.rewind := fun _ _ _ _ => rfl

theorem blind_atEnd : Blind Cmd.atEnd := fun _ _ _ _ => rfl

theorem blind_write (f : OStream → OStream) : Blind (Cmd.write f) := fun _ _ _ _ => rfl

theorem blind_progress (n : Nat) : Blind (Cmd.progress n) := by
  intro s p q e
  rw [run_progress, run_progress]
  simp [asideResult, State.aside]

theorem blind_modifyCtx (f : Context → Context) : Blind (Cmd.modifyCtx f) := fun _ _ _ _ => rfl

theorem blind_ctx : Blind Cmd.ctx := fun _ _ _ _ => rfl

theorem blind_cleanup : Blind Cmd.cleanup := fun _ _ _ _ => rfl

theorem blind_inputLength : Blind Cmd.inputLength := fun _ _ _ _ => rfl

theorem blind_bitsLeft : Blind Cmd.bitsLeft := fun _ _ _ _ => rfl

/-! ### The bodies -/

theorem blind_countBody : Blind countBody := by
  have hloop : ∀ n, Blind (countLoop n) := by
    intro n
    induction n with
    | zero => exact blind_pure _
    | succ n ih =>
      exact blind_bind blind_atEnd fun _ => blind_ite (blind_pure _)
        (blind_bind (blind_read _) fun _ => blind_bind (blind_modifyCtx _) fun _ => ih)
  exact blind_bind blind_rewind fun _ => blind_bind blind_inputLength fun n => blind_bind (hloop n) fun _ => blind_modifyCtx _

theorem blind_wrhdrBody : Blind wrhdrBody :=
  blind_bind blind_ctx fun _ => blind_bind
    (blind_ite (blind_bind (blind_write _) fun _ => blind_modifyCtx _) (blind_ite (blind_write _) (blind_write _)))
    fun _ => blind_modifyCtx _

theorem blind_scanInput {emit : Byte → Cmd Unit} (h : ∀ b, Blind (emit b)) : Blind (scanInput emit) := by
  have hloop : ∀ n, Blind (scanLoop emit n) := by
    intro n
    induction n with
    | zero => exact blind_pure _
    | succ n ih =>
      exact blind_bind blind_atEnd fun _ => blind_ite (blind_pure _)
        (blind_bind (blind_read _) fun b => blind_bind (h b) fun _ => blind_bind (blind_progress _) fun _ => ih)
  exact blind_bind blind_rewind fun _ => blind_bind blind_inputLength fun n => hloop n

theorem blind_encbitsBody : Blind encbitsBody :=
  blind_bind blind_ctx fun _ => blind_bind
    (blind_ite (blind_pure _) (blind_ite (blind_scanInput fun _ => blind_write _)
      (blind_bind (blind_write _) fun _ => blind_scanInput fun _ => blind_write _)))
    fun _ => blind_bind (blind_write _) fun _ => blind_cleanup

theorem blind_rdhdrBody : Blind rdhdrBody :=
  blind_bind (blind_read _) fun _ => blind_bind (blind_modifyCtx _) fun _ => blind_progress _

theorem blind_rebuildBody : Blind rebuildBody :=
  blind_bind blind_ctx fun c => by
    cases rebuildTree c with
    | none => exact blind_throw _
    | some x => exact blind_modifyCtx _

theorem blind_rdContentBit (n : Nat) : Blind (rdContentBit n) :=
  blind_bind (blind_read _) fun _ =>
    blind_bind (by unfold bitProgress; exact blind_ite (blind_progress _) (blind_pure _)) fun _ => blind_pure _

theorem blind_decbitsBody : Blind decbitsBody := by
  have hpad : ∀ k n, Blind (discardPadding k n) := by
    intro k
    induction k with
    | zero => exact fun _ => blind_pure _
    | succ k ih => exact fun n => blind_bind (blind_rdContentBit n) fun _ => ih _
  have hwalk : ∀ (root : Node) (clen passes : Nat) (cur : Node) (cnt n : Nat), Blind (walk root clen passes cur cnt n) := by
    intro root clen passes
    induction passes with
    | zero => exact fun _ _ _ => blind_throw _
    | succ passes ih =>
      intro cur cnt n
      rw [walk]
      refine blind_ite (blind_bind (blind_rdContentBit n) fun b => ?_) (blind_pure _)
      cases cur.child b with
      | absent => exact blind_throw _
      | leaf i u f => exact blind_bind (blind_write _) fun _ => ih _ _ _
      | internal i l r f => exact ih _ _ _
  have hraw : ∀ k, Blind (copyRaw k) := by
    intro k
    induction k with
    | zero => exact blind_pure _
    | succ k ih =>
      exact blind_bind (blind_read _) fun _ => blind_bind (blind_write _) fun _ => blind_bind (blind_progress _) fun _ => ih
  exact blind_bind blind_ctx fun _ => blind_bind
    (blind_ite (blind_pure _) (blind_ite (hraw _)
      (blind_bind (hpad _ _) fun _ => blind_bind blind_bitsLeft fun _ => hwalk _ _ _ _ _ _)))
    fun _ => blind_cleanup

/-! ### The commands -/

theorem acceptance_aside (i : Instr) (s : State) (p : List Nat) (q : List HostAction) (e : Res) :
    acceptance i (s.aside p q e) = acceptance i s := rfl

theorem issue_aside (i : Instr) {f : State → State}
    (hf : ∀ s p q e, f (s.aside p q e) = (f s).behind p q) (s : State) (p : List Nat) (q : List HostAction) (e : Res) :
    issue i f (s.aside p q e) = (issue i f s).behind p q := by
  unfold issue
  rw [acceptance_aside]
  cases acceptance i s with
  | ok => exact hf s p q e
  | _ => rfl

theorem complete_aside {body : Cmd Unit} (h : Blind body) (s : State) (p : List Nat) (q : List HostAction) (e : Res) :
    complete body (s.aside p q e) = (complete body s).behind p q := by
  unfold complete
  rw [h s p q e]
  cases body s <;> rfl

/-- A unit command that is blind in this sense, from any state, its own completion code included. -/
theorem andThen_behind {f : State → State} (hf : ∀ s p q, f (s.behind p q) = (f s).behind p q) (s : State)
    (p : List Nat) (q : List HostAction) : (s.behind p q).andThen f = (s.andThen f).behind p q := by
  by_cases he : s.err = .ok
  · rw [andThen_ok he, andThen_ok (show (s.behind p q).err = .ok from he)]
    exact hf s p q
  · rw [andThen_error he, andThen_error (show (s.behind p q).err ≠ .ok from he)]

theorem count_aside (s : State) (p : List Nat) (q : List HostAction) (e : Res) :
    count (s.aside p q e) = (count s).behind p q := issue_aside _ (complete_aside blind_countBody) s p q e

theorem build_aside (s : State) (p : List Nat) (q : List HostAction) (e : Res) :
    build (s.aside p q e) = (build s).behind p q := issue_aside _ (complete_aside (blind_modifyCtx _)) s p q e

theorem gencode_aside (s : State) (p : List Nat) (q : List HostAction) (e : Res) :
    gencode (s.aside p q e) = (gencode s).behind p q := issue_aside _ (complete_aside (blind_modifyCtx _)) s p q e

theorem hist_aside (s : State) (p : List Nat) (q : List HostAction) (e : Res) :
    hist (s.aside p q e) = (hist s).behind p q := issue_aside _ (complete_aside (blind_modifyCtx _)) s p q e

theorem policy_aside (s : State) (p : List Nat) (q : List HostAction) (e : Res) :
    policy (s.aside p q e) = (policy s).behind p q := issue_aside _ (complete_aside (blind_modifyCtx _)) s p q e

theorem wrhdr_aside (s : State) (p : List Nat) (q : List HostAction) (e : Res) :
    wrhdr (s.aside p q e) = (wrhdr s).behind p q := issue_aside _ (complete_aside blind_wrhdrBody) s p q e

theorem encbits_aside (s : State) (p : List Nat) (q : List HostAction) (e : Res) :
    encbits (s.aside p q e) = (encbits s).behind p q := issue_aside _ (complete_aside blind_encbitsBody) s p q e

theorem rdhdr_aside (s : State) (p : List Nat) (q : List HostAction) (e : Res) :
    rdhdr (s.aside p q e) = (rdhdr s).behind p q := issue_aside _ (complete_aside blind_rdhdrBody) s p q e

theorem rebuild_aside (s : State) (p : List Nat) (q : List HostAction) (e : Res) :
    rebuild (s.aside p q e) = (rebuild s).behind p q := issue_aside _ (complete_aside blind_rebuildBody) s p q e

theorem decbits_aside (s : State) (p : List Nat) (q : List HostAction) (e : Res) :
    decbits (s.aside p q e) = (decbits s).behind p q := issue_aside _ (complete_aside blind_decbitsBody) s p q e

theorem encodeUnits_aside (s : State) (p : List Nat) (q : List HostAction) (e : Res) :
    encodeUnits (s.aside p q e) = (encodeUnits s).behind p q := by
  unfold encodeUnits
  rw [count_aside]
  have hn : ((count s).behind p q).ctx.noneSeen = (count s).ctx.noneSeen := rfl
  simp only [hn]
  cases (count s).ctx.noneSeen with
  | true =>
    simp only [if_true]
    rw [andThen_behind fun s p q => wrhdr_aside s p q s.err, andThen_behind fun s p q => encbits_aside s p q s.err]
  | false =>
    simp only [Bool.false_eq_true, if_false]
    rw [andThen_behind fun s p q => build_aside s p q s.err, andThen_behind fun s p q => gencode_aside s p q s.err, andThen_behind fun s p q => hist_aside s p q s.err,
      andThen_behind fun s p q => policy_aside s p q s.err, andThen_behind fun s p q => wrhdr_aside s p q s.err, andThen_behind fun s p q => encbits_aside s p q s.err]

theorem decodeUnits_aside (s : State) (p : List Nat) (q : List HostAction) (e : Res) :
    decodeUnits (s.aside p q e) = (decodeUnits s).behind p q := by
  unfold decodeUnits
  rw [rdhdr_aside]
  refine andThen_behind ?_ _ _ _
  intro u p q
  simp only [show (u.behind p q).ctx = u.ctx from rfl]
  cases (!u.ctx.disable && !u.ctx.empty) with
  | true =>
    simp only [if_true]
    rw [State.behind, rebuild_aside, andThen_behind fun s p q => decbits_aside s p q s.err]
  | false =>
    simp only [Bool.false_eq_true, if_false]
    rw [andThen_behind fun s p q => decbits_aside s p q s.err]

/-- No command looks at the events emitted before, at ERR or at the host's queue (R22, R27). -/
theorem run_aside (i : Instr) (s : State) (p : List Nat) (q : List HostAction) (e : Res) :
    run i (s.aside p q e) = (run i s).behind p q := by
  cases i with
  | clear => exact issue_aside .clear (complete_aside blind_cleanup) s p q e
  | count => exact count_aside s p q e
  | build => exact build_aside s p q e
  | gencode => exact gencode_aside s p q e
  | hist => exact hist_aside s p q e
  | policy => exact policy_aside s p q e
  | wrhdr => exact wrhdr_aside s p q e
  | encbits => exact encbits_aside s p q e
  | rdhdr => exact rdhdr_aside s p q e
  | rebuild => exact rebuild_aside s p q e
  | decbits => exact decbits_aside s p q e
  | encode => exact issue_aside .encode encodeUnits_aside s p q e
  | decode => exact issue_aside .decode decodeUnits_aside s p q e
  | reserved0 => rfl
  | reservedE => rfl
  | reservedF => rfl

end Sys2Proof.Machine
end

