-- ==== Sys2Proof/Laws/PerInstr.lean ====
section
/-!
SUPPORT. Statements proved command by command: the encoding of each command reads back as that command.
-/

namespace Sys2Proof.Laws.EncodingReadsBack

/-- The command is well-formed, and its code, written to CMD, selects it (R70, R72, R73). -/
def Statement (i : Instr) : Prop :=
  i.wellFormed = true ∧ decodeOp (encode i) = i ∧ decodeWord (encode i).toNat = .ok i

theorem clear : Statement .clear := by unfold Statement; decide
theorem count : Statement .count := by unfold Statement; decide
theorem build : Statement .build := by unfold Statement; decide
theorem gencode : Statement .gencode := by unfold Statement; decide
theorem hist : Statement .hist := by unfold Statement; decide
theorem policy : Statement .policy := by unfold Statement; decide
theorem wrhdr : Statement .wrhdr := by unfold Statement; decide
theorem encbits : Statement .encbits := by unfold Statement; decide
theorem rdhdr : Statement .rdhdr := by unfold Statement; decide
theorem rebuild : Statement .rebuild := by unfold Statement; decide
theorem decbits : Statement .decbits := by unfold Statement; decide
theorem encode : Statement .encode := by unfold Statement; decide
theorem decode : Statement .decode := by unfold Statement; decide
theorem reserved0 : Statement .reserved0 := by unfold Statement; decide
theorem reservedE : Statement .reservedE := by unfold Statement; decide
theorem reservedF : Statement .reservedF := by unfold Statement; decide

end Sys2Proof.Laws.EncodingReadsBack
end

