-- ==== Sys2Proof/Tests/Slice0.lean ====
section
/-!
SUPPORT. Tests: the decoding of every command word, the checks of WellFormed, one or two vectors of the spec for each
command, and for each statement a state that meets its hypotheses. Expected results are the spec's own (the
rule or vector is named); ASCII letters in the spec's examples are read as their byte values.
-/

namespace Sys2Proof.Tests

open Sys2Proof.Machine

set_option Elab.async false

/-! ### Helpers -/

/-- The state after a command. -/
def after (i : Instr) (s : State) : State :=
  match exec i s with
  | .next t => t
  | _ => s

/-- The block after reset with an input of these bytes and an empty output attached. -/
def attached (bytes : List Byte) : State :=
  { State.reset with
    io := { is := { bytes := bytes, pos := 0 }, os := { bytes := [], acc := 0, nacc := 0 }, prog := [] }
    isValid := true
    osValid := true }

/-- The state after these commands, from there. -/
def session (bytes : List Byte) (cs : List Instr) : State := cs.foldl (fun s i => after i s) (attached bytes)

/-- The same with one field of the context set by hand. -/
def withCtx (s : State) (c : Context) : State := { s with ctx := c }

/-- "AAAABBBCCD", the spec's running example. -/
def sample : List Byte := [0x41, 0x41, 0x41, 0x41, 0x42, 0x42, 0x42, 0x43, 0x43, 0x44]

/-- The 28 header bytes of the example (R135). -/
def sampleHeader : List Byte :=
  [0x48, 0x00, 0x1B, 0x00, 0x00, 0x00, 0x0A, 1, 1, 2, 0, 0, 0, 0, 0, 0, 0, 0, 0, 0, 0, 0, 0, 0x41, 0x42, 0x43, 0x44, 5]

/-- The 31 bytes ENCODE makes of the example (R181). -/
def sampleStream : List Byte := sampleHeader ++ [0x00, 0x55, 0xB7]

/-- A stream of one symbol, `A`, once: PAD = 7, content one byte. -/
def singleStream (content : Byte) : List Byte :=
  [0x48, 0, 0x18, 0, 0, 0, 1, 1, 0, 0, 0, 0, 0, 0, 0, 0, 0, 0, 0, 0, 0, 0, 0, 0x41, 7, content]

/-- Two symbols of length 1 and the third over-subscribed (R163's example). -/
def overfullStream : List Byte :=
  [0x48, 0, 0x1A, 0, 0, 0, 1, 3, 0, 0, 0, 0, 0, 0, 0, 0, 0, 0, 0, 0, 0, 0, 0, 1, 2, 3, 0]

theorem after_exec (i : Instr) (s : State) : exec i s = .next (after i s) := by
  rw [after, exec_eq]

theorem attached_inv (bytes : List Byte) : (attached bytes).Inv :=
  ⟨by simp [cursorOk, attached], by show accumulatorOk 0 0 = true; decide, rfl⟩

theorem session_inv (bytes : List Byte) (cs : List Instr) : (session bytes cs).Inv := by
  have key : ∀ (cs : List Instr) (s : State), s.Inv → (cs.foldl (fun s i => after i s) s).Inv := by
    intro cs
    induction cs with
    | nil => exact fun _ h => h
    | cons i cs ih =>
      intro s h
      refine ih _ ?_
      have e : after i s = run i s := by rw [after, exec_eq]
      show (after i s).Inv
      rw [e]
      exact run_inv i s h
  exact key cs _ (attached_inv bytes)

theorem session_streams (bytes : List Byte) (cs : List Instr) :
    (session bytes cs).isValid = true ∧ (session bytes cs).osValid = true ∧ (session bytes cs).io.is.bytes = bytes := by
  have key : ∀ (cs : List Instr) (s : State), (cs.foldl (fun s i => after i s) s).isValid = s.isValid ∧
      (cs.foldl (fun s i => after i s) s).osValid = s.osValid ∧
      (cs.foldl (fun s i => after i s) s).io.is.bytes = s.io.is.bytes := by
    intro cs
    induction cs with
    | nil => exact fun _ => ⟨rfl, rfl, rfl⟩
    | cons i cs ih =>
      intro s
      have e : after i s = run i s := by rw [after, exec_eq]
      have hf := run_frame i s
      obtain ⟨h1, h2, h3⟩ := ih (after i s)
      rw [List.foldl_cons, h1, h2, h3, e]
      exact ⟨hf.isValid, hf.osValid, hf.isBytes⟩
  exact key cs _

/-! ### WellFormed and decoding -/

theorem test_wordTooWide : commandWordOk 16 = false ∧ commandWordOk 15 = true ∧ decodeTableWord 5 16 = none := by decide

theorem test_cursorPastEnd : cursorOk 0 1 = false ∧ cursorOk 1 9 = false ∧ cursorOk 1 8 = true := by decide

theorem test_accumulatorTooWide : accumulatorOk 1 0 = false ∧ accumulatorOk 2 1 = false ∧ accumulatorOk 1 1 = true := by
  decide

theorem test_attachMalformed :
    step { State.reset with pending := [.attachIS { bytes := [], pos := 1 }] } = .refused .streamMalformed ∧
    step { State.reset with pending := [.attachOS { bytes := [], acc := 1, nacc := 0 }] } = .refused .streamMalformed :=
  ⟨rfl, rfl⟩

/-- R72, unit sequencer. -/
theorem test_decodeSequencer :
    decodeTableWord 4 0b0001 = some .clear ∧ decodeTableWord 4 0b1100 = some .encode ∧
    decodeTableWord 4 0b1101 = some .decode := by decide

/-- R72, units frequency_counter, huffman_tree_builder, canonical_code_generator. -/
theorem test_decodeCounterBuilderCode :
    decodeTableWord 4 0b0010 = some .count ∧ decodeTableWord 4 0b0011 = some .build ∧
    decodeTableWord 4 0b0100 = some .gencode := by decide

/-- R72, unit code_length_histogram. -/
theorem test_decodeHistogram : decodeTableWord 4 0b0101 = some .hist ∧ decodeTableWord 4 0b0110 = some .policy := by decide

/-- R72, the header codec. -/
theorem test_decodeHeader : decodeTableWord 4 0b0111 = some .wrhdr ∧ decodeTableWord 4 0b1001 = some .rdhdr := by decide

/-- R72, the bit encoder and the bit decoder. -/
theorem test_decodeContent :
    decodeTableWord 4 0b1000 = some .encbits ∧ decodeTableWord 4 0b1010 = some .rebuild ∧
    decodeTableWord 4 0b1011 = some .decbits := by decide

/-- R73. -/
theorem test_decodeReserved :
    decodeTableWord 4 0b0000 = some .reserved0 ∧ decodeTableWord 4 0b1110 = some .reservedE ∧
    decodeTableWord 4 0b1111 = some .reservedF := by decide

/-! ### One step, from the spec's examples -/

/-- R180's example. -/
theorem test_clear :
    let c := (after .clear (session sample [.count])).ctx
    symAt c.freq 0x41 = 0 ∧ c.clen = 0 ∧ c.phase = .idle := by decide +kernel

/-- R90's example. -/
theorem test_count :
    let c := (after .count (attached sample)).ctx
    [0x41, 0x42, 0x43, 0x44, 0x45].map (symAt c.freq) = [4, 3, 2, 1, 0] ∧ c.clen = 10 ∧ c.phase = .counted := by
  decide +kernel

/-- R90: an empty input still moves PHASE. -/
theorem test_countEmpty :
    let s := after .count (attached [])
    s.ctx.clen = 0 ∧ s.ctx.phase = .counted ∧ s.err = .ok := by decide +kernel

/-- R100's example: the root is Internal(A, Internal(B, Internal(D, C))), nodes numbered as in R18. -/
theorem test_build :
    (after .build (session sample [.count])).ctx.root =
      .internal 6 (.leaf 0 0x41 4) (.internal 5 (.leaf 1 0x42 3) (.internal 4 (.leaf 3 0x44 1) (.leaf 2 0x43 2) 3) 6) 10 := by
  decide +kernel

/-- R100: nothing to build from an all-zero table. -/
theorem test_buildNoneSeen : (after .build (session [] [.count])).err = .eSeq := by decide +kernel

/-- R110's example. -/
theorem test_gencode :
    let c := (after .gencode (session sample [.count, .build])).ctx
    c.symlen = [⟨0x41, 1⟩, ⟨0x42, 2⟩, ⟨0x43, 3⟩, ⟨0x44, 3⟩] ∧ c.pad = 5 ∧
    [0x41, 0x42, 0x43, 0x44].map (symAt c.code) = [[false], [true, false], [true, true, false], [true, true, true]] := by
  decide +kernel

/-- R113: the single symbol gets length 1 and code "0". -/
theorem test_gencodeSingle :
    let c := (after .gencode (session [0x5A] [.count, .build])).ctx
    c.symlen = [⟨0x5A, 1⟩] ∧ symAt c.code 0x5A = [false] ∧ c.pad = 7 := by decide +kernel

/-- R125's example. -/
theorem test_hist :
    let c := (after .hist (session sample [.count, .build, .gencode])).ctx
    [1, 2, 3, 4, 16].map (lenAt c.lcnt) = [1, 1, 2, 0, 0] ∧ c.maxlen = 3 := by decide +kernel

/-- R125: a length above 16 is in no bucket but raises MAXLEN. -/
theorem test_histLong :
    let c := (after .hist (withCtx (attached []) { Context.clean with
      symlen := [⟨1, 16⟩, ⟨2, 17⟩], nsym := 2, phase := .coded })).ctx
    lenAt c.lcnt 16 = 1 ∧ c.maxlen = 17 := by decide +kernel

/-- R126's example: the sample is not disabled. -/
theorem test_policy : (after .policy (session sample [.count, .build, .gencode, .hist])).ctx.disable = false := by
  decide +kernel

/-- R126: MAXLEN = 17 disables, MAXLEN = 16 does not (V-POL-4, V-POL-5). -/
theorem test_policyLong :
    (after .policy (withCtx (attached []) { Context.clean with maxlen := 17, phase := .histed })).ctx.disable = true ∧
    (after .policy (withCtx (attached []) { Context.clean with maxlen := 16, phase := .histed })).ctx.disable = false := by
  decide +kernel

/-- R135's example. -/
theorem test_wrhdr : (after .wrhdr (session sample [.count, .build, .gencode, .hist, .policy])).io.os.bytes = sampleHeader := by
  decide +kernel

/-- R136 (V-HDR-2). -/
theorem test_wrhdrEmpty :
    let s := after .wrhdr (session [] [.count])
    s.io.os.bytes = [0x48, 0x00, 0x02] ∧ s.ctx.empty = true := by decide +kernel

/-- R150's example. -/
theorem test_encbits :
    (after .encbits (session sample [.count, .build, .gencode, .hist, .policy, .wrhdr])).io.os.bytes =
      sampleHeader ++ [0x00, 0x55, 0xB7] := by decide +kernel

/-- R137, R153: the raw path copies the input (V-HDR-3's form). -/
theorem test_encbitsRaw :
    (after .encbits (withCtx (attached sample) { Context.clean with disable := true, phase := .hdrWritten })).io.os.bytes =
      sample := by decide +kernel

/-- R139's example. -/
theorem test_rdhdr :
    let s := after .rdhdr (attached [0x48, 0x00, 0x02])
    s.ctx.empty = true ∧ s.ctx.clen = 0 ∧ s.ctx.nsym = 0 ∧ s.ctx.disable = false ∧ s.ctx.phase = .hdrRead ∧
    s.io.is.pos = 24 := by decide +kernel

/-- R197: a declared length one too small; 1 + 23 + 4 bytes consumed. -/
theorem test_rdhdrLength :
    let s := after .rdhdr (attached (sampleStream.set 2 0x1A))
    s.err = .eHdrlen ∧ s.io.is.pos = 8 * 28 ∧ s.ctx.phase = .idle := by decide +kernel

/-- R160's example. -/
theorem test_rebuild :
    (after .rebuild (session sampleStream [.rdhdr])).ctx.root =
      .internal 0 (.leaf 1 0x41 0)
        (.internal 2 (.leaf 3 0x42 0) (.internal 4 (.leaf 5 0x43 0) (.leaf 6 0x44 0) 0) 0) 0 := by decide +kernel

/-- R163's example. -/
theorem test_rebuildOverfull :
    let s := after .rebuild (session overfullStream [.rdhdr])
    s.err = .eTree ∧ s.ctx.symlen = [] := by decide +kernel

/-- R166's example. -/
theorem test_decbits :
    let s := after .decbits (session sampleStream [.rdhdr, .rebuild])
    s.io.os.bytes = sample ∧ s.io.is.pos = 8 * 31 ∧ s.err = .ok := by decide +kernel

/-- R169: a 1 bit at the root of the single-symbol tree. -/
theorem test_decbitsAbsent : (after .decbits (session (singleStream 0x01) [.rdhdr, .rebuild])).err = .eTree := by
  decide +kernel

/-- R181's example. -/
theorem test_encode :
    let s := after .encode (attached sample)
    s.io.os.bytes = sampleStream ∧ s.io.prog.length = 10 := by decide +kernel

/-- R181: the empty input. -/
theorem test_encodeEmpty : (after .encode (attached [])).io.os.bytes = [0x48, 0x00, 0x02] := by decide +kernel

/-- R182's example. -/
theorem test_decode : (after .decode (attached sampleStream)).io.os.bytes = sample := by decide +kernel

/-- R145, R200: cut inside the length-count table. -/
theorem test_decodeTruncated :
    let s := after .decode (attached (sampleStream.take 12))
    s.err = .eEos ∧ s.ctx.clen = 0 ∧ s.io.os.bytes = [] := by decide +kernel

/-- R73, R202: ERR changes, the call in progress does not. -/
theorem test_reserved :
    ∀ i ∈ [Instr.reserved0, .reservedE, .reservedF],
      (after i (session [0x41] [.count])).err = .eCmd ∧ (after i (session [0x41] [.count])).ctx.phase = .counted := by
  decide +kernel

/-- R23, R84: a command word placed as the next action after reset runs; COUNT finds no stream. -/
theorem test_withFetchWord : step (State.reset.withFetchWord 4 0b0010) = .next { State.reset with err := .eNull } := rfl

/-! ### The statements' hypotheses are met

For each statement with hypotheses, a state and operands that meet them all; a statement of several clauses has
one for each. -/

/-- One byte of input: the shortest input with a content. -/
def one : List Byte := [0x41]

/-- One state in each phase of its encode. -/
def counted : State := session one [.count]
def built : State := session one [.count, .build]
def coded : State := session one [.count, .build, .gencode]
def histed : State := session one [.count, .build, .gencode, .hist]
def policed : State := session one [.count, .build, .gencode, .hist, .policy]
def headed : State := session one [.count, .build, .gencode, .hist, .policy, .wrhdr]
def encoded : State := session one [.count, .build, .gencode, .hist, .policy, .wrhdr, .encbits]

/-- And in each phase of a decode, of a full stream, of the single symbol's and of the empty form. -/
def read : State := session sampleStream [.rdhdr]
def rebuilt : State := session sampleStream [.rdhdr, .rebuild]
def readSingle : State := session (singleStream 0) [.rdhdr]
def rebuiltSingle : State := session (singleStream 0) [.rdhdr, .rebuild]
def rebuiltBad : State := session (singleStream 1) [.rdhdr, .rebuild]
def readEmpty : State := session [0x48, 0, 2] [.rdhdr]

theorem counted_ok : counted.err = .ok ∧ counted.ctx.phase = .counted := by decide +kernel
theorem built_ok : built.err = .ok ∧ built.ctx.phase = .built := by decide +kernel
theorem coded_ok : coded.err = .ok ∧ coded.ctx.phase = .coded := by decide +kernel
theorem histed_ok : histed.err = .ok ∧ histed.ctx.phase = .histed := by decide +kernel
theorem policed_ok : policed.err = .ok ∧ policed.ctx.phase = .policed ∧ policed.ctx.disable = false := by decide +kernel
theorem headed_ok : headed.err = .ok ∧ headed.ctx.phase = .hdrWritten ∧ headed.io.os.nacc = 0 := by decide +kernel
theorem encoded_ok : encoded.err = .ok ∧ encoded.ctx.phase = .idle := by decide +kernel
theorem readSingle_ok :
    readSingle.err = .ok ∧ readSingle.ctx.phase = .hdrRead ∧ readSingle.ctx.disable = false ∧ readSingle.ctx.empty = false := by
  decide +kernel
theorem rebuiltSingle_ok : rebuiltSingle.err = .ok ∧ rebuiltSingle.ctx.phase = .rebuilt ∧
    rebuiltSingle.ctx.empty = false ∧ rebuiltSingle.ctx.disable = false ∧
    (List.replicate 7 false).length = rebuiltSingle.ctx.pad.toNat ∧ one.length = rebuiltSingle.ctx.clen.toNat ∧
    rebuiltSingle.ctx.root.follow [false] = .leaf 1 0x41 0 ∧
    rebuiltSingle.io.is.rest = List.replicate 7 false ++ (one.flatMap (fun _ => [false]) ++ []) := by decide +kernel
theorem rebuiltBad_ok : rebuiltBad.ctx.phase = .rebuilt ∧
    rebuiltBad.ctx.symlen = [{ sym := 0x41, len := 1 }] ∧ (List.replicate 7 false).length = rebuiltBad.ctx.pad.toNat ∧
    0 < rebuiltBad.ctx.clen.toNat ∧
    rebuiltBad.io.is.rest = List.replicate 7 false ++ (List.replicate 0 false ++ true :: []) := by decide +kernel
theorem rebuilt_ok : rebuilt.ctx.phase = .rebuilt ∧ rebuilt.ctx.symlen.length = 4 := by decide +kernel
theorem readEmpty_ok : readEmpty.err = .ok ∧ readEmpty.ctx.phase = .hdrRead ∧ readEmpty.ctx.empty = true := by decide +kernel

/-- A state whose context is clean but for what is given. -/
abbrev hand (c : Context) : State := withCtx (attached one) c

theorem first_to {bytes : List Byte} {i : Instr} {t : State} (h : t = session bytes [i]) : exec i (attached bytes) = .next t := by
  rw [h, session, List.foldl_cons, List.foldl_nil]
  exact after_exec i (attached bytes)

theorem step_to {bytes : List Byte} {cs : List Instr} {i : Instr} {t : State} (h : t = session bytes (cs ++ [i])) :
    exec i (session bytes cs) = .next t := by
  rw [h, after_exec, session, session, List.foldl_append, List.foldl_cons, List.foldl_nil]

theorem counted_inv : counted.Inv := session_inv one _
theorem coded_inv : coded.Inv := session_inv one _
theorem policed_inv : policed.Inv := session_inv one _
theorem headed_inv : headed.Inv := session_inv one _
theorem headed_streams : headed.isValid = true ∧ headed.osValid = true ∧ headed.io.is.bytes = one := by
  rw [headed]
  exact session_streams one _
theorem headed_step : exec .encbits headed = .next encoded := by rw [headed]; exact step_to rfl
theorem policed_step : exec .wrhdr policed = .next headed := by rw [policed]; exact step_to rfl

theorem attached_rest (bytes : List Byte) : (attached bytes).io.is.rest = bytesBits bytes ++ [] := (List.append_nil _).symm

theorem witness_DecodeEncodeAgree : Instr.clear.wellFormed = true ∧ (15 : Nat) < 16 ∧ (16 : Nat) ≤ 16 := by decide

theorem witness_StepRunsTheCommand :
    { State.reset with pending := [.command 2] }.pending = .command 2 :: [] ∧ 4 ≤ (4 : Nat) ∧ (15 : Nat) < 16 ∧
    State.reset.pending = [] := ⟨rfl, Nat.le_refl 4, by decide, rfl⟩

theorem witness_HostStreamActions :
    { State.reset with pending := [.detachIS] }.pending = .detachIS :: [] ∧
    { State.reset with pending := [.detachOS] }.pending = .detachOS :: [] ∧
    (1 : Byte).toNat < 2 ^ (1 : Fin 8).val ∧ 2 ^ (1 : Fin 8).val ≤ (2 : Byte).toNat ∧
    8 * one.length < 9 ∧ 8 ≤ 8 * one.length ∧ (attached one).ctx.phase = .idle ∧
    counted.ctx.phase ≠ .idle ∧ counted.ctx.phase ≠ .hdrRead ∧ counted.ctx.phase ≠ .rebuilt ∧ [0x42] ≠ counted.io.is.bytes := by
  rw [counted, (session_streams one [.count]).2.2, ← counted, counted_ok.2]
  decide

theorem witness_HardwareReset : { State.reset with pending := [.reset] }.pending = .reset :: [] := rfl

theorem witness_IdleIffClean : State.reset.Inv ∧ counted.Inv ∧ counted.ctx.phase ≠ .idle :=
  ⟨⟨rfl, by decide, rfl⟩, counted_inv, by rw [counted_ok.2]; decide⟩

/-- A phase refused, a stream missing, both passed (COUNT). -/
theorem witness_AcceptanceCheck :
    ¬ counted.ctx.phase = .idle ∧ (State.reset.ctx.phase = .idle ∧ State.reset.isValid = false) ∧
    ((attached one).ctx.phase = .idle ∧ (attached one).isValid = true) :=
  ⟨by rw [counted_ok.2]; decide, ⟨rfl, rfl⟩, rfl, rfl⟩

theorem witness_PhaseTransitions :
    (exec .count (attached one) = .next counted ∧ counted.err = .ok) ∧
    (exec .build (attached one) = .next (after .build (attached one)) ∧ (after .build (attached one)).err = .eSeq) ∧
    (exec .rdhdr (attached one) = .next (after .rdhdr (attached one)) ∧ (after .rdhdr (attached one)).err = .eMarker) :=
  ⟨⟨first_to rfl, counted_ok.1⟩, ⟨after_exec _ _, by decide +kernel⟩, after_exec _ _, by decide +kernel⟩

/-- The seven-command encode, the short encode, both decodes, ENCODE and DECODE are calls. -/
theorem witness_LegalCallSequences :
    (attached one).ctx.phase = .idle ∧ ((attached []).Inv ∧ (attached []).io.is.bytes.length < 2 ^ 32) ∧
    (attached one).call [.count, .build, .gencode, .hist, .policy, .wrhdr, .encbits] encoded ∧
    (attached []).call [.count, .wrhdr, .encbits] (session [] [.count, .wrhdr, .encbits]) ∧
    (attached (singleStream 0)).call [.rdhdr, .rebuild, .decbits] (session (singleStream 0) [.rdhdr, .rebuild, .decbits]) ∧
    (attached [0x48, 0, 2]).call [.rdhdr, .decbits] (session [0x48, 0, 2] [.rdhdr, .decbits]) ∧
    (attached []).call [.encode] (session [] [.encode]) ∧
    (attached [0x48, 0, 2]).call [.decode] (session [0x48, 0, 2] [.decode]) := by
  refine ⟨rfl, ⟨attached_inv _, by decide⟩,
    ⟨counted, first_to rfl, counted_ok.1, by rw [counted_ok.2]; decide,
      built, by rw [counted]; exact step_to rfl, built_ok.1, by rw [built_ok.2]; decide,
      coded, by rw [built]; exact step_to rfl, coded_ok.1, by rw [coded_ok.2]; decide,
      histed, by rw [coded]; exact step_to rfl, histed_ok.1, by rw [histed_ok.2]; decide,
      policed, by rw [histed]; exact step_to rfl, policed_ok.1, by rw [policed_ok.2.1]; decide,
      headed, policed_step, headed_ok.1, by rw [headed_ok.2.1]; decide, headed_step, encoded_ok⟩,
    ⟨session [] [.count], first_to rfl, by decide +kernel, by decide +kernel,
      session [] [.count, .wrhdr], step_to rfl, by decide +kernel, by decide +kernel, step_to rfl, by decide +kernel,
      by decide +kernel⟩,
    ⟨readSingle, first_to rfl, readSingle_ok.1, by rw [readSingle_ok.2.1]; decide,
      rebuiltSingle, by rw [readSingle]; exact step_to rfl, rebuiltSingle_ok.1, by rw [rebuiltSingle_ok.2.1]; decide,
      by rw [rebuiltSingle]; exact step_to rfl, by decide +kernel, by decide +kernel⟩,
    ⟨readEmpty, first_to rfl, readEmpty_ok.1, by rw [readEmpty_ok.2.1]; decide,
      by rw [readEmpty]; exact step_to rfl, by decide +kernel, by decide +kernel⟩,
    ⟨first_to rfl, by decide +kernel, by decide +kernel⟩, first_to rfl, by decide +kernel, by decide +kernel⟩

theorem witness_ErrorEntry :
    (exec .rdhdr (attached []) = .next (after .rdhdr (attached [])) ∧ (after .rdhdr (attached [])).err = .eEos) ∧
    (exec .count State.reset = .next (after .count State.reset) ∧ (after .count State.reset).err = .eNull) :=
  ⟨⟨after_exec _ _, by decide +kernel⟩, after_exec _ _, by decide +kernel⟩

theorem witness_WhichErrors : ∃ t, exec .decode (attached []) = .next t ∧ t.err = .eEos :=
  ⟨_, after_exec _ _, by decide +kernel⟩

theorem witness_ReservedCodes : (0xE : BitVec 4) = 0x0 ∨ (0xE : BitVec 4) = 0xE ∨ (0xE : BitVec 4) = 0xF := by decide

theorem witness_StreamFrame :
    exec .encbits headed = .next encoded ∧ encoded.err = .ok ∧ headed.io.is.pos ≤ 8 * headed.io.is.bytes.length ∧
    headed.io.os.wf ∧ exec .count (attached one) = .next counted ∧ exec .wrhdr policed = .next headed :=
  ⟨headed_step, encoded_ok.1, by have := headed_inv.cursor; simpa [cursorOk] using this, headed_inv.accumulator,
    first_to rfl, policed_step⟩

theorem witness_InputReads :
    (7 < 8 * one.length) ∧ (8 * one.length ≤ 8) ∧
    ({ bytes := [0x41, 0x42], pos := 0 } : IStream).rest = byteBits 0x41 ++ byteBits 0x42 ∧
    (8 = 8 * 1 ∧ ([0x41, 0x42] : List Byte)[1]? = some 0x42) ∧ (1 ≤ 8 * one.length ∧ 8 * one.length < 1 + 8) ∧
    (0 ≤ 8 * one.length ∧ 8 * one.length < 0 + 16) ∧ (0 ≤ 8 * one.length ∧ 8 * one.length < 0 + 32) ∧
    ({ bytes := [1, 2], pos := 0 } : IStream).rest = bytesBits [1, 2] ++ [] ∧
    ({ bytes := [1, 2, 3, 4], pos := 0 } : IStream).rest = bytesBits [1, 2, 3, 4] ++ [] := by decide

theorem witness_OutputWrites :
    ({ bytes := [], acc := 0, nacc := 0 } : OStream).wf ∧ ({ bytes := [], acc := 127, nacc := 7 } : OStream).wf ∧
    (7 : Fin 8) ≠ 0 := by decide

theorem witness_ClearCompletes : (attached one).ctx.isClean = true := by decide +kernel

theorem witness_CountCompletes :
    ((attached one).ctx.phase = .idle ∧ (attached one).isValid = true) ∧ counted.ctx.phase ≠ .idle ∧
    (State.reset.ctx.phase = .idle ∧ State.reset.isValid = false) :=
  ⟨⟨rfl, rfl⟩, by rw [counted_ok.2]; decide, rfl, rfl⟩

theorem witness_CountTotals :
    (attached one).Inv ∧ (attached one).ctx.phase = .idle ∧ (attached one).isValid = true ∧
    (attached one).io.is.bytes.length < 2 ^ 32 := ⟨attached_inv _, rfl, rfl, by decide⟩

theorem witness_BuildCompletes :
    (counted.ctx.phase = .counted ∧ ∃ b : Byte, symAt counted.ctx.freq b ≠ 0) ∧ (attached one).ctx.phase ≠ .counted ∧
    (∀ b : Byte, symAt (session [] [.count]).ctx.freq b = 0) :=
  ⟨⟨counted_ok.2, 0x41, by decide +kernel⟩, nofun, (noneSeen_iff _).1 (by decide +kernel)⟩

theorem witness_BuildResult :
    counted.Inv ∧ counted.ctx.phase = .counted ∧ counted.io.is.bytes ≠ [] ∧ counted.io.is.bytes.length < 2 ^ 32 := by
  refine ⟨counted_inv, counted_ok.2, ?_⟩
  rw [counted, (session_streams one [.count]).2.2]
  decide

theorem witness_GencodeCompletes :
    (built.ctx.phase = .built ∧ built.ctx.root.full = true ∧ (built.ctx.root.leaves.map Prod.fst).Nodup ∧
      built.ctx.root.leaves.length ≤ 256) ∧ counted.ctx.phase ≠ .built := by
  refine ⟨⟨built_ok.2, ?_⟩, by rw [counted_ok.2]; decide⟩
  have h : built.ctx.root = .leaf 0 0x41 1 := by decide +kernel
  rw [h]
  decide

theorem witness_PaddingAligns :
    coded.Inv ∧ coded.ctx.phase = .coded ∧ coded.io.is.bytes.length < 2 ^ 32 := by
  refine ⟨coded_inv, coded_ok.2, ?_⟩
  rw [coded, (session_streams one [.count, .build, .gencode]).2.2]
  decide

/-- A decoder's state with given records. -/
theorem handRead (rs : List SymLen) (n : BitVec 9) :
    let d := hand { Context.clean with symlen := rs, nsym := n, phase := .hdrRead }
    d.ctx.phase = .hdrRead ∧ d.ctx.disable = false ∧ d.ctx.empty = false ∧ d.ctx.symlen = rs ∧ d.ctx.nsym = n :=
  ⟨rfl, rfl, rfl, rfl, rfl⟩

/-- Two records of one length and two of different lengths (R110's example); `handRead` is its decoder's state. -/
theorem witness_CanonicalCodes :
    (session sample [.count, .build, .gencode]).Inv ∧ (session sample [.count, .build, .gencode]).ctx.phase = .coded ∧
    (session sample [.count, .build, .gencode]).ctx.symlen = [⟨0x41, 1⟩, ⟨0x42, 2⟩, ⟨0x43, 3⟩, ⟨0x44, 3⟩] :=
  ⟨session_inv _ _, by decide +kernel⟩

theorem witness_HistCompletes : coded.ctx.phase = .coded ∧ built.ctx.phase ≠ .coded ∧ 1 ≤ (16 : Nat) ∧ (16 : Nat) ≤ 16 :=
  ⟨coded_ok.2, by rw [built_ok.2]; decide, by decide, by decide⟩

theorem witness_PolicyCompletes : histed.ctx.phase = .histed ∧ coded.ctx.phase ≠ .histed :=
  ⟨histed_ok.2, by rw [coded_ok.2]; decide⟩

theorem witness_PolicyGuarantee : policed.Inv ∧ policed.ctx.phase = .policed ∧ policed.ctx.disable = false :=
  ⟨policed_inv, policed_ok.2⟩

theorem witness_EqualLengthsAreEight : policed.Inv ∧ policed.ctx.phase = .policed := ⟨policed_inv, policed_ok.2.1⟩

theorem witness_WrhdrCompletes :
    (attached one).osValid = true ∧
    (session [] [.count]).ctx.phase = .counted ∧ (∀ b : Byte, symAt (session [] [.count]).ctx.freq b = 0) ∧
    (hand { Context.clean with disable := true, phase := .policed }).ctx.disable = true ∧
    (policed.ctx.phase = .policed ∧ policed.ctx.disable = false) :=
  ⟨rfl, by decide +kernel, (noneSeen_iff _).1 (by decide +kernel), rfl, policed_ok.2⟩

theorem witness_EncbitsCompletes :
    (headed.ctx.phase = .hdrWritten ∧ headed.isValid = true ∧ headed.osValid = true ∧ headed.ctx.empty = false ∧
      headed.ctx.disable = false) ∧
    (hand { Context.clean with empty := true, phase := .hdrWritten }).ctx.empty = true ∧
    (hand { Context.clean with disable := true, phase := .hdrWritten }).ctx.disable = true :=
  ⟨⟨headed_ok.2.1, headed_streams.1, headed_streams.2.1, by decide +kernel, by decide +kernel⟩, rfl, rfl⟩

theorem witness_ContentEndsOnByte :
    headed.Inv ∧ headed.ctx.phase = .hdrWritten ∧ headed.isValid = true ∧ headed.osValid = true ∧
    headed.io.is.bytes.length < 2 ^ 32 ∧ headed.io.os.nacc = 0 := by
  refine ⟨headed_inv, headed_ok.2.1, headed_streams.1, headed_streams.2.1, ?_, headed_ok.2.2⟩
  rw [headed_streams.2.2]
  decide

/-- A raw header, the empty form, a full header of no symbol and one of 256. -/
theorem witness_RdhdrForms :
    (attached one).ctx.phase = .idle ∧ (attached one).isValid = true ∧
    (attached ([0x4E] ++ u32Bytes 0)).io.is.rest = bytesBits ([0x4E] ++ u32Bytes 0) ++ [] ∧
    (attached [0x48, 0, 2]).io.is.rest = bytesBits [0x48, 0, 2] ++ [] ∧
    (List.replicate 16 (0 : Byte)).length = 16 ∧ ((List.replicate 16 (0 : Byte)).map BitVec.toNat).sum = ([] : List Byte).length ∧
    ((255 :: 1 :: List.replicate 14 (0 : Byte)).map BitVec.toNat).sum = (allSymbols : List Byte).length :=
  ⟨rfl, rfl, attached_rest _, attached_rest _, by decide, by decide, by decide +kernel⟩

theorem witness_RdhdrErrors :
    ((0x49 : Byte) ≠ 0x48 ∧ (0x49 : Byte) ≠ 0x4E ∧ (attached [0x49]).io.is.rest = byteBits 0x49 ++ []) ∧
    (256 * (0 : Byte).toNat + (3 : Byte).toNat ≠ 2 ∧ (255 :: 2 :: List.replicate 14 (0 : Byte)).length = 16 ∧
      256 < ((255 :: 2 :: List.replicate 14 (0 : Byte)).map BitVec.toNat).sum) ∧
    (256 * (0 : Byte).toNat + (22 : Byte).toNat ≠ 23 + ([] : List Byte).length ∧
      ((List.replicate 16 (0 : Byte)).map BitVec.toNat).sum = ([] : List Byte).length) :=
  ⟨⟨by decide, by decide, by decide⟩, ⟨by decide, by decide, by decide⟩, by decide, by decide⟩

/-- Seven bits; a raw header one byte short; a length one byte short; content length and counts one byte short; a
padding byte missing. -/
theorem witness_RdhdrTruncated :
    ({ bytes := one, pos := 1 } : IStream).rest.length < 8 ∧
    ((attached [0x4E, 0, 0, 0]).io.is.rest = byteBits 0x4E ++ bytesBits [0, 0, 0] ∧ (bytesBits [0, 0, 0]).length < 32) ∧
    ((attached [0x48, 0]).io.is.rest = byteBits 0x48 ++ bytesBits [0] ∧ (bytesBits [0]).length < 16) ∧
    ((attached (sampleHeader.take 22)).io.is.rest = bytesBits [0x48, 0, 0x1B] ++ bytesBits ((sampleHeader.take 22).drop 3) ∧
      (bytesBits ((sampleHeader.take 22).drop 3)).length < 8 * 20) ∧
    ((attached (sampleHeader.take 27)).io.is.rest =
        bytesBits ([0x48, 0, 0x1B] ++ u32Bytes 10 ++ (sampleHeader.take 23).drop 7) ++ bytesBits [0x41, 0x42, 0x43, 0x44] ∧
      (bytesBits [0x41, 0x42, 0x43, 0x44]).length < 8 * ((((sampleHeader.take 23).drop 7).map BitVec.toNat).sum + 1)) := by
  decide +kernel

theorem handDecodable {rs : List SymLen} {n : BitVec 9} (h1 : n.toNat = rs.length) (h2 : rs.length ≤ 256)
    (h3 : rs.Pairwise fun a b => a.len.toNat ≤ b.len.toNat) (h4 : ∀ r ∈ rs, 1 ≤ r.len.toNat ∧ r.len.toNat ≤ 16) :
    (hand { Context.clean with symlen := rs, nsym := n, phase := .hdrRead }).ctx.decodable := ⟨h1, h2, h3, h4⟩

/-- Two records that fill the code space, the single symbol, and two that leave a slot empty (R164's example). -/
theorem witness_RebuildCompletes :
    let full := hand { Context.clean with symlen := [⟨1, 1⟩, ⟨2, 1⟩], nsym := 2, phase := .hdrRead }
    let single := hand { Context.clean with symlen := [⟨1, 1⟩], nsym := 1, phase := .hdrRead }
    let short := hand { Context.clean with symlen := [⟨1, 1⟩, ⟨2, 2⟩], nsym := 2, phase := .hdrRead }
    (full.ctx.phase = .hdrRead ∧ full.ctx.disable = false ∧ full.ctx.empty = false ∧ full.ctx.decodable ∧
      codeSpace full.ctx.symlen = 2 ^ 16) ∧
    (single.ctx.decodable ∧ single.ctx.singleSymbol) ∧
    (short.ctx.decodable ∧ codeSpace short.ctx.symlen ≠ 2 ^ 16 ∧ ¬ short.ctx.singleSymbol) := by
  refine ⟨⟨rfl, rfl, rfl, handDecodable ?_ ?_ ?_ ?_, ?_⟩, ⟨handDecodable ?_ ?_ ?_ ?_, 1, rfl⟩, handDecodable ?_ ?_ ?_ ?_, ?_,
    fun h => (by obtain ⟨b, h⟩ := h; cases h)⟩
  all_goals decide

theorem witness_DecbitsCodes :
    rebuiltSingle.ctx.phase = .rebuilt ∧ rebuiltSingle.isValid = true ∧ rebuiltSingle.osValid = true ∧
    rebuiltSingle.ctx.empty = false ∧ rebuiltSingle.ctx.disable = false ∧
    (List.replicate 7 false).length = rebuiltSingle.ctx.pad.toNat ∧ one.length = rebuiltSingle.ctx.clen.toNat ∧
    (∀ b ∈ one, [false] ≠ [] ∧ rebuiltSingle.ctx.root.hasPath [false] b) ∧
    rebuiltSingle.io.is.rest = List.replicate 7 false ++ (one.flatMap (fun _ => [false]) ++ []) := by
  obtain ⟨_, h1, h2, h3, h4, h5, h6, h7⟩ := rebuiltSingle_ok
  refine ⟨h1, (session_streams _ _).1, (session_streams _ _).2.1, h2, h3, h4, h5, fun b hb => ?_, h7⟩
  rw [List.mem_singleton.1 hb]
  exact ⟨by decide, 1, 0, h6⟩

theorem witness_DecbitsRawAndEmpty :
    let raw (n : Word32) := hand { Context.clean with disable := true, clen := n, phase := .hdrRead }
    (readEmpty.ctx.phase = .hdrRead ∧ readEmpty.isValid = true ∧ readEmpty.osValid = true ∧ readEmpty.ctx.empty = true) ∧
    ((raw 1).ctx.empty = false ∧ (raw 1).ctx.disable = true ∧ (raw 1).io.is.rest = bytesBits one ++ [] ∧
      one.length = (raw 1).ctx.clen.toNat) ∧
    ((raw 2).io.is.rest = bytesBits one ++ [] ∧ one.length < (raw 2).ctx.clen.toNat ∧ ([] : BitString).length < 8) :=
  ⟨⟨readEmpty_ok.2.1, (session_streams _ _).1, (session_streams _ _).2.1, readEmpty_ok.2.2⟩,
    ⟨rfl, rfl, attached_rest one, rfl⟩, attached_rest one, by decide, by decide⟩

/-- A state with other bytes in its input stream. -/
def withInput (s : State) (bytes : List Byte) : State :=
  { s with io := { s.io with is := { s.io.is with bytes := bytes } } }

theorem withInput_keeps (s : State) (bytes : List Byte) :
    (withInput s bytes).ctx = s.ctx ∧ (withInput s bytes).isValid = s.isValid ∧
    (withInput s bytes).osValid = s.osValid := ⟨rfl, rfl, rfl⟩

/-- The example's stream after REBUILD, cut to `n` bytes; 30 bytes are V-DEC-6. -/
abbrev cutTo (n : Nat) : State := withInput rebuilt (sampleStream.take n)

/-- The codes of A and B in the example (95_test_vectors.md). -/
def sampleCode (b : Byte) : BitString := if b = 0x41 then [false] else [true, false]

theorem cut_ok :
    rebuilt.ctx.empty = false ∧ rebuilt.ctx.disable = false ∧
    (cutTo 28).io.is.rest.length < rebuilt.ctx.pad.toNat ∧ (List.replicate 5 false).length = rebuilt.ctx.pad.toNat ∧
    (sample.take 7).length < rebuilt.ctx.clen.toNat ∧
    rebuilt.ctx.root.follow [false] = .leaf 1 0x41 0 ∧ rebuilt.ctx.root.follow [true, false] = .leaf 3 0x42 0 ∧
    (match rebuilt.ctx.root.follow [true] with | .internal _ _ _ _ => true | _ => false) = true ∧
    (cutTo 30).io.is.rest = List.replicate 5 false ++ ((sample.take 7).flatMap sampleCode ++ [true]) := by
  decide +kernel

/-- Cut inside the padding; cut inside the code of the eighth symbol, after seven (V-DEC-6). -/
theorem witness_DecbitsEnds :
    (rebuiltSingle.isValid = true ∧ rebuiltSingle.osValid = true ∧ rebuiltSingle.ctx.phase = .rebuilt) ∧
    (readEmpty.ctx.phase = .hdrRead ∧ readEmpty.ctx.empty = true) ∧
    (∀ n, (cutTo n).ctx.phase = .rebuilt ∧ (cutTo n).isValid = true ∧ (cutTo n).osValid = true ∧
      (cutTo n).ctx.empty = false ∧ (cutTo n).ctx.disable = false) ∧
    (cutTo 28).io.is.rest.length < (cutTo 28).ctx.pad.toNat ∧
    ((List.replicate 5 false).length = (cutTo 30).ctx.pad.toNat ∧ (sample.take 7).length < (cutTo 30).ctx.clen.toNat ∧
      (∀ b ∈ sample.take 7, sampleCode b ≠ [] ∧ (cutTo 30).ctx.root.hasPath (sampleCode b) b) ∧
      (∃ i l r f, (cutTo 30).ctx.root.follow [true] = .internal i l r f) ∧
      (cutTo 30).io.is.rest = List.replicate 5 false ++ ((sample.take 7).flatMap sampleCode ++ [true])) := by
  obtain ⟨h1, h2, h3, h4, h5, h6, h7, h8, h9⟩ := cut_ok
  have hv : rebuilt.isValid = true ∧ rebuilt.osValid = true :=
    ⟨(session_streams _ _).1, (session_streams _ _).2.1⟩
  simp only [withInput_keeps]
  refine ⟨⟨(session_streams _ _).1, (session_streams _ _).2.1, rebuiltSingle_ok.2.1⟩, readEmpty_ok.2,
    fun _ => ⟨rebuilt_ok.1, hv.1, hv.2, h1, h2⟩, h3, h4, h5, fun b hb => ?_, ?_, h9⟩
  · have key : ∀ b ∈ sample.take 7, b = 0x41 ∨ b = 0x42 := by decide
    rcases key b hb with rfl | rfl
    · exact ⟨by decide, 1, 0, h6⟩
    · exact ⟨by decide, 3, 0, h7⟩
  · cases hf : rebuilt.ctx.root.follow [true] with
    | internal i l r f => exact ⟨i, l, r, f, rfl⟩
    | leaf i u f => rw [hf] at h8; cases h8
    | absent => rw [hf] at h8; cases h8

/-- A tree of four symbols, and the single symbol's tree before a 1 bit. -/
theorem witness_DecbitsAbsentChild :
    (rebuilt.Inv ∧ rebuilt.ctx.phase = .rebuilt ∧ ¬ rebuilt.ctx.singleSymbol) ∧
    (rebuiltBad.Inv ∧ rebuiltBad.ctx.phase = .rebuilt ∧ rebuiltBad.isValid = true ∧ rebuiltBad.osValid = true ∧
      rebuiltBad.ctx.symlen = [{ sym := 0x41, len := 1 }] ∧ (List.replicate 7 false).length = rebuiltBad.ctx.pad.toNat ∧
      0 < rebuiltBad.ctx.clen.toNat ∧
      rebuiltBad.io.is.rest = List.replicate 7 false ++ (List.replicate 0 false ++ true :: [])) := by
  obtain ⟨h1, h2, h3, h4, h5⟩ := rebuiltBad_ok
  refine ⟨⟨session_inv _ _, rebuilt_ok.1, ?_⟩, session_inv _ _, h1, (session_streams _ _).1, (session_streams _ _).2.1,
    h2, h3, h4, h5⟩
  rintro ⟨b, h⟩
  have hl := rebuilt_ok.2
  rw [h] at hl
  cases hl

theorem witness_EncodeIsItsExpansion :
    counted.ctx.phase ≠ .idle ∧ (State.reset.ctx.phase = .idle ∧ State.reset.isValid = false) ∧
    ((attached one).ctx.phase = .idle ∧ (attached one).isValid = true ∧ (attached one).osValid = true) :=
  ⟨by rw [counted_ok.2]; decide, ⟨rfl, rfl⟩, rfl, rfl, rfl⟩

/-- A header that fails, one that leaves nothing to rebuild, one that does. -/
theorem witness_DecodeIsItsExpansion :
    (after .rdhdr (attached one)).err ≠ .ok ∧ (readEmpty.err = .ok ∧ readEmpty.ctx.empty = true) ∧
    (readSingle.err = .ok ∧ readSingle.ctx.disable = false ∧ readSingle.ctx.empty = false ∧
      exec .rebuild readSingle = .next rebuiltSingle ∧ rebuiltSingle.err = .ok) ∧
    (after .rebuild (session overfullStream [.rdhdr])).err ≠ .ok :=
  ⟨by decide +kernel, ⟨readEmpty_ok.1, readEmpty_ok.2.2⟩,
    ⟨readSingle_ok.1, readSingle_ok.2.2.1, readSingle_ok.2.2.2, by rw [readSingle]; exact step_to rfl, rebuiltSingle_ok.1⟩, by decide +kernel⟩

theorem witness_DecodeForms :
    ((attached one).Inv ∧ (attached one).ctx.phase = .idle ∧ one.length < 2 ^ 32) ∧
    (attached ([0x4E] ++ u32Bytes (BitVec.ofNat 32 one.length) ++ one)).io.is.rest =
      bytesBits ([0x4E] ++ u32Bytes (BitVec.ofNat 32 one.length) ++ one) ++ [] ∧
    (attached [0x48, 0x00, 0x02]).io.is.rest = bytesBits [0x48, 0x00, 0x02] ++ [] ∧
    (let counts : List Byte := 1 :: List.replicate 15 0;
      bucketRecords 1 counts one = [{ sym := 0x41, len := 1 }] ∧ counts.length = 16 ∧
      (counts.map BitVec.toNat).sum = one.length ∧ canonicalCode (bucketRecords 1 counts one) 0 = [false] ∧
      (attached (singleStream 0)).io.is.rest =
        bytesBits ([0x48, BitVec.ofNat 8 ((23 + one.length) / 256), BitVec.ofNat 8 (23 + one.length)] ++
          u32Bytes (BitVec.ofNat 32 one.length) ++ counts ++ one ++ [7]) ++
          (List.replicate 7 false ++ (one.flatMap (fun _ => [false]) ++ []))) :=
  ⟨⟨attached_inv _, rfl, by decide⟩, attached_rest _, attached_rest _, by decide +kernel⟩

theorem witness_BothStreamsFirst :
    let s := { attached one with osValid := false }
    s.Inv ∧ s.ctx.phase = .idle ∧ s.isValid = true ∧ s.osValid = false ∧ s.io.is.bytes ≠ [] ∧
    s.io.is.bytes.length < 2 ^ 32 :=
  ⟨⟨(attached_inv one).cursor, (attached_inv one).accumulator, rfl⟩, rfl, rfl, rfl, by decide, by decide⟩

/-- All 256 byte values once (V-POL-2). -/
def everyByte : List Byte := (List.range 256).map (BitVec.ofNat 8)

theorem everyByte_disabled : (Context.ofInput .policed everyByte).disable = true := by decide +kernel

/-- No input, an input that is coded, an input that the policy disables. -/
theorem witness_EncoderOutput :
    ((attached []).Inv ∧ (attached []).ctx.phase = .idle ∧ (attached []).isValid = true ∧ (attached []).osValid = true ∧
      (attached []).io.os.nacc = 0) ∧
    (one ≠ [] ∧ one.length < 2 ^ 32 ∧ (Context.ofInput .policed one).disable = false) ∧
    (everyByte ≠ [] ∧ everyByte.length < 2 ^ 32 ∧ (Context.ofInput .policed everyByte).disable = true) :=
  ⟨⟨attached_inv _, rfl, rfl, rfl, rfl⟩, ⟨by decide, by decide, by decide +kernel⟩, by simp [everyByte], by simp [everyByte], everyByte_disabled⟩

/-- What ENCODE writes for one byte stands in the decoder's input. -/
theorem witness_RoundTrip :
    ((attached one).Inv ∧ (attached one).ctx.phase = .idle ∧ (attached one).isValid = true ∧
      (attached one).osValid = true ∧ (attached one).io.os.nacc = 0 ∧ (attached one).io.is.bytes.length < 2 ^ 32) ∧
    (after .encode (attached one)).io.os.bytes = singleStream 0 ∧
    ((attached (singleStream 0)).Inv ∧ (attached (singleStream 0)).ctx.phase = .idle ∧
      (attached (singleStream 0)).io.is.rest = bytesBits (singleStream 0) ++ []) :=
  ⟨⟨attached_inv _, rfl, rfl, rfl, rfl, by decide⟩, by decide +kernel, attached_inv _, rfl, attached_rest _⟩

theorem witness_NothingReadsErrOrProg :
    let s := attached one
    let u := { attached one with err := .eSeq, io := { (attached one).io with prog := [1] } }
    s.ctx = u.ctx ∧ s.io.is = u.io.is ∧ s.io.os = u.io.os ∧ s.isValid = u.isValid ∧ s.osValid = u.osValid :=
  ⟨rfl, rfl, rfl, rfl, rfl⟩

theorem witness_ReusedContextIsFresh :
    (attached one).Inv ∧ (attached one).ctx.phase = .idle ∧ exec .encode (attached one) = .next (after .encode (attached one)) :=
  ⟨attached_inv _, rfl, after_exec _ _⟩

theorem witness_StepKeepsInvariant :
    { attached one with pending := [.command 2] }.Inv ∧
    ∃ t, step { attached one with pending := [.command 2] } = .next t :=
  ⟨⟨(attached_inv one).cursor, (attached_inv one).accumulator, rfl⟩, _, after_exec .count _⟩

theorem witness_StateBounds :
    (coded.Inv ∧ coded.ctx.phase = .coded) ∧ (policed.Inv ∧ policed.ctx.phase = .policed ∧ policed.ctx.disable = false) :=
  ⟨⟨coded_inv, coded_ok.2⟩, policed_inv, policed_ok.2⟩

theorem witness_EncoderTree :
    built.Inv ∧ built.ctx.phase ∈ [Phase.built, .coded, .histed, .policed] ∧ built.ctx.root.follow [] = .leaf 0 0x41 1 :=
  ⟨session_inv _ _, by rw [built_ok.2]; decide, by decide +kernel⟩

theorem witness_DecoderRecords :
    (readSingle.Inv ∧ readSingle.ctx.phase = .hdrRead) ∧ (rebuiltSingle.Inv ∧ rebuiltSingle.ctx.phase = .rebuilt) :=
  ⟨⟨session_inv _ _, readSingle_ok.2.1⟩, session_inv _ _, rebuiltSingle_ok.2.1⟩

end Sys2Proof.Tests
end

/-!
SUPPORT. Proofs of 00_scope.md: a step runs the command word the host has queued, and waits when there is none.
-/

namespace Sys2Proof

/-- A number that fits the port's four bits selects a command (R70). -/
theorem decodeWord_of_lt {w : Nat} (hw : w < 16) : decodeWord w = .ok (decodeOp (BitVec.ofNat 4 w)) := by
  simp [decodeWord, commandWordOk, hw]

/-- A table row of four bits or more keeps every bit of a command word (R70). -/
theorem commandWord_mod_two_pow {nbits w : Nat} (hn : 4 ≤ nbits) (hw : w < 16) : w % 2 ^ nbits = w :=
  Nat.mod_eq_of_lt (hw.trans_le (Nat.pow_le_pow_right Nat.two_pos hn))

theorem decodeTableWord_of_lt {nbits w : Nat} (hn : 4 ≤ nbits) (hw : w < 16) :
    decodeTableWord nbits w = some (decodeOp (BitVec.ofNat 4 w)) := by
  rw [decodeTableWord, commandWord_mod_two_pow hn hw, decodeWord_of_lt hw]

namespace Machine

/-- A command placed in front of the queue runs in the state it was placed in: the step takes it off again (R23). -/
theorem step_withFetchWord (s : State) (nbits w : Nat) :
    step (s.withFetchWord nbits w) = exec (decodeOp (BitVec.ofNat 4 (w % 2 ^ nbits))) s :=
  step_action (s := s.withFetchWord nbits w) (a := .command _) rfl

/-- Settles O3: a queued command is one action of the queue, a fetched word is queued first, an empty queue waits. -/
theorem stepRunsTheCommand : Obligations.StepRunsTheCommand := by
  refine ⟨fun s op rest hqueue => ?_, fun s nbits w hn hw => ⟨?_, ?_⟩, fun s hempty => ?_⟩
  · exact step_action hqueue
  · exact decodeTableWord_of_lt hn hw
  · rw [step_withFetchWord, commandWord_mod_two_pow hn hw]
  · exact step_idle hempty

end Machine

end Sys2Proof

/-!
SUPPORT. Proofs of 10_state.md: every step keeps the invariant, what the host's stream actions do, the stream frame of
the commands, what no command reads, the records and the tree of the decode commands, reset and STATUS.
-/

namespace Sys2Proof.Machine

/-! ### What each host action does to the invariant (R24, R25, R30, R223) -/

/-- The host's queue is no part of the invariant. -/
theorem inv_with_pending {s : State} (h : s.Inv) (q : List HostAction) : State.Inv { s with pending := q } :=
  ⟨h.cursor, h.accumulator, h.consistent⟩

theorem hardwareReset_inv {s : State} (h : s.Inv) : s.hardwareReset.Inv :=
  ⟨h.cursor, h.accumulator, clean_consistent _⟩

theorem detachInput_inv {s : State} (h : s.Inv) : (detachInput s).Inv := ⟨h.cursor, h.accumulator, h.consistent⟩

theorem detachOutput_inv {s : State} (h : s.Inv) : (detachOutput s).Inv := ⟨h.cursor, h.accumulator, h.consistent⟩

/-- The context stays consistent with the new input: an encode that is under way keeps its bytes, and the other phases do
not look at the input (R223). -/
theorem attachInput_inv {is : IStream} {s t : State} (h : s.Inv) (hn : attachInput is s = .next t) : t.Inv := by
  obtain ⟨hcursor, hsame, rfl⟩ := attachInput_next hn
  refine ⟨hcursor, h.accumulator, ?_⟩
  cases he : s.ctx.phase.encoding with
  | true =>
    have hbytes := hsame he
    simpa only [hbytes] using h.consistent
  | false => exact consistent_other_input is.bytes h.consistent he

theorem attachOutput_inv {os : OStream} {s t : State} (h : s.Inv) (hn : attachOutput os s = .next t) : t.Inv := by
  obtain ⟨hwf, rfl⟩ := attachOutput_next hn
  exact ⟨h.cursor, hwf, h.consistent⟩

/-- Every host action the model gives a meaning keeps the invariant. -/
theorem runAction_inv {a : HostAction} {s t : State} (h : s.Inv) (hn : runAction a s = .next t) : t.Inv := by
  cases a with
  | command op =>
    rw [runAction, exec_eq] at hn
    cases hn
    exact run_inv _ s h
  | attachIS is => exact attachInput_inv h hn
  | attachOS os => exact attachOutput_inv h hn
  | detachIS =>
    cases hn
    exact detachInput_inv h
  | detachOS =>
    cases hn
    exact detachOutput_inv h
  | reset =>
    cases hn
    exact hardwareReset_inv h

/-- Settles O51: a step waits, or takes one host action off the queue, and every action keeps the invariant. -/
theorem stepKeepsInvariant : Obligations.StepKeepsInvariant := by
  intro s t hinv hstep
  rcases step_next_cases hstep with ⟨_, rfl⟩ | ⟨a, rest, _, hrun⟩
  · exact hinv
  · exact runAction_inv (inv_with_pending hinv rest) hrun

/-! ### When the host's attachments are refused (R24, R25, R223) -/

theorem accumulatorOk_iff (acc : Byte) (nacc : Fin 8) : accumulatorOk acc nacc = true ↔ acc.toNat < 2 ^ nacc.val := by
  simp [accumulatorOk]

theorem cursorOk_iff (len pos : Nat) : cursorOk len pos = true ↔ pos ≤ 8 * len := by
  simp [cursorOk]

/-- The phases outside an encode (R223). -/
theorem encoding_eq_false_iff (p : Phase) : p.encoding = false ↔ p = .idle ∨ p = .hdrRead ∨ p = .rebuilt := by
  cases p <;> simp [Phase.encoding]

theorem attachOutput_of_fits {os : OStream} (s : State) (h : os.acc.toNat < 2 ^ os.nacc.val) :
    attachOutput os s = .next { s with io := { s.io with os := os }, osValid := true } := by
  simp [attachOutput, (accumulatorOk_iff os.acc os.nacc).2 h]

theorem attachOutput_of_overfull {os : OStream} (s : State) (h : 2 ^ os.nacc.val ≤ os.acc.toNat) :
    attachOutput os s = .refused .streamMalformed := by
  have hbad : ¬ accumulatorOk os.acc os.nacc = true := fun hok =>
    absurd ((accumulatorOk_iff _ _).1 hok) (Nat.not_lt.2 h)
  simp [attachOutput, hbad]

theorem attachInput_of_past_end {is : IStream} (s : State) (h : 8 * is.bytes.length < is.pos) :
    attachInput is s = .refused .streamMalformed := by
  have hbad : ¬ cursorOk is.bytes.length is.pos = true := fun hok =>
    absurd ((cursorOk_iff _ _).1 hok) (Nat.not_le.2 h)
  simp [attachInput, hbad]

theorem attachInput_of_allowed {is : IStream} {s : State} (hpos : is.pos ≤ 8 * is.bytes.length)
    (h : s.ctx.phase.encoding = false ∨ is.bytes = s.io.is.bytes) :
    attachInput is s = .next { s with io := { s.io with is := is }, isValid := true } := by
  have hok := (cursorOk_iff is.bytes.length is.pos).2 hpos
  rcases h with hidle | hsame
  · simp [attachInput, hok, hidle]
  · simp [attachInput, hok, ← hsame]

theorem attachInput_of_changed {is : IStream} {s : State} (hpos : is.pos ≤ 8 * is.bytes.length)
    (he : s.ctx.phase.encoding = true) (hne : is.bytes ≠ s.io.is.bytes) :
    attachInput is s = .refused .inputChangedDuringEncode := by
  have hok := (cursorOk_iff is.bytes.length is.pos).2 hpos
  simp [attachInput, hok, he, hne]

/-- Settles O4: the step runs the queued stream action, whose outcome the stream and the phase decide. -/
theorem hostStreamActions : Obligations.HostStreamActions := by
  intro s rest
  refine ⟨fun hq => step_action hq, fun hq => step_action hq, fun os hq => ?_, fun is hq => ?_⟩
  · rw [step_action hq, runAction]
    exact ⟨attachOutput_of_fits _, attachOutput_of_overfull _⟩
  · rw [step_action hq, runAction]
    refine ⟨attachInput_of_past_end _, fun hpos => ⟨fun hallowed => ?_, fun hidle hread hrebuilt hne => ?_⟩⟩
    · refine attachInput_of_allowed hpos ?_
      rw [encoding_eq_false_iff]
      tauto
    · refine attachInput_of_changed hpos ?_ hne
      rw [← Bool.not_eq_false, encoding_eq_false_iff]
      tauto

/-! ### Which part of the streams each command leaves alone (R49, R53) -/

/-- A fact about the streams a command leaves holds of every state once it holds of the states that accept it: a command
that is not accepted leaves the streams as they are (R183). -/
theorem run_io_of_accepted {P : Streams → Streams → Prop} (hrefl : ∀ io, P io io) (i : Instr) (s : State)
    (h : acceptance i s = .ok → P s.io (run i s).io) : P s.io (run i s).io := by
  by_cases ha : acceptance i s = .ok
  · exact h ha
  · rw [rejected_io i s ha]
    exact hrefl _

/-- WRHDR reads nothing and emits no event. -/
theorem run_wrhdr_keeps (s : State) :
    (run .wrhdr s).io.is = s.io.is ∧ (run .wrhdr s).io.prog = s.io.prog :=
  run_io_of_accepted (P := fun io io' => io'.is = io.is ∧ io'.prog = io.prog) (fun _ => ⟨rfl, rfl⟩) _ s fun ha => by
    rw [run, wrhdr_accepted s ha]
    exact ⟨rfl, rfl⟩

/-- COUNT writes nothing and emits no event. -/
theorem run_count_keeps (s : State) :
    (run .count s).io.os = s.io.os ∧ (run .count s).io.prog = s.io.prog :=
  run_io_of_accepted (P := fun io io' => io'.os = io.os ∧ io'.prog = io.prog) (fun _ => ⟨rfl, rfl⟩) _ s fun ha => by
    rw [run, count_accepted s ha]
    exact ⟨rfl, rfl⟩

/-- RDHDR writes nothing. -/
theorem run_rdhdr_os (s : State) : (run .rdhdr s).io.os = s.io.os :=
  run_io_of_accepted (P := fun io io' => io'.os = io.os) (fun _ => rfl) _ s fun ha => by
    rw [run]
    cases hr : rdHeader s.io.is with
    | ok hd is => rw [rdhdr_accepted s ha hr]
    | error e is => rw [rdhdr_raises s ha hr]

/-- A command that completes with OK was accepted (R183). -/
theorem acceptance_of_run_ok {i : Instr} {s : State} (he : (run i s).err = .ok) : acceptance i s = .ok := by
  by_contra ha
  rw [run_rejected i s ha] at he
  exact ha he

/-- ENCBITS flushes what is pending (R154). -/
theorem encodedStreams_nacc (c : Context) (io : Streams) : (encodedStreams c io).os.nacc = 0 := (flush_bits _).1

theorem run_encode_nacc {i : Instr} {s : State} (hi : i = .encbits ∨ i = .encode) (he : (run i s).err = .ok) :
    (run i s).io.os.nacc = 0 := by
  have ha := acceptance_of_run_ok he
  rcases hi with rfl | rfl
  · rw [run, encbits_accepted s ha]
    exact encodedStreams_nacc _ _
  · rw [run, encodeCall_accepted s ha]
    exact encodedStreams_nacc _ _

/-- Settles O16: the common frame of the commands, and for each group of commands the stream it leaves alone. -/
theorem streamFrame : Obligations.StreamFrame := by
  intro i s t hexec
  rw [exec_eq] at hexec
  cases hexec
  have hframe := run_frame i s
  refine ⟨hframe.isBytes, hframe.isValid, hframe.osValid, hframe.pending, hframe.osBytes, hframe.osBits, hframe.prog,
    hframe.cursor, hframe.osWf, run_io i s, ?_, ?_, ?_, run_nacc i s, run_encode_nacc⟩
  · rintro rfl
    exact run_wrhdr_keeps s
  · rintro (rfl | rfl)
    · exact (run_count_keeps s).1
    · exact run_rdhdr_os s
  · rintro rfl
    exact (run_count_keeps s).2

/-! ### What no command reads (R22, R27, R188) -/

/-- The state with ERR = OK, no event emitted and an empty queue: what is left of it is what a command can read. -/
def State.quiet (s : State) : State :=
  { s with err := .ok, io := { s.io with prog := [] }, pending := [] }

/-- A state is its quiet form with its own events, queue and completion code put back. -/
theorem quiet_aside (s : State) : s.quiet.aside s.io.prog s.pending s.err = s := by
  simp [State.quiet, State.aside]

/-- A command runs as it does from the quiet form of its state. -/
theorem run_eq_quiet (i : Instr) (s : State) : run i s = (run i s.quiet).behind s.io.prog s.pending := by
  rw [← run_aside i s.quiet s.io.prog s.pending s.err, quiet_aside]

/-- Settles O48: both states have one quiet form, and the new events are those of the run from it. -/
theorem nothingReadsErrOrProg : Obligations.NothingReadsErrOrProg := by
  intro i s u hctx his hos hisValid hosValid
  have hquiet : s.quiet = u.quiet := by simp only [State.quiet, hctx, his, hos, hisValid, hosValid]
  refine ⟨run i s, run i u, (run i s.quiet).io.prog, exec_eq i s, exec_eq i u, ?_⟩
  rw [run_eq_quiet i s, run_eq_quiet i u, ← hquiet]
  exact ⟨rfl, rfl, rfl, rfl, rfl, rfl⟩

/-! ### The records and the tree of the decode commands (R17, R143, R164) -/

theorem hdrRead_decodable {s : State} (h : s.Inv) (hp : s.ctx.phase = .hdrRead) : s.ctx.decodable := by
  have hc := h.consistent
  simp only [Context.consistent, hp] at hc
  obtain ⟨hd, hchecked, hctx⟩ := hc
  rw [hctx]
  exact checked_decodable hchecked

/-- The tree of a rebuild that succeeds: its records are its leaves, and it is full unless it is the exempt one. -/
theorem rebuildTree_leaves {c : Context} (h : c.decodable) {t : Node} {n : Nat} (hr : rebuildTree c = some (t, n)) :
    t.leaves.Perm (c.symlen.map fun r => (r.sym, 0)) ∧ (t.full = true ∨ c.singleSymbol) := by
  rcases rebuildTree_spec c h with ⟨hnone, _⟩ | ⟨t', n', hsome, hplaced, _, hfull⟩
  · rw [hnone] at hr
    cases hr
  · rw [hsome] at hr
    cases hr
    exact ⟨hplaced.leaves, hfull.imp And.right id⟩

/-- Settles O54: the invariant ties the context to a checked header and, after REBUILD, to the tree of its records. -/
theorem decoderRecords : Obligations.DecoderRecords := by
  intro s hinv
  refine ⟨?_, fun hp => ?_⟩
  · rintro (hp | hp)
    · exact hdrRead_decodable hinv hp
    · obtain ⟨_, _, hdec, _⟩ := rebuilt_ctx hinv hp
      exact hdec
  · obtain ⟨hdisable, hempty, hdec, n, hrebuild, _⟩ := rebuilt_ctx hinv hp
    exact ⟨hdisable, hempty, rebuildTree_leaves hdec hrebuild⟩

/-! ### Reset and STATUS (R23, R31) -/

/-- Settles O6: the reset context is the clean one, whose tables hold one value at every entry. -/
theorem resetValues : Obligations.ResetValues :=
  ⟨fun b => ⟨symAt_replicate 0 b, symAt_replicate [] b⟩, rfl, rfl, rfl, rfl, rfl, rfl, rfl,
    fun L h1 h16 => lenAt_replicate 0 L ⟨h1, h16⟩, rfl, rfl, rfl, rfl⟩

/-- Settles O50: at reset both streams are empty and the context is clean. -/
theorem invariantAtReset : Obligations.InvariantAtReset := ⟨rfl, rfl, clean_consistent _⟩

/-- STATUS, bit by bit: the field a bit belongs to and its place there, from ERR up; the bits above OS_VALID are zero
(R23). -/
theorem status_getLsbD (s : State) (i : Nat) :
    s.status.getLsbD i =
      if i < 3 then s.err.code.getLsbD i
      else if i - 3 < 4 then s.ctx.phase.code.getLsbD (i - 3)
      else if i - 3 - 4 < 1 then s.ctx.disable
      else if i - 3 - 4 - 1 < 1 then s.ctx.empty
      else if i - 3 - 4 - 1 - 1 < 1 then s.isValid
      else if i - 3 - 4 - 1 - 1 - 1 < 1 then s.osValid
      else false := by
  have hbit : ∀ (b : Bool) (j : Nat), j < 1 → (bitOf b).getLsbD j = b := by
    intro b j hj
    obtain rfl := Nat.lt_one_iff.1 hj
    cases b <;> rfl
  rw [State.status, BitVec.getLsbD_append (n := 13) (m := 3), BitVec.getLsbD_append (n := 9) (m := 4),
    BitVec.getLsbD_append (n := 8) (m := 1), BitVec.getLsbD_append (n := 7) (m := 1),
    BitVec.getLsbD_append (n := 6) (m := 1), BitVec.getLsbD_append (n := 5) (m := 1)]
  simp +contextual only [hbit, BitVec.ofNat_eq_ofNat, BitVec.getLsbD_zero]

/-- Bits 11 to 15 of STATUS are zero (R23). -/
theorem status_getLsbD_high (s : State) {i : Nat} (h : 11 ≤ i) : s.status.getLsbD i = false := by
  rw [status_getLsbD]
  iterate 6 rw [if_neg (by omega)]

/-- Settles O8: each field is one part of the concatenation that STATUS is; the numbers are those of the definitions. -/
theorem statusWord : Obligations.StatusWord := by
  refine ⟨fun s => ⟨?_, ?_, status_getLsbD s 7, status_getLsbD s 8, status_getLsbD s 9, status_getLsbD s 10, ?_⟩,
    rfl, rfl⟩
  · ext i hi
    simp [status_getLsbD, hi]
  · ext i hi
    simp [status_getLsbD, hi]
  · ext i hi
    simp [status_getLsbD_high]
end Sys2Proof.Machine

/-!
SUPPORT. Proofs of 20_memory.md: the reads of the input stream, the writes of the output stream, a stream that ends inside
a header.
-/

namespace Sys2Proof.Machine

/-! ### Reads (R41 to R45, R50) -/

/-- A read that consumes every bit there is leaves the cursor at the end of the input. -/
theorem pos_add_rest_length {is : IStream} (h : is.pos ≤ 8 * is.bytes.length) :
    is.pos + is.rest.length = 8 * is.bytes.length := by
  rw [rest_length, Nat.add_sub_cancel' h]

theorem rest_length_lt {is : IStream} {n : Nat} (h : is.pos ≤ 8 * is.bytes.length)
    (hshort : 8 * is.bytes.length < is.pos + n) : is.rest.length < n := by
  have := pos_add_rest_length h
  omega

theorem bytesBits_drop (k : Nat) (bs : List Byte) : (bytesBits bs).drop (8 * k) = bytesBits (bs.drop k) := by
  induction k generalizing bs with
  | zero => rfl
  | succ k ih =>
    cases bs with
    | nil => simp [bytesBits]
    | cons b bs =>
      rw [Nat.mul_succ, Nat.add_comm, ← List.drop_drop, bytesBits_cons, List.drop_left' (byteBits_length b), ih,
        List.drop_succ_cons]

/-- At byte `k` the unread bits begin with the bits of that byte. -/
theorem rest_of_aligned {is : IStream} {k : Nat} {b : Byte} (hpos : is.pos = 8 * k) (hb : is.bytes[k]? = some b) :
    is.rest = byteBits b ++ bytesBits (is.bytes.drop (k + 1)) := by
  obtain ⟨hk, hget⟩ := List.getElem?_eq_some_iff.1 hb
  rw [IStream.rest, hpos, bytesBits_drop, List.drop_eq_getElem_cons hk, hget, bytesBits_cons]

theorem rdBit_of_lt {is : IStream} (h : is.pos < 8 * is.bytes.length) :
    rdBit is = .ok ((is.bytes.getD (is.pos / 8) 0).getLsbD (7 - is.pos % 8)) { is with pos := is.pos + 1 } := by
  simp [rdBit, IStream.atEnd, Nat.not_le.2 h]

theorem rdBit_of_le {is : IStream} (h : 8 * is.bytes.length ≤ is.pos) : rdBit is = .error .eEos is := by
  simp [rdBit, IStream.atEnd, h]

/-- `rd_u16()` puts the first byte above the second (R43). -/
theorem rdU16_toNat (is : IStream) (a b : Byte) (r : BitString) (h : is.rest = bytesBits [a, b] ++ r) :
    ∃ v, rdU16 is = .ok v { is with pos := is.pos + 16 } ∧ v.toNat = 256 * a.toNat + b.toNat := by
  refine ⟨_, rdU16_ok is a b r h, ?_⟩
  have ha := a.isLt
  have hb := b.isLt
  rw [BitVec.toNat_ofNat, Nat.mod_eq_of_lt (by omega)]

/-- `rd_u32()` puts the first byte on top (R44). -/
theorem rdU32_toNat (is : IStream) (a b c d : Byte) (r : BitString) (h : is.rest = bytesBits [a, b, c, d] ++ r) :
    ∃ v, rdU32 is = .ok v { is with pos := is.pos + 32 } ∧
      v.toNat = a.toNat * 2 ^ 24 + b.toNat * 2 ^ 16 + c.toNat * 2 ^ 8 + d.toNat := by
  refine ⟨_, rdU32_ok is a b c d r h, ?_⟩
  have ha := a.isLt
  have hb := b.isLt
  have hc := c.isLt
  have hd := d.isLt
  rw [BitVec.toNat_ofNat, Nat.mod_eq_of_lt (by omega)]

/-- Settles O17: a read is decided by the unread bits, which begin with its bytes or are too few for it. -/
theorem inputReads : Obligations.InputReads := by
  refine ⟨fun _ => rdBit_of_lt, fun _ => rdBit_of_le, rdByte_ok, fun is k b hpos hb => ?_, fun is hpos hshort => ?_,
    rdU16_toNat, rdU32_toNat, fun is hpos hshort => ?_, fun is hpos hshort => ?_, fun is => ⟨?_, rfl⟩⟩
  · exact rdByte_ok is b _ (rest_of_aligned hpos hb)
  · rw [rdByte_eos is (rest_length_lt hpos hshort), pos_add_rest_length hpos]
  · rw [rdU16_eos is (rest_length_lt hpos hshort), pos_add_rest_length hpos]
  · rw [rdU32_eos is (rest_length_lt hpos hshort), pos_add_rest_length hpos]
  · rw [IStream.atEnd, decide_eq_true_iff]

/-! ### Writes (R46, R47) -/

/-- `wr_u32` writes its four bytes in turn, high byte first (R46). -/
theorem wrU32_eq (os : OStream) (v : Word32) :
    os.wrU32 v = (((os.wrByte (v.extractLsb' 24 8)).wrByte (v.extractLsb' 16 8)).wrByte (v.extractLsb' 8 8)).wrByte
      (v.extractLsb' 0 8) := by
  simp only [OStream.wrU32, u32Bytes, OStream.wrBytes, List.foldl_cons, List.foldl_nil]

/-- A byte written is eight bits written, so as many bits are pending as before. -/
theorem wrByte_nacc (os : OStream) (v : Byte) : (os.wrByte v).nacc = os.nacc := by
  rw [← wrBytes_singleton, wrBytes_nacc]

theorem wrByte_aligned {os : OStream} (v : Byte) (h0 : os.nacc = 0) (hwf : os.wf) :
    os.wrByte v = { os with bytes := os.bytes ++ [v] } := by
  rw [← wrBytes_singleton, wrBytes_aligned os [v] h0 hwf]

/-- `flush()` shifts the pending bits to the top of the byte it appends (R47). -/
theorem flush_pending {os : OStream} (h : os.nacc ≠ 0) :
    os.flush = { bytes := os.bytes ++ [os.acc <<< (8 - os.nacc.val)], acc := 0, nacc := 0 } := by
  have hpos : 0 < os.nacc.val := Nat.pos_of_ne_zero (Fin.val_ne_zero_iff.2 h)
  have hshift : BitVec.ofNat 8 (os.acc.toNat * 2 ^ (8 - os.nacc.val)) = os.acc <<< (8 - os.nacc.val) := by
    apply BitVec.eq_of_toNat_eq
    rw [BitVec.toNat_ofNat, BitVec.toNat_shiftLeft, Nat.shiftLeft_eq]
  rw [OStream.flush, if_pos hpos, hshift]

/-- The zeros `flush()` appends are those that fill the pending byte (R47). -/
theorem flush_bits_pending {os : OStream} (h : os.nacc ≠ 0) :
    os.flush.bits = os.bits ++ List.replicate (8 - os.nacc.val) false := by
  obtain ⟨_, k, hk, hbits, hfill⟩ := flush_bits os
  have hpos : 0 < os.nacc.val := Nat.pos_of_ne_zero (Fin.val_ne_zero_iff.2 h)
  have hn := os.nacc.isLt
  have hk8 : k = 8 - os.nacc.val := by omega
  rw [hbits, hk8]

/-- Settles O18: every write is a sequence of bit writes, and `flush()` is one byte or nothing. -/
theorem outputWrites : Obligations.OutputWrites :=
  ⟨fun os b => ⟨wrBit_bits os b, wrBit_nacc os b, wrBit_wf os b⟩,
    fun os bits => ⟨wrBits_bits os bits, wrBits_nacc os bits⟩,
    fun os v => ⟨wrByte_bits os v, wrByte_nacc os v, wrByte_aligned v⟩,
    wrU32_eq,
    flush_aligned,
    fun _ h _ => ⟨flush_pending h, flush_bits_pending h⟩⟩

/-! ### A stream that ends inside a header (R145, R200, R205) -/

theorem rdHeader_marker_eos {is : IStream} (h : is.rest.length < 8) :
    rdHeader is = .error .eEos { is with pos := is.pos + is.rest.length } := by
  rw [rdHeader, bind_error (rdByte_eos is h)]

/-- A Huffman header that runs out after its marker runs out as a whole. -/
theorem rdHeader_huff_eos {is : IStream} {r : BitString} (h : is.rest = byteBits Config.markerHuff ++ r)
    (hr : ∀ js : IStream, js.rest = r → rdHuffmanHeader js = .error .eEos { js with pos := js.pos + js.rest.length }) :
    rdHeader is = .error .eEos { is with pos := is.pos + is.rest.length } := by
  have hskip := rest_skip 8 h (byteBits_length _)
  rw [rdHeader_huff is r h, hr _ hskip, hskip, h, List.length_append, byteBits_length, Nat.add_assoc]

theorem rdHuffmanHeader_length_eos {is : IStream} (h : is.rest.length < 16) :
    rdHuffmanHeader is = .error .eEos { is with pos := is.pos + is.rest.length } := by
  rw [rdHuffmanHeader, bind_error (rdU16_eos is h)]

/-- A Huffman header cut after its two length bytes, in the content length or counts, or in the symbols or padding byte. -/
theorem rdHeader_body_eos {is : IStream} {hi lo : Byte} {r : BitString} (h : is.rest = bytesBits [0x48, hi, lo] ++ r)
    (hne : 256 * hi.toNat + lo.toNat ≠ 2)
    (hr : r.length < 8 * 20 ∨ ∃ (clen : Word32) (counts : List Byte) (r' : BitString), counts.length = 16 ∧
      countSum counts ≤ 256 ∧ r = bytesBits (u32Bytes clen ++ counts) ++ r' ∧ r'.length < 8 * (countSum counts + 1)) :
    rdHeader is = .error .eEos { is with pos := is.pos + is.rest.length } := by
  rw [bytesBits_cons, List.append_assoc] at h
  exact rdHeader_huff_eos h fun js hjs => rdHuffmanHeader_eos js hi lo r hjs hne hr

/-- In IDLE, with an input attached, RDHDR passes the acceptance check (R183). -/
theorem rdhdr_acceptance {s : State} (hphase : s.ctx.phase = .idle) (hvalid : s.isValid = true) :
    acceptance .rdhdr s = .ok :=
  (acceptance_ok_iff .rdhdr s).2 ⟨rfl, decide_eq_true hphase, fun _ => hvalid, nofun⟩

/-- Settles O36: wherever the header is cut, reading it raises E_EOS at the end of the input. -/
theorem rdhdrTruncated : Obligations.RdhdrTruncated := by
  intro s r hphase hvalid hpos hcut
  have heos : rdHeader s.io.is = .error .eEos { s.io.is with pos := s.io.is.pos + s.io.is.rest.length } := by
    rcases hcut with hmarker | ⟨h, hraw⟩ | ⟨h, hlen⟩ | ⟨hi, lo, h, hne, hcounts⟩ |
      ⟨hi, lo, clen, counts, hne, h16, hsum, h, hsyms⟩
    · exact rdHeader_marker_eos hmarker
    · exact rdHeader_raw_eos _ r h hraw
    · exact rdHeader_huff_eos h fun js hjs => rdHuffmanHeader_length_eos (by rw [hjs]; exact hlen)
    · exact rdHeader_body_eos h hne (.inl hcounts)
    · refine rdHeader_body_eos (r := bytesBits (u32Bytes clen ++ counts) ++ r) ?_ hne
        (.inr ⟨clen, counts, r, h16, hsum, rfl, hsyms⟩)
      rw [h, List.append_assoc [0x48, hi, lo], bytesBits_append, List.append_assoc]
  rw [exec_eq, run, rdhdr_raises s (rdhdr_acceptance hphase hvalid) heos, pos_add_rest_length hpos]

end Sys2Proof.Machine

/-!
SUPPORT. Proofs of 30_encoding.md: the command codes and their reading back, the reserved codes, the forms of a stream as
DECODE reads them.
-/

namespace Sys2Proof

/-! ### Command codes (R70 to R73) -/

/-- Settles O1: `decodeOp` has the table's rows as its cases. -/
theorem commandCodes : Obligations.CommandCodes :=
  ⟨rfl, rfl, rfl, rfl, rfl, rfl, rfl, rfl, rfl, rfl, rfl, rfl, rfl, rfl, rfl, rfl⟩

/-- The code of every command, written to CMD, selects it: the rows of `EncodingReadsBack` together. -/
theorem encode_reads_back (i : Instr) : Laws.EncodingReadsBack.Statement i := by
  cases i with
  | clear => exact Laws.EncodingReadsBack.clear
  | count => exact Laws.EncodingReadsBack.count
  | build => exact Laws.EncodingReadsBack.build
  | gencode => exact Laws.EncodingReadsBack.gencode
  | hist => exact Laws.EncodingReadsBack.hist
  | policy => exact Laws.EncodingReadsBack.policy
  | wrhdr => exact Laws.EncodingReadsBack.wrhdr
  | encbits => exact Laws.EncodingReadsBack.encbits
  | rdhdr => exact Laws.EncodingReadsBack.rdhdr
  | rebuild => exact Laws.EncodingReadsBack.rebuild
  | decbits => exact Laws.EncodingReadsBack.decbits
  | encode => exact Laws.EncodingReadsBack.encode
  | decode => exact Laws.EncodingReadsBack.decode
  | reserved0 => exact Laws.EncodingReadsBack.reserved0
  | reservedE => exact Laws.EncodingReadsBack.reservedE
  | reservedF => exact Laws.EncodingReadsBack.reservedF

/-- No two words of the port select one command (R72, R73). -/
theorem encode_decodeOp : ∀ op : BitVec 4, encode (decodeOp op) = op := by decide

/-- A number that does not fit the port's four bits is no command word (R70). -/
theorem decodeWord_of_ge {w : Nat} (hw : 16 ≤ w) : decodeWord w = .error .widerThanPort := by
  simp [decodeWord, commandWordOk, Nat.not_lt.2 hw]

/-- Settles O2: each command's code reads back as that command, and the port's width decides what a command word is. -/
theorem decodeEncodeAgree : Obligations.DecodeEncodeAgree :=
  ⟨fun i _ => (encode_reads_back i).2, encode_decodeOp, fun _ => decodeWord_of_lt, fun _ => decodeWord_of_ge⟩

namespace Machine

/-! ### Reserved codes (R73, R202) -/

/-- A command that is not one of the thirteen fails the first acceptance check: E_CMD, and nothing else changes. -/
theorem exec_of_not_command {i : Instr} (h : isCommand i = false) (s : State) :
    exec i s = .next { s with err := .eCmd } := by
  have hcheck : acceptance i s = .eCmd := by rw [acceptance_eq, if_pos h]
  rw [exec_eq, run_rejected i s (by rw [hcheck]; decide), hcheck, State.reject]

/-- The three reserved codes are the only words that select no command of R72. -/
theorem isCommand_decodeOp :
    ∀ op : BitVec 4, isCommand (decodeOp op) = false ↔ op = 0x0 ∨ op = 0xE ∨ op = 0xF := by decide

/-- The thirteen commands of R72, in the order of their codes. -/
theorem mem_commands_of_isCommand {i : Instr} (h : isCommand i = true) :
    i ∈ [Instr.clear, .count, .build, .gencode, .hist, .policy, .wrhdr, .encbits, .rdhdr, .rebuild, .decbits,
      .encode, .decode] := by
  revert h
  cases i <;> decide

/-- Settles O15: the reserved codes fail the first acceptance check, and every other word selects a command. -/
theorem reservedCodes : Obligations.ReservedCodes := by
  refine ⟨fun s op hop => ?_, fun s => ⟨?_, ?_, ?_⟩, fun op h0 hE hF => ?_⟩
  · exact exec_of_not_command ((isCommand_decodeOp op).2 hop) s
  · exact exec_of_not_command rfl s
  · exact exec_of_not_command rfl s
  · exact exec_of_not_command rfl s
  · refine mem_commands_of_isCommand ?_
    rw [← Bool.not_eq_false, isCommand_decodeOp]
    rintro (h | h | h)
    · exact h0 h
    · exact hE h
    · exact hF h

/-! ### DECODE, form by form (R81, R182) -/

/-- In IDLE, with both streams attached, DECODE passes the acceptance check (R183). -/
theorem decode_acceptance {s : State} (hphase : s.ctx.phase = .idle) (his : s.isValid = true)
    (hos : s.osValid = true) : acceptance .decode s = .ok :=
  (acceptance_ok_iff .decode s).2 ⟨rfl, decide_eq_true hphase, fun _ => his, fun _ => hos⟩

/-- What RDHDR leaves of a state when it has read the header `hd` and left the input at `is` (R147, R148). -/
def State.headerRead (s : State) (hd : Header) (is : IStream) : State :=
  { s with
    ctx := s.ctx.loadHeader hd
    io := { s.io with is := is, prog := s.io.prog ++ [Config.progHdrUnits] }
    err := .ok }

/-- What REBUILD leaves of a state when it has made the tree `t` of `n` nodes (R160). -/
def State.treeBuilt (s : State) (t : Node) (n : Nat) : State :=
  { s with ctx := { s.ctx with root := t, nodeCnt := BitVec.ofNat 9 n, phase := .rebuilt }, err := .ok }

section decode

variable {s : State} {hd : Header} {is : IStream}

/-- DECODE, accepted, once its header is read: the rest of the expansion (R182). -/
theorem decodeCall_of_header (h : acceptance .decode s = .ok) (hr : rdHeader s.io.is = .ok hd is) :
    decodeCall s =
      (if !(s.ctx.loadHeader hd).disable && !(s.ctx.loadHeader hd).empty then rebuild (s.headerRead hd is)
        else s.headerRead hd is).andThen decbits := by
  obtain ⟨_, hphase, his, _⟩ := (acceptance_ok_iff _ _).1 h
  have hread : rdhdr s = s.headerRead hd is :=
    rdhdr_accepted s (rdhdr_acceptance (of_decide_eq_true hphase) (his rfl)) hr
  rw [decodeCall, issue_accepted h, decodeUnits, hread, andThen_ok rfl]
  rfl

/-- A raw or an empty form is decoded from what RDHDR leaves (R182). -/
theorem decodeCall_direct (h : acceptance .decode s = .ok) (hr : rdHeader s.io.is = .ok hd is)
    (hform : (s.ctx.loadHeader hd).disable = true ∨ (s.ctx.loadHeader hd).empty = true) {t : State}
    (ht : decodeContent (s.headerRead hd is).ctx (s.headerRead hd is) = .ok () t) :
    decodeCall s = { t with ctx := Context.clean, err := .ok } := by
  obtain ⟨_, _, his, hos⟩ := (acceptance_ok_iff _ _).1 h
  have hskip : (!(s.ctx.loadHeader hd).disable && !(s.ctx.loadHeader hd).empty) = false := by
    rcases hform with hf | hf <;> simp [hf]
  have hdecbits : acceptance .decbits (s.headerRead hd is) = .ok := (acceptance_ok_iff _ _).2
    ⟨rfl, by simpa [phaseAllows, State.headerRead, loadHeader_phase] using hform, fun _ => his rfl, fun _ => hos rfl⟩
  rw [decodeCall_of_header h hr, hskip, if_neg Bool.false_ne_true, andThen_ok rfl, decbits_accepted _ hdecbits ht]

/-- A full Huffman form is decoded from what RDHDR and REBUILD leave (R182). -/
theorem decodeCall_rebuilt (h : acceptance .decode s = .ok) (hr : rdHeader s.io.is = .ok hd is)
    (hdisable : (s.ctx.loadHeader hd).disable = false) (hempty : (s.ctx.loadHeader hd).empty = false)
    {tree : Node} {n : Nat} (htree : rebuildTree (s.ctx.loadHeader hd) = some (tree, n)) {t : State}
    (ht : decodeContent ((s.headerRead hd is).treeBuilt tree n).ctx ((s.headerRead hd is).treeBuilt tree n) = .ok () t) :
    decodeCall s = { t with ctx := Context.clean, err := .ok } := by
  obtain ⟨_, _, his, hos⟩ := (acceptance_ok_iff _ _).1 h
  have hrebuild : acceptance .rebuild (s.headerRead hd is) = .ok := (acceptance_ok_iff _ _).2
    ⟨rfl, by simp [phaseAllows, State.headerRead, loadHeader_phase, hdisable, hempty], nofun, nofun⟩
  have hbuilt : rebuild (s.headerRead hd is) = (s.headerRead hd is).treeBuilt tree n :=
    rebuild_accepted _ hrebuild htree
  have hdecbits : acceptance .decbits ((s.headerRead hd is).treeBuilt tree n) = .ok :=
    (acceptance_ok_iff _ _).2 ⟨rfl, rfl, fun _ => his rfl, fun _ => hos rfl⟩
  rw [decodeCall_of_header h hr, hdisable, hempty, if_pos (by decide), hbuilt, andThen_ok rfl, decbits_accepted _ hdecbits ht]

end decode

/-- A content length below 2^32 is its own 32-bit word (R12). -/
theorem length_eq_word {bs : List Byte} (h : bs.length < 2 ^ 32) :
    bs.length = (BitVec.ofNat 32 bs.length).toNat := by
  rw [BitVec.toNat_ofNat, Nat.mod_eq_of_lt h]

section forms

variable {s : State} {bs : List Byte} {r : BitString}

/-- DECODE of a raw form from the clean context: its content, copied (R140, R170). -/
theorem decodeCall_raw (h : acceptance .decode s = .ok) (hclean : s.ctx = Context.clean) (hlen : bs.length < 2 ^ 32)
    (hrest : s.io.is.rest = bytesBits ([0x4E] ++ u32Bytes (BitVec.ofNat 32 bs.length) ++ bs) ++ r) :
    ∃ prog, decodeCall s =
      { s with
        io := {
          is := { s.io.is with pos := s.io.is.pos + 8 * (5 + bs.length) }
          os := s.io.os.wrBytes bs
          prog := prog }
        err := .ok } := by
  rw [bytesBits_append, List.append_assoc] at hrest
  have hread := rdHeader_raw s.io.is _ _ hrest
  have hcontent := decodeContent_raw (s.headerRead (.raw (BitVec.ofNat 32 bs.length)) _) bs r
    (by rw [State.headerRead, hclean]; rfl) rfl (length_eq_word hlen) (rest_skip 40 hrest (by rw [bytesBits_length]; rfl))
  have hpos : s.io.is.pos + 8 * (5 + bs.length) = s.io.is.pos + 40 + 8 * bs.length := by omega
  rw [decodeCall_direct h hread (.inl rfl) hcontent, hclean, hpos]
  exact ⟨_, rfl⟩

/-- DECODE of an empty form from the clean context: nothing is written (R142, R171). -/
theorem decodeCall_empty (h : acceptance .decode s = .ok) (hclean : s.ctx = Context.clean)
    (hrest : s.io.is.rest = bytesBits [0x48, 0x00, 0x02] ++ r) :
    ∃ prog, decodeCall s =
      { s with io := { s.io with is := { s.io.is with pos := s.io.is.pos + 24 }, prog := prog }, err := .ok } := by
  have hread := rdHeader_empty s.io.is r hrest
  have hcontent := decodeContent_empty (s.headerRead .empty { s.io.is with pos := s.io.is.pos + 24 }) rfl
  rw [decodeCall_direct h hread (.inr rfl) hcontent, hclean]
  exact ⟨_, rfl⟩

/-- A full header as RDHDR reads it, its length bytes being those of its symbols (R78, R143). -/
theorem rdHeader_full_ok {is : IStream} {clen : Word32} {counts syms : List Byte} {pad : Byte} (h16 : counts.length = 16)
    (hsum : (counts.map BitVec.toNat).sum = syms.length) (hroom : syms.length ≤ 256)
    (hrest : is.rest =
      bytesBits ([0x48, BitVec.ofNat 8 ((23 + syms.length) / 256), BitVec.ofNat 8 (23 + syms.length)] ++
        u32Bytes clen ++ counts ++ syms ++ [pad]) ++ r) :
    rdHeader is = .ok (.full clen counts (bucketRecords 1 counts syms) pad)
      { is with pos := is.pos + 8 * (24 + syms.length) } := by
  have hhalves := hlen_halves syms.length hroom
  rw [rdHeader_full is _ _ clen counts syms pad r hrest (by omega) h16 hsum hroom, if_pos hhalves.symm]

/-- Records that fill the code space, or the exempt sequence, have a tree, and each record's canonical code leads to its
symbol there (R164, R165). -/
theorem rebuildTree_paths {c : Context} (h : c.decodable) (hfull : codeSpace c.symlen = 2 ^ 16 ∨ c.singleSymbol) :
    ∃ t n, rebuildTree c = some (t, n) ∧
      ∀ i e, c.symlen[i]? = some e → canonicalCode c.symlen i ≠ [] ∧ t.hasPath (canonicalCode c.symlen i) e.sym := by
  rcases rebuildTree_spec c h with ⟨_, hspace, hsingle⟩ | ⟨t, n, htree, hplaced, _, _⟩
  · exact absurd hfull (not_or.2 ⟨hspace, hsingle⟩)
  · refine ⟨t, n, htree, fun i e hi => ⟨fun hnil => ?_, ?_⟩⟩
    · have hlen := canonicalCode_length _ _ _ hi
      have hpos := (h.lengths e (List.mem_of_getElem? hi)).1
      rw [hnil, List.length_nil] at hlen
      omega
    · obtain ⟨j, hj⟩ := hplaced.paths i e hi
      exact ⟨j, 0, hj⟩

/-- DECODE of a full Huffman form whose header has been read up to `is`: the symbols whose canonical codes follow the padding
(R164, R166 to R168). -/
theorem decodeCall_codes {clen : Word32} {counts : List Byte} {symlen : List SymLen} {pad : Byte} {is : IStream}
    {code : Byte → BitString} {padding : BitString}
    (h : acceptance .decode s = .ok) (hclean : s.ctx = Context.clean)
    (hread : rdHeader s.io.is = .ok (.full clen counts symlen pad) is)
    (hspace : codeSpace symlen = 2 ^ 16 ∨ ∃ b, symlen = [{ sym := b, len := 1 }]) (hlen : bs.length = clen.toNat)
    (hcode : ∀ b ∈ bs, ∃ i e, symlen[i]? = some e ∧ e.sym = b ∧ code b = canonicalCode symlen i)
    (hpadding : padding.length = pad.toNat) (hrest : is.rest = padding ++ (bs.flatMap code ++ r)) :
    ∃ prog, decodeCall s =
      { s with
        io := {
          is := { is with pos := is.pos + (padding.length + (bs.flatMap code).length) }
          os := s.io.os.wrBytes bs
          prog := prog }
        err := .ok } := by
  have hempty : (s.ctx.loadHeader (.full clen counts symlen pad)).empty = false := by rw [hclean]; rfl
  have hdec : (s.ctx.loadHeader (.full clen counts symlen pad)).decodable := by
    rw [hclean]
    exact checked_decodable (rdHeader_checked hread)
  obtain ⟨tree, n, htree, hpaths⟩ := rebuildTree_paths hdec hspace
  have hcodes : ∀ b ∈ bs, code b ≠ [] ∧ tree.hasPath (code b) b := by
    intro b hb
    obtain ⟨i, e, hi, rfl, hcb⟩ := hcode b hb
    rw [hcb]
    exact hpaths i e hi
  have hcontent := decodeContent_codes ((s.headerRead (.full clen counts symlen pad) is).treeBuilt tree n) code bs padding r
    hempty rfl hpadding hlen hcodes hrest
  rw [decodeCall_rebuilt h hread rfl hempty htree hcontent, hclean]
  exact ⟨_, rfl⟩

/-- The bits of a full header with 16 counts (R75, R78). -/
theorem fullHeader_length {m hi lo : Byte} {clen : Word32} {counts syms : List Byte} {pad : Byte}
    (h16 : counts.length = 16) :
    (bytesBits ([m, hi, lo] ++ u32Bytes clen ++ counts ++ syms ++ [pad])).length = 8 * (24 + syms.length) := by
  simp only [bytesBits_length, List.length_append, List.length_cons, List.length_nil, u32Bytes, h16]
  omega

end forms

/-- Settles O44: from the clean context, DECODE of each form is its header read, its tree if it has one, and its content. -/
theorem decodeForms : Obligations.DecodeForms := by
  intro s bs r hinv hphase his hos hlen
  have haccept := decode_acceptance hphase his hos
  have hclean := idle_ctx hinv hphase
  simp only [exec_eq, run, Host.Outcome.next.injEq]
  refine ⟨decodeCall_raw haccept hclean hlen, decodeCall_empty haccept hclean, ?_⟩
  intro counts syms pad code padding h16 hsum hroom hspace hcode hpadding hrest
  have hread := rdHeader_full_ok h16 hsum hroom hrest
  have hcontent := rest_skip _ hrest (fullHeader_length h16)
  simpa only [Nat.add_assoc] using
    decodeCall_codes haccept hclean hread hspace (length_eq_word hlen) hcode hpadding hcontent

end Machine

end Sys2Proof

/-!
SUPPORT. Proofs of 40_frequency_counter.md: what COUNT makes of the context, and when it is refused.
-/

namespace Sys2Proof.Machine

/-- In IDLE, with an input attached, COUNT passes the acceptance check (R90, R183). -/
theorem count_acceptance {s : State} (hphase : s.ctx.phase = .idle) (hvalid : s.isValid = true) :
    acceptance .count s = .ok :=
  (acceptance_ok_iff .count s).2 ⟨rfl, decide_eq_true hphase, fun _ => hvalid, nofun⟩

/-- A command whose phase condition holds but whose input stream is missing answers E_NULL (R183). -/
theorem exec_eNull_of_no_input {i : Instr} {s : State} (hcommand : isCommand i = true)
    (hphase : phaseAllows i s.ctx = true) (hneeds : needsIS i = true) (hinvalid : s.isValid = false) :
    exec i s = .next { s with err := .eNull } := by
  have hcheck : acceptance i s = .eNull := by
    rw [acceptance_eq, if_neg (by simp [hcommand]), if_neg (by simp [hphase]), if_pos (.inl ⟨hneeds, hinvalid⟩)]
  rw [exec_eq, run_rejected i s (by rw [hcheck]; decide), hcheck, State.reject]

/-- The context COUNT leaves, with CLEN as the input's length gives it (R90). -/
theorem counted_eq (c : Context) (bs : List Byte) :
    c.counted bs =
      { c with freq := (c.counted bs).freq, clen := c.clen + BitVec.ofNat 32 bs.length, phase := .counted } := by
  rw [← counted_clen]
  exact counted_others c bs

/-- Settles O20: the scan counts each byte of the input once, and the acceptance check decides the refusals. -/
theorem countCompletes : Obligations.CountCompletes := by
  refine fun s => ⟨fun hphase hvalid => ?_, fun hphase => ?_, fun hphase hinvalid => ?_⟩
  · refine ⟨(s.ctx.counted s.io.is.bytes).freq, ?_, counted_freq s.ctx s.io.is.bytes⟩
    rw [exec_eq, run, count_accepted s (count_acceptance hphase hvalid), ← counted_eq]
  · exact exec_eSeq rfl (decide_eq_false hphase)
  · exact exec_eNull_of_no_input rfl (decide_eq_true hphase) rfl hinvalid

end Sys2Proof.Machine

/-!
SUPPORT. Proofs of 41_tree_builder.md: the leaves and merges of BUILD, when it is refused, and what its tree is worth.
-/

namespace Sys2Proof.Machine

/-- The symbols with a nonzero count, ascending: those BUILD makes a leaf of (R101). -/
def presentSymbols (freq : SymbolTable Word32) : List Byte := allSymbols.filter fun b => symAt freq b != 0

/-- The queue BUILD begins with: the leaf of the i-th present symbol has arena index and SEQ i (R18, R101). -/
def presentLeaves (freq : SymbolTable Word32) : List Entry :=
  (presentSymbols freq).mapIdx fun i b => { node := .leaf (BitVec.ofNat 9 i) b (symAt freq b), seq := i }

theorem seenSymbols_eq_present (freq : SymbolTable Word32) :
    seenSymbols freq = (presentSymbols freq).map fun b => (b, symAt freq b) := seenSymbols_eq freq

theorem seenSymbols_length (freq : SymbolTable Word32) : (seenSymbols freq).length = (presentSymbols freq).length := by
  rw [seenSymbols_eq_present, List.length_map]

theorem leafEntries_seenSymbols (freq : SymbolTable Word32) : leafEntries 0 (seenSymbols freq) = presentLeaves freq := by
  simp only [seenSymbols_eq_present, leafEntries_eq, Nat.zero_add, presentLeaves]

/-- BUILD's tree is what merging makes of the present symbols' leaves (R101, R102). -/
theorem merges_presentLeaves {freq : SymbolTable Word32} (h : seenSymbols freq ≠ []) :
    Merges (presentLeaves freq) (presentSymbols freq).length (buildTree freq).1 := by
  have hmerges := buildTree_merges freq h
  rwa [leafEntries_seenSymbols, seenSymbols_length] at hmerges

/-- The i-th present symbol's leaf is node i of the arena (R18, R105). -/
theorem follow_present {freq : SymbolTable Word32} (h : seenSymbols freq ≠ []) {i : Nat} {b : Byte}
    (hi : (presentSymbols freq)[i]? = some b) :
    ∃ path, (buildTree freq).1.follow path = .leaf (BitVec.ofNat 9 i) b (symAt freq b) := by
  have hentry : (presentLeaves freq)[i]? = some ⟨.leaf (BitVec.ofNat 9 i) b (symAt freq b), i⟩ := by
    rw [presentLeaves, List.getElem?_mapIdx, hi, Option.map_some]
  exact merges_follow (merges_presentLeaves h) _ (List.mem_of_getElem? hentry)

/-! ### BUILD as a command -/

/-- In COUNTED, with some symbol seen, BUILD completes with OK and touches the context alone (R100). -/
theorem exec_build_of_seen {s : State} (hphase : s.ctx.phase = .counted) (hseen : ∃ b : Byte, symAt s.ctx.freq b ≠ 0) :
    exec .build s = .next { s with ctx := s.ctx.build, err := .ok } := by
  rw [exec_eq, run, build_accepted s (build_acceptance hphase hseen).1]

theorem phaseAllows_build_eq_false_iff (c : Context) :
    phaseAllows .build c = false ↔ c.phase ≠ .counted ∨ ∀ b : Byte, symAt c.freq b = 0 := by
  rw [← noneSeen_iff]
  simp [phaseAllows, imp_iff_not_or]

/-- The context BUILD leaves, with NODE_CNT as the number of leaves gives it (R100, R105). -/
theorem build_eq {c : Context} (h : seenSymbols c.freq ≠ []) :
    c.build = { c with
      root := (buildTree c.freq).1, nodeCnt := BitVec.ofNat 9 (2 * (presentSymbols c.freq).length - 1), phase := .built } := by
  obtain ⟨_, _, _, hcount, _, _⟩ := buildTree_spec c.freq h
  rw [Context.build, hcount, seenSymbols_length]

/-- Settles O22: the merge loop's laws give the tree, and the acceptance check decides the refusals. -/
theorem buildCompletes : Obligations.BuildCompletes := by
  refine fun s => ⟨fun hphase hseen => ?_, fun hrefused => ?_⟩
  · have hne := (build_acceptance hphase hseen).2
    refine ⟨(buildTree s.ctx.freq).1, ?_, merges_presentLeaves hne⟩
    rw [exec_build_of_seen hphase hseen, build_eq hne, presentSymbols]
  · exact exec_eSeq rfl ((phaseAllows_build_eq_false_iff s.ctx).2 hrefused)

/-! ### What the tree is worth -/

/-- A symbol of a nonempty input has a nonzero count (R92). -/
theorem exists_counted_freq_ne_zero {bs : List Byte} (hne : bs ≠ []) (hlen : bs.length < 2 ^ 32) :
    ∃ b : Byte, symAt (Context.clean.counted bs).freq b ≠ 0 := by
  obtain ⟨b, hb⟩ := List.exists_mem_of_ne_nil bs hne
  exact ⟨b, fun hzero => (counted_freq_zero_iff bs hlen b).1 hzero hb⟩

/-- The root's frequency is CLEN: no sum of counts wraps (R92, R105). -/
theorem buildTree_freq_eq_clen {bs : List Byte} (hlen : bs.length < 2 ^ 32)
    (h : seenSymbols (Context.clean.counted bs).freq ≠ []) :
    (buildTree (Context.clean.counted bs).freq).1.freq = (Context.clean.counted bs).clen := by
  obtain ⟨_, hsums, hleaves, _, _, _⟩ := buildTree_spec _ h
  have htotal := seen_sum bs hlen
  apply BitVec.eq_of_toNat_eq
  calc (buildTree (Context.clean.counted bs).freq).1.freq.toNat
      = ((seenSymbols (Context.clean.counted bs).freq).map Prod.snd).sum.toNat := by
        rw [freq_eq_sum _ hsums, (hleaves.map Prod.snd).sum_eq]
    _ = bs.length := by rw [sum_toNat _ (htotal ▸ hlen), htotal]
    _ = (Context.clean.counted bs).clen.toNat := (clean_counted_clen bs hlen).symm

/-- Settles O23: the tree depends on FREQ alone, and the laws of the merge loop give its leaves, its arena places,
its frequency and its least weighted path length. -/
theorem buildResult : Obligations.BuildResult := by
  intro s hinv hphase hne hlen
  have hctx := counted_ctx hinv hphase
  have hseen : ∃ b : Byte, symAt s.ctx.freq b ≠ 0 := by
    rw [hctx]
    exact exists_counted_freq_ne_zero hne hlen
  have hsome := (build_acceptance hphase hseen).2
  obtain ⟨hfull, _, hleaves, hcount, hindices, hroot⟩ := buildTree_spec s.ctx.freq hsome
  rw [hcount, seenSymbols_length] at hindices
  rw [seenSymbols_length] at hroot
  rw [seenSymbols_eq_present] at hleaves
  refine ⟨_, exec_build_of_seen hphase hseen, rfl, hfull, hleaves, hindices, ?clen, hroot,
    fun _ _ => follow_present hsome, merges_presentLeaves hsome, ?optimal, ?deterministic⟩
  case clen =>
    rw [hctx] at hsome
    rw [ctx_build_root, hctx]
    exact buildTree_freq_eq_clen hlen hsome
  case optimal =>
    intro other hother
    refine buildTree_optimal s.ctx.freq hsome ?_ other (seenSymbols_eq_present s.ctx.freq ▸ hother)
    rwa [hctx, seen_sum _ hlen]
  case deterministic =>
    intro u hu hfreq
    rw [← hfreq] at hseen
    exact ⟨_, exec_build_of_seen hu hseen, rfl, by rw [ctx_build_root, ctx_build_root, hfreq]⟩

end Sys2Proof.Machine

/-!
SUPPORT. Proofs of 42_canonical_code_generator.md: the records and codes GENCODE makes of a tree, and its padding.
-/

namespace Sys2Proof.Machine

/-! ### The records of a tree (R111 to R113) -/

theorem SymlenSpec.length_eq {t : Node} {rs : List SymLen} (h : SymlenSpec t rs) : rs.length = t.leaves.length := by
  simpa using h.syms.length_eq

/-- A record is the pair it was made of exactly when that pair's depth fits the length field (R15). -/
theorem toRecord_eq_iff (p : Byte × Nat) (r : SymLen) (hfits : (toRecord p).len.toNat = p.2) :
    toRecord p = r ↔ p = (r.sym, r.len.toNat) := by
  constructor
  · rintro rfl
    exact Prod.ext rfl hfits.symm
  · rintro rfl
    rw [toRecord, BitVec.ofNat_toNat, BitVec.setWidth_eq]

/-- With two leaves or more, a record says which symbol's leaf stands at the end of which length of path (R111). -/
theorem SymlenSpec.mem_iff_follow {t : Node} {rs : List SymLen} (h : SymlenSpec t rs) (htwo : 2 ≤ t.leaves.length)
    (r : SymLen) : r ∈ rs ↔ ∃ path i f, t.follow path = .leaf i r.sym f ∧ path.length = r.len.toNat := by
  obtain ⟨hperm, hfits⟩ := h.many htwo
  calc r ∈ rs
      ↔ ∃ p ∈ leafDepths t 0, toRecord p = r := by rw [hperm.mem_iff, List.mem_map]
    _ ↔ ∃ p ∈ leafDepths t 0, p = (r.sym, r.len.toNat) :=
        exists_congr fun p => and_congr_right fun hp => toRecord_eq_iff p r (hfits p hp)
    _ ↔ (r.sym, r.len.toNat) ∈ leafDepths t 0 := by simp
    _ ↔ ∃ path i f, t.follow path = .leaf i r.sym f ∧ path.length = r.len.toNat := by
        simp only [mem_leafDepths, Nat.zero_add, eq_comm]

/-! ### The code values (R115, R116) -/

/-- The value of the i-th record's code: R120's closed form, and 0 past the last record. -/
def recordValue (rs : List SymLen) (i : Nat) : Nat :=
  (rs[i]?).elim 0 fun r => canonicalValue (rs.take i) r.len.toNat

theorem recordValue_of_getElem? {rs : List SymLen} {i : Nat} {r : SymLen} (hi : rs[i]? = some r) :
    recordValue rs i = canonicalValue (rs.take i) r.len.toNat := by
  rw [recordValue, hi, Option.elim_some]

theorem recordValue_zero (rs : List SymLen) : recordValue rs 0 = 0 := by
  cases rs with
  | nil => rfl
  | cons r rs => rfl

/-- The closed form follows R115's recurrence. -/
theorem recordValue_succ {rs : List SymLen} (hasc : lengthsAscend rs) {i : Nat} {a b : SymLen} (ha : rs[i]? = some a)
    (hb : rs[i + 1]? = some b) :
    recordValue rs (i + 1) = (recordValue rs i + 1) <<< (b.len.toNat - a.len.toNat) := by
  rw [recordValue_of_getElem? ha, recordValue_of_getElem? hb, canonicalValue_next hasc ha hb, Nat.shiftLeft_eq]

theorem canonicalCode_eq_bin {rs : List SymLen} {i : Nat} {r : SymLen} (hi : rs[i]? = some r) :
    canonicalCode rs i = bin (recordValue rs i) r.len.toNat := by
  rw [recordValue_of_getElem? hi, canonicalCode, hi]

/-! ### Padding and the command (R110, R117) -/

theorem paddingOf_eq (freq : SymbolTable Word32) (rs : List SymLen) :
    paddingOf freq rs = BitVec.ofNat 8 ((8 - codeBits freq rs % 8) % 8) := by
  rw [paddingOf, paddingSum_eq]

/-- The context GENCODE leaves of a tree, with NSYM as the tree's leaves and PAD as R117's formula give them. -/
theorem gencode_eq {c : Context} (h : SymlenSpec c.root (symlenOf c.root)) :
    c.gencode = { c with
      symlen := symlenOf c.root, nsym := BitVec.ofNat 9 c.root.leaves.length,
      code := assignCodes c.code (symlenOf c.root),
      pad := BitVec.ofNat 8 ((8 - codeBits c.freq (symlenOf c.root) % 8) % 8), phase := .coded } := by
  rw [Context.gencode, paddingOf_eq, h.length_eq]

/-- In BUILT, GENCODE completes with OK and touches the context alone (R110). -/
theorem exec_gencode_of_built {s : State} (hphase : s.ctx.phase = .built) :
    exec .gencode s = .next { s with ctx := s.ctx.gencode, err := .ok } := by
  rw [exec_eq, run, gencode_accepted s (acceptance_streamless rfl (decide_eq_true hphase) rfl rfl)]

/-- Settles O24: the laws of the tree walk, the sort and the code assignment give each field, and the code values are
R120's closed form. -/
theorem gencodeCompletes : Obligations.GencodeCompletes := by
  refine fun s => ⟨fun hphase hfull hnodup hroom => ?_, fun hphase => exec_eSeq rfl (decide_eq_false hphase)⟩
  have hspec := symlenOf_spec s.ctx.root hfull hroom hnodup
  have hasc := canonical_ascends hspec.canonical
  have hdistinct := hspec.syms.nodup_iff.2 hnodup
  refine ⟨symlenOf s.ctx.root, assignCodes s.ctx.code (symlenOf s.ctx.root), recordValue (symlenOf s.ctx.root), ?next,
    hspec.length_eq, hspec.canonical, hspec.single, fun hnotLeaf => hspec.mem_iff_follow (leaves_ge_two hfull hnotLeaf),
    recordValue_zero _, fun _ _ _ => recordValue_succ hasc, ?codes, ?others⟩
  case next => rw [exec_gencode_of_built hphase, gencode_eq hspec]
  case codes =>
    intro i r hi
    rw [assignCodes_record _ _ hasc hdistinct i r hi, canonicalCode_eq_bin hi]
  case others =>
    exact fun b hb => assignCodes_other _ _ b fun r hr hsym => hb (List.mem_map.2 ⟨r, hr, hsym⟩)

/-! ### The length of the content (R117) -/

theorem assignCodes_length {code : SymbolTable BitString} {rs : List SymLen} (h : canonicalOrder rs)
    (hdistinct : (rs.map SymLen.sym).Nodup) {r : SymLen} (hr : r ∈ rs) :
    (symAt (assignCodes code rs) r.sym).length = r.len.toNat := by
  obtain ⟨i, hi⟩ := List.mem_iff_getElem?.1 hr
  rw [assignCodes_record _ _ (canonical_ascends h) hdistinct i r hi, canonicalCode_length _ _ _ hi]

/-- The codes GENCODE assigns to the symbols of an input take as many bits as PAD was computed from. -/
theorem assigned_content_length {bs : List Byte} (hlen : bs.length < 2 ^ 32) {rs : List SymLen}
    (h : Coded (Context.clean.counted bs).freq rs) (code : SymbolTable BitString) :
    (bs.flatMap (symAt (assignCodes code rs))).length = codeBits (Context.clean.counted bs).freq rs := by
  have hmem : ∀ b ∈ bs, b ∈ rs.map SymLen.sym := fun b hb =>
    (h.seen b).2 fun hzero => (counted_freq_zero_iff bs hlen b).1 hzero hb
  exact content_bits bs hlen rs h.distinct hmem _ fun _ hr => assignCodes_length h.canonical h.distinct hr

/-- Settles O25: in CODED the context is what GENCODE makes of the counted input, whose codes take `codeBits` bits. -/
theorem paddingAligns : Obligations.PaddingAligns := by
  intro s hinv hphase hlen
  obtain ⟨hctx, hsome⟩ := coded_ctx hinv hphase
  have hcoded := build_coded _ (counted_seen _ hsome)
  rw [hctx, gencode_pad, gencode_freq, gencode_symlen, gencode_code]
  obtain ⟨hle, haligned⟩ := paddingOf_spec (Context.clean.counted s.io.is.bytes).freq
    (symlenOf (buildTree (Context.clean.counted s.io.is.bytes).freq).1)
  refine ⟨?formula, hle, (assigned_content_length hlen hcoded _).symm, haligned⟩
  case formula => rw [paddingOf_eq, BitVec.toNat_ofNat, Nat.mod_eq_of_lt (by omega)]

end Sys2Proof.Machine

/-!
SUPPORT. Proofs of 43_histogram_and_policy.md: the largest length HIST finds, and what POLICY decides by.
-/

namespace Sys2Proof.Machine

/-! ### HIST (R125) -/

/-- MAXLEN is the length of some record, also when it is 0. -/
theorem histogram_maxlen_mem {rs : List SymLen} (hne : rs ≠ []) : ∃ r ∈ rs, (histogram rs).2 = r.len := by
  obtain ⟨hbound, hzero | hmem⟩ := histogram_maxlen rs
  · obtain ⟨r, hr⟩ := List.exists_mem_of_ne_nil rs hne
    have hle := hbound r hr
    rw [hzero] at hle
    exact ⟨r, hr, hzero.trans (BitVec.eq_of_toNat_eq (Nat.le_zero.1 hle)).symm⟩
  · exact hmem

theorem lengthsAscend.le_last {rs : List SymLen} (hasc : lengthsAscend rs) {a last : SymLen} (ha : a ∈ rs)
    (hlast : rs.getLast? = some last) : a.len.toNat ≤ last.len.toNat := by
  rw [List.getLast?_eq_some_getLast (List.ne_nil_of_mem ha)] at hlast
  cases hlast
  exact hasc.rel_getLast_of_rel_getLast_getLast ha le_rfl

/-- In a sequence sorted by length, MAXLEN is the last record's length. -/
theorem histogram_maxlen_of_ascends {rs : List SymLen} (hasc : lengthsAscend rs) {last : SymLen}
    (hlast : rs.getLast? = some last) : (histogram rs).2 = last.len := by
  have hmem := List.mem_of_getLast? hlast
  obtain ⟨r, hr, hmax⟩ := histogram_maxlen_mem (List.ne_nil_of_mem hmem)
  apply BitVec.eq_of_toNat_eq
  apply le_antisymm
  · rw [hmax]
    exact hasc.le_last hr hlast
  · exact (histogram_maxlen rs).1 last hmem

/-- In CODED, HIST completes with OK and touches the context alone. -/
theorem exec_hist_of_coded {s : State} (hphase : s.ctx.phase = .coded) :
    exec .hist s = .next { s with ctx := s.ctx.hist, err := .ok } := by
  rw [exec_eq, run, hist_accepted s (acceptance_streamless rfl (decide_eq_true hphase) rfl rfl)]

/-- Settles O27: the laws of the histogram's fold give LCNT and MAXLEN, and the acceptance check decides the refusal. -/
theorem histCompletes : Obligations.HistCompletes := by
  refine fun s => ⟨fun hphase => ?_, fun hphase => exec_eSeq rfl (decide_eq_false hphase)⟩
  refine ⟨(histogram s.ctx.records).1, (histogram s.ctx.records).2, exec_hist_of_coded hphase,
    fun L hpos hle => histogram_lcnt _ L ⟨hpos, hle⟩, (histogram_maxlen _).1, fun hnil => ?nil, histogram_maxlen_mem,
    fun hasc _ => histogram_maxlen_of_ascends hasc⟩
  case nil =>
    rw [Context.records, hnil]
    rfl

/-! ### POLICY (R126) -/

theorem tooLong_iff (c : Context) : c.tooLong = true ↔ 16 < c.maxlen.toNat := decide_eq_true_iff

theorem allEqual_iff (c : Context) : c.allEqual = true ↔
    c.nsym.toNat = 256 ∧ (c.symlen[0]?).map SymLen.len = (c.symlen[255]?).map SymLen.len := by
  rw [Context.allEqual, Bool.and_eq_true, decide_eq_true_iff, decide_eq_true_iff, ← BitVec.toNat_inj]
  rfl

/-- DISABLE as POLICY computes it is the disjunction of the two conditions. -/
theorem tooLong_or_allEqual (c : Context) : (c.tooLong || c.allEqual) = decide (16 < c.maxlen.toNat ∨
    (c.nsym.toNat = 256 ∧ (c.symlen[0]?).map SymLen.len = (c.symlen[255]?).map SymLen.len)) := by
  rw [Bool.eq_iff_iff, Bool.or_eq_true, tooLong_iff, allEqual_iff, decide_eq_true_iff]

/-- In HISTED, POLICY completes with OK and touches the context alone. -/
theorem exec_policy_of_histed {s : State} (hphase : s.ctx.phase = .histed) :
    exec .policy s = .next { s with ctx := s.ctx.policy, err := .ok } := by
  rw [exec_eq, run, policy_accepted s (acceptance_streamless rfl (decide_eq_true hphase) rfl rfl)]

/-- Settles O28: DISABLE is the disjunction of the two conditions, and the acceptance check decides the refusal. -/
theorem policyCompletes : Obligations.PolicyCompletes := by
  refine fun s => ⟨fun hphase => ?_, fun hphase => exec_eSeq rfl (decide_eq_false hphase)⟩
  rw [exec_policy_of_histed hphase, Context.policy, tooLong_or_allEqual]

end Sys2Proof.Machine

/-!
SUPPORT. Proofs of 44_header_codec.md: the three forms WRHDR writes, the three forms RDHDR reads, and the errors a header
raises.
-/

namespace Sys2Proof.Machine

/-! ### WRHDR (R135 to R138) -/

/-- With an output attached, WRHDR passes the acceptance check in POLICED, and in COUNTED when no symbol was seen (R183). -/
theorem wrhdr_acceptance {s : State} (hos : s.osValid = true)
    (hphase : s.ctx.phase = .policed ∨ (s.ctx.phase = .counted ∧ s.ctx.noneSeen = true)) :
    acceptance .wrhdr s = .ok := by
  refine (acceptance_ok_iff .wrhdr s).2 ⟨rfl, ?_, nofun, fun _ => hos⟩
  simpa only [phaseAllows, Bool.or_eq_true, Bool.and_eq_true, decide_eq_true_iff] using hphase

/-- In COUNTED with no symbol seen, WRHDR writes the empty form and sets EMPTY (R136). -/
theorem exec_wrhdr_of_counted {s : State} (hos : s.osValid = true) (hphase : s.ctx.phase = .counted)
    (hnone : s.ctx.noneSeen = true) :
    exec .wrhdr s = .next
      { s with
        ctx := { s.ctx with empty := true, phase := .hdrWritten }
        io := { s.io with os := s.io.os.wrBytes emptyForm }
        err := .ok } := by
  rw [exec_eq, run, wrhdr_accepted s (wrhdr_acceptance hos (.inr ⟨hphase, hnone⟩)), Context.headerBytes, if_pos hphase,
    decide_eq_true hphase, Bool.true_or]

/-- In POLICED, WRHDR writes the header DISABLE selects, and EMPTY stays (R137, R138). -/
theorem exec_wrhdr_of_policed {s : State} (hos : s.osValid = true) (hphase : s.ctx.phase = .policed) :
    exec .wrhdr s = .next
      { s with
        ctx := { s.ctx with phase := .hdrWritten }
        io := { s.io with
          os := s.io.os.wrBytes (if s.ctx.disable then rawHeader s.ctx else huffmanHeader s.ctx) }
        err := .ok } := by
  have hnot : s.ctx.phase ≠ .counted := by rw [hphase]; decide
  rw [exec_eq, run, wrhdr_accepted s (wrhdr_acceptance hos (.inl hphase)), Context.headerBytes, if_neg hnot,
    decide_eq_false hnot, Bool.false_or]

theorem wrBytes_rawHeader (os : OStream) (c : Context) :
    os.wrBytes (rawHeader c) = (os.wrByte 0x4E).wrU32 c.clen := by
  rw [rawHeader, Config.markerRaw, ← List.singleton_append, wrBytes_append, wrBytes_singleton, OStream.wrU32]

/-- The full Huffman header, part by part: marker and length bytes, content length, then counts, symbols and padding byte
(R75, R138). -/
theorem wrBytes_huffmanHeader (os : OStream) (c : Context) :
    os.wrBytes (huffmanHeader c) =
      ((os.wrBytes
          [0x48, BitVec.ofNat 8 ((23 + c.nsym.toNat) / 256), BitVec.ofNat 8 (23 + c.nsym.toNat)]).wrU32 c.clen).wrBytes
        ((List.range 16).map (fun k => (lenAt c.lcnt (k + 1)).extractLsb' 0 8) ++
          (c.symlen.take c.nsym.toNat).map SymLen.sym ++ [c.pad]) := by
  obtain ⟨hhigh, hlow⟩ := headerLength_halves c
  have hcounts : bucketLengths.map (fun L => (lenAt c.lcnt L).extractLsb' 0 8) =
      (List.range 16).map fun k => (lenAt c.lcnt (k + 1)).extractLsb' 0 8 := by
    rw [bucketLengths, List.map_map]
    rfl
  simp only [huffmanHeader, hhigh, hlow, hcounts, Context.records, Config.markerHuff, OStream.wrU32, wrBytes_append]

/-- Settles O31: the phase and DISABLE select the form, and each form is written part by part. -/
theorem wrhdrCompletes : Obligations.WrhdrCompletes := by
  refine fun s hos => ⟨fun hphase hfreq => ?empty, fun hphase hdisable => ?raw, fun hphase hdisable => ?full⟩
  case empty => exact exec_wrhdr_of_counted hos hphase ((noneSeen_iff s.ctx).2 hfreq)
  case raw => rw [exec_wrhdr_of_policed hos hphase, if_pos hdisable, wrBytes_rawHeader]
  case full =>
    rw [exec_wrhdr_of_policed hos hphase, if_neg (Bool.eq_false_iff.1 hdisable), wrBytes_huffmanHeader]

/-! ### RDHDR, by what the header reads as (R139, R147, R148, R206) -/

section rdhdr

variable {s : State} {is : IStream}

theorem exec_rdhdr_of_read (hphase : s.ctx.phase = .idle) (hvalid : s.isValid = true) {hd : Header}
    (hread : rdHeader s.io.is = .ok hd is) : exec .rdhdr s = .next (s.headerRead hd is) := by
  rw [exec_eq, run, rdhdr_accepted s (rdhdr_acceptance hphase hvalid) hread, State.headerRead]

theorem exec_rdhdr_of_error (hphase : s.ctx.phase = .idle) (hvalid : s.isValid = true) {e : Res}
    (hread : rdHeader s.io.is = .error e is) :
    exec .rdhdr s = .next { s with ctx := Context.clean, io := { s.io with is := is }, err := e } := by
  rw [exec_eq, run, rdhdr_raises s (rdhdr_acceptance hphase hvalid) hread]

end rdhdr

/-- LCNT holds each count byte of a header, zero-extended (R79). -/
theorem lcntOf_toNat (counts : List Byte) {L : Nat} (hpos : 1 ≤ L) (hle : L ≤ 16) :
    (lenAt (lcntOf counts) L).toNat = (counts.getD (L - 1) 0).toNat := by
  rw [lenAt_lcntOf counts L ⟨hpos, hle⟩, BitVec.toNat_setWidth_of_le (by decide)]

/-- What a full header writes into the context, with MAXLEN and NSYM as its records and symbols give them (R143). -/
theorem loadHeader_full (c : Context) (clen : Word32) {counts syms : List Byte} (rs : List SymLen) (pad : Byte)
    (hsum : (counts.map BitVec.toNat).sum = syms.length) :
    c.loadHeader (.full clen counts rs pad) =
      { c with
        disable := false, clen := clen, lcnt := lcntOf counts, symlen := rs
        maxlen := ((rs.getLast?).map SymLen.len).getD 0
        nsym := BitVec.ofNat 9 syms.length, pad := pad, phase := .hdrRead } := by
  rw [Context.loadHeader, lastLength_eq, countSum, hsum]

/-- Settles O34: each form reads as its header, and the context is loaded from it. -/
theorem rdhdrForms : Obligations.RdhdrForms := by
  refine fun s r hphase hvalid => ⟨fun clen hrest => ?raw, fun hrest => ?empty,
    fun clen counts syms pad h16 hsum hroom hrest => ⟨lcntOf counts, ?full, fun L => lcntOf_toNat counts⟩⟩
  case raw => exact exec_rdhdr_of_read hphase hvalid (rdHeader_raw s.io.is clen r hrest)
  case empty => exact exec_rdhdr_of_read hphase hvalid (rdHeader_empty s.io.is r hrest)
  case full =>
    have hread := rdHeader_full_ok h16 hsum hroom hrest
    have hpos : 24 + syms.length = 1 + (23 + syms.length) := by omega
    rw [exec_rdhdr_of_read hphase hvalid hread, State.headerRead, loadHeader_full _ _ _ _ hsum, hpos]

/-! ### The errors of RDHDR (R144, R196, R197) -/

/-- A full header that declares more than 256 symbols is given up right after its count table (R144). -/
theorem rdHeader_capacity {is : IStream} {hi lo : Byte} {clen : Word32} {counts : List Byte} {r : BitString}
    (hrest : is.rest = bytesBits ([0x48, hi, lo] ++ u32Bytes clen ++ counts) ++ r)
    (hne : 256 * hi.toNat + lo.toNat ≠ 2) (h16 : counts.length = 16) (hover : 256 < (counts.map BitVec.toNat).sum) :
    rdHeader is = .error .eTree { is with pos := is.pos + 8 * 23 } := by
  have hmarker : is.rest = byteBits 0x48 ++ (bytesBits ([hi, lo] ++ (u32Bytes clen ++ counts)) ++ r) := by
    rw [hrest, List.append_assoc [0x48, hi, lo], List.cons_append, bytesBits_cons, List.append_assoc]
  have hbody := rest_skip 8 hmarker (byteBits_length _)
  rw [rdHeader_huff is _ hmarker, rdHuffmanHeader_capacity _ hi lo clen counts r hbody hne h16 hover]

/-- A full header whose declared length is not that of its symbols fails after its padding byte (R144, R197). -/
theorem rdHeader_hdrlen {is : IStream} {hi lo : Byte} {clen : Word32} {counts syms : List Byte} {pad : Byte}
    {r : BitString} (hrest : is.rest = bytesBits ([0x48, hi, lo] ++ u32Bytes clen ++ counts ++ syms ++ [pad]) ++ r)
    (hne : 256 * hi.toNat + lo.toNat ≠ 2) (h16 : counts.length = 16)
    (hsum : (counts.map BitVec.toNat).sum = syms.length) (hroom : syms.length ≤ 256)
    (hlen : 256 * hi.toNat + lo.toNat ≠ 23 + syms.length) :
    rdHeader is = .error .eHdrlen { is with pos := is.pos + 8 * (1 + 23 + syms.length) } := by
  rw [rdHeader_full is hi lo clen counts syms pad r hrest hne h16 hsum hroom, if_neg hlen.symm]

/-- Settles O35: each fault makes the header read fail where the spec says, and error entry cleans the context. -/
theorem rdhdrErrors : Obligations.RdhdrErrors := by
  refine fun s r hphase hvalid => ⟨fun m hhuff hraw hrest => ?marker, fun hi lo clen counts hne h16 hover hrest => ?tree,
    fun hi lo clen counts syms pad hne h16 hsum hroom hlen hrest => ?length⟩
  case marker => exact exec_rdhdr_of_error hphase hvalid (rdHeader_marker s.io.is m r hrest hraw hhuff)
  case tree => exact exec_rdhdr_of_error hphase hvalid (rdHeader_capacity hrest hne h16 hover)
  case length => exact exec_rdhdr_of_error hphase hvalid (rdHeader_hdrlen hrest hne h16 hsum hroom hlen)

end Sys2Proof.Machine

/-!
SUPPORT. Proofs of 45_bit_encoder.md: where ENCBITS leaves the streams, form by form.
-/

namespace Sys2Proof.Machine

/-- In HDR_WRITTEN, with both streams attached, ENCBITS passes the acceptance check (R150, R183). -/
theorem encbits_acceptance {s : State} (hphase : s.ctx.phase = .hdrWritten) (his : s.isValid = true)
    (hos : s.osValid = true) : acceptance .encbits s = .ok :=
  (acceptance_ok_iff .encbits s).2 ⟨rfl, decide_eq_true hphase, fun _ => his, fun _ => hos⟩

/-! ### The streams after each form (R151 to R155) -/

section forms

variable {c : Context}

/-- The empty path leaves the input and PROG alone, and writes no content (R151). -/
theorem encodedStreams_empty (io : Streams) (hempty : c.empty = true) :
    encodedStreams c io = { io with os := io.os.flush } := by
  simp only [encodedStreams, Context.content, if_pos hempty, OStream.wrBits, List.foldl_nil, List.append_nil]

/-- On the other two paths the input is read to its end, with one progress event for each byte (R152, R153, R155). -/
theorem encodedStreams_scanned (io : Streams) (hempty : c.empty = false) :
    encodedStreams c io =
      { is := { io.is with pos := 8 * io.is.bytes.length }
        os := (io.os.wrBits (c.content io.is.bytes)).flush
        prog := io.prog ++ List.replicate io.is.bytes.length 1 } := by
  simp only [encodedStreams, if_neg (Bool.eq_false_iff.1 hempty)]

theorem content_raw (bs : List Byte) (hempty : c.empty = false) (hdisable : c.disable = true) :
    c.content bs = bytesBits bs := by
  rw [Context.content, if_neg (Bool.eq_false_iff.1 hempty), if_pos hdisable]

theorem content_coded (bs : List Byte) (hempty : c.empty = false) (hdisable : c.disable = false) :
    c.content bs = List.replicate c.pad.toNat false ++ bs.flatMap (symAt c.code) := by
  rw [Context.content, if_neg (Bool.eq_false_iff.1 hempty), if_neg (Bool.eq_false_iff.1 hdisable)]

end forms

/-- Settles O32: an accepted ENCBITS leaves the streams that EMPTY and DISABLE select. -/
theorem encbitsCompletes : Obligations.EncbitsCompletes := by
  intro s hphase his hos
  rw [exec_eq, run, encbits_accepted s (encbits_acceptance hphase his hos)]
  refine ⟨fun hempty => ?empty, fun hempty hdisable => ?raw, fun hempty hdisable => ?coded⟩
  case empty => rw [encodedStreams_empty _ hempty]
  case raw => rw [encodedStreams_scanned _ hempty, content_raw _ hempty hdisable, wrBytes_eq_wrBits]
  case coded => rw [encodedStreams_scanned _ hempty, content_coded _ hempty hdisable]

end Sys2Proof.Machine

/-!
SUPPORT. Proofs of 46_bit_decoder.md: the tree REBUILD makes, every way DECBITS can end, and the round trip.
-/

namespace Sys2Proof.Machine

/-! ### The round trip (R173, R175) -/

/-- In IDLE, with both streams attached, ENCODE passes the acceptance check (R183). -/
theorem encode_acceptance {s : State} (hphase : s.ctx.phase = .idle) (his : s.isValid = true)
    (hos : s.osValid = true) : acceptance .encode s = .ok :=
  (acceptance_ok_iff .encode s).2 ⟨rfl, decide_eq_true hphase, fun _ => his, fun _ => hos⟩

/-- Settles O47: the bytes ENCODE appends are the bits of the encoded stream, which DECODE reads back. -/
theorem roundTrip : Obligations.RoundTrip := by
  intro s hinv hphase his hos hnacc hlen
  obtain ⟨out, hbits, herr, hout⟩ := encodeCall_aligned s (encode_acceptance hphase his hos) (idle_ctx hinv hphase) hlen
    hnacc hinv.accumulator
  refine ⟨out, encodeCall s, exec_eq .encode s, herr, hout, fun d r hdinv hdphase hdis hdos hrest => ?_⟩
  rw [hbits] at hrest
  obtain ⟨prog, hdecode⟩ := decodeCall_encoded d s.io.is.bytes r (decode_acceptance hdphase hdis hdos)
    (idle_ctx hdinv hdphase) hlen hrest
  refine ⟨prog, ?_, fun haligned => wrBytes_aligned _ _ haligned hdinv.accumulator⟩
  rw [exec_eq, run, hdecode, ← hbits, bytesBits_length]

/-! ### REBUILD (R160 to R165) -/

/-- In HDR_READ, outside the raw and the empty path, REBUILD passes the acceptance check (R183). -/
theorem rebuild_acceptance {s : State} (hphase : s.ctx.phase = .hdrRead) (hdisable : s.ctx.disable = false)
    (hempty : s.ctx.empty = false) : acceptance .rebuild s = .ok :=
  acceptance_streamless rfl (by simp [phaseAllows, hphase, hdisable, hempty]) rfl rfl

/-- Settles O37: the records all find a place and pass the completeness check exactly in the two cases named, and each
leaf stands where its canonical code leads. -/
theorem rebuildCompletes : Obligations.RebuildCompletes := by
  intro s hphase hdisable hempty hdec
  have haccept := rebuild_acceptance hphase hdisable hempty
  rw [exec_eq, run]
  rcases rebuildTree_spec s.ctx hdec with ⟨htree, hspace, hsingle⟩ | ⟨tree, n, htree, hplaced, hroom, hshape⟩
  case inl =>
    refine ⟨fun hfull => absurd hfull (not_or.2 ⟨hspace, hsingle⟩), fun _ _ => ?_⟩
    rw [rebuild_raises s haccept htree, State.raise, State.cleanup]
  case inr =>
    refine ⟨fun _ => ⟨tree, n, congrArg _ (rebuild_accepted s haccept htree), hroom, rebuildTree_index _ htree,
      hplaced.indices, hplaced.leaves, fun i e hi => ?paths, ?shape⟩, fun hspace hsingle => ?full⟩
    case paths =>
      obtain ⟨j, hleaf⟩ := hplaced.paths i e hi
      exact ⟨j, 0, hleaf⟩
    case shape =>
      refine hshape.imp And.right fun ⟨b, hb⟩ => ⟨b, 1, hb, ?_⟩
      rw [rebuildTree_single _ hdec hb] at htree
      cases htree
      rfl
    case full => exact absurd hshape (not_or.2 ⟨fun h => hspace h.1, hsingle⟩)

/-! ### DECBITS, by what its content comes to (R166, R172) -/

section decbits

variable {s t : State}

/-- With both streams attached, DECBITS passes the acceptance check after REBUILD, and on the raw and the empty path
straight after RDHDR (R183). -/
theorem decbits_acceptance (his : s.isValid = true) (hos : s.osValid = true)
    (hphase : s.ctx.phase = .rebuilt ∨ (s.ctx.phase = .hdrRead ∧ (s.ctx.disable = true ∨ s.ctx.empty = true))) :
    acceptance .decbits s = .ok := by
  refine (acceptance_ok_iff .decbits s).2 ⟨rfl, ?_, fun _ => his, fun _ => hos⟩
  simpa only [phaseAllows, Bool.or_eq_true, Bool.and_eq_true, decide_eq_true_iff] using hphase

theorem exec_decbits_of_content (haccept : acceptance .decbits s = .ok) (ht : decodeContent s.ctx s = .ok () t) :
    exec .decbits s = .next { t with ctx := Context.clean, err := .ok } := by
  rw [exec_eq, run, decbits_accepted s haccept ht]

theorem exec_decbits_of_error (haccept : acceptance .decbits s = .ok) {e : Res}
    (ht : decodeContent s.ctx s = .error e t) :
    exec .decbits s = .next { t with ctx := Context.clean, err := e } := by
  rw [exec_eq, run, decbits_raises s haccept ht]

end decbits

/-- Counted from the first content bit, there is one progress event for each eight bits (R174). -/
theorem ticks_zero_left (k : Nat) : ticks 0 k = k / 8 := by
  rw [ticks, Nat.zero_add, Nat.zero_div, Nat.sub_zero]

/-- The completed state after `k` content bits, the padding included, and the bytes `bs` (R172, R174). -/
theorem decoded_completed (s : State) (k : Nat) (bs : List Byte) (c : Context) (e : Res) :
    { s.decoded 0 k bs with ctx := c, err := e } =
      { s with
        ctx := c
        io := {
          is := { s.io.is with pos := s.io.is.pos + k }
          os := s.io.os.wrBytes bs
          prog := s.io.prog ++ List.replicate (k / 8) 1 }
        err := e } := by
  simp only [State.decoded, State.consume, ticks_zero_left]

/-- Settles O38: the walk follows each code to its leaf, and stops after CLEN of them. -/
theorem decbitsCodes : Obligations.DecbitsCodes := by
  intro s code bs pad r hphase his hos hempty hdisable hpad hlen hcodes hrest
  have hcontent := decodeContent_codes s code bs pad r hempty hdisable hpad hlen hcodes hrest
  rw [exec_decbits_of_content (decbits_acceptance his hos (.inl hphase)) hcontent, decoded_completed]

/-- The raw path on fewer whole bytes than the header declared (R170). -/
theorem decodeContent_rawShort {s : State} {bs : List Byte} {r : BitString} (hempty : s.ctx.empty = false)
    (hdisable : s.ctx.disable = true) (hlen : bs.length < s.ctx.clen.toNat) (hr : r.length < 8)
    (hrest : s.io.is.rest = bytesBits bs ++ r) :
    decodeContent s.ctx s = .error .eEos (s.copied s.io.is.rest.length bs) := by
  rw [decodeContent, if_neg (Bool.eq_false_iff.1 hempty), if_pos hdisable, copyRaw_short bs _ s r hrest hlen hr]

/-- Settles O39: the empty path has no content, and the raw copy takes the bytes there are. -/
theorem decbitsRawAndEmpty : Obligations.DecbitsRawAndEmpty := by
  intro s hphase his hos
  refine ⟨fun hempty => ?empty, fun bs r hempty hdisable hrest => ⟨fun hlen => ?whole, fun hlen hr => ?short⟩⟩
  case empty =>
    exact exec_decbits_of_content (decbits_acceptance his hos (.inr ⟨hphase, .inr hempty⟩)) (decodeContent_empty s hempty)
  case whole =>
    exact exec_decbits_of_content (decbits_acceptance his hos (.inr ⟨hphase, .inl hdisable⟩))
      (decodeContent_raw s bs r hempty hdisable hlen hrest)
  case short =>
    exact exec_decbits_of_error (decbits_acceptance his hos (.inr ⟨hphase, .inl hdisable⟩))
      (decodeContent_rawShort hempty hdisable hlen hr hrest)

/-- Settles O40: the content ends in one of the ways named, and a Huffman form that is cut runs out of bits in its padding
or in its walk. -/
theorem decbitsEnds : Obligations.DecbitsEnds := by
  refine ⟨fun s his hos hphase => ?ends, fun s hphase his hos hempty hdisable =>
    ⟨fun hcut => ?padding, fun code bs pad r hpad hlen hcodes hinternal hrest => ?codes⟩⟩
  case ends =>
    have haccept := decbits_acceptance his hos hphase
    rcases decodeContent_ends s with ⟨t, bs, ht, hout, hlen⟩ | ⟨e, t, bs, ht, hout, hempty, hend⟩
    · exact ⟨_, bs, exec_decbits_of_content haccept ht, rfl, hout, .inl ⟨rfl, hlen⟩⟩
    · refine ⟨_, bs, exec_decbits_of_error haccept ht, rfl, hout, .inr ?_⟩
      rcases hend with ⟨rfl, hrest, hlen⟩ | ⟨rfl, hdisable, hlen, _⟩
      · exact .inl ⟨rfl, hempty, hrest, hlen⟩
      · exact .inr ⟨rfl, hempty, hdisable, hlen⟩
  case padding =>
    have hcontent := decodeContent_cutPadding s hempty hdisable hcut
    rw [← decoded_nil] at hcontent
    rw [exec_decbits_of_error (decbits_acceptance his hos (.inl hphase)) hcontent, decoded_completed, wrBytes_nil]
  case codes =>
    have hcontent := decodeContent_cutCodes s code bs pad r hempty hdisable hpad hlen hcodes hinternal hrest
    rw [exec_decbits_of_error (decbits_acceptance his hos (.inl hphase)) hcontent, decoded_completed]

/-! ### An absent child (R169, R198) -/

/-- In a state of the invariant, the tree REBUILD left is an internal node with two children everywhere below it, the
single-symbol tree apart (R164). -/
theorem rebuilt_branching {s : State} (hinv : s.Inv) (hphase : s.ctx.phase = .rebuilt) (hsingle : ¬ s.ctx.singleSymbol) :
    s.ctx.root.branching := by
  obtain ⟨_, _, hdec, n, htree, _⟩ := rebuilt_ctx hinv hphase
  rcases rebuildTree_spec s.ctx hdec with ⟨hnone, _⟩ | ⟨t, m, hsome, hplaced, _, hshape⟩
  · rw [hnone] at htree
    cases htree
  · rw [hsome] at htree
    cases htree
    exact ⟨hplaced.isInternal, (hshape.resolve_right hsingle).2⟩

/-- In a state of the invariant, the tree of the one record of length 1 is the single-symbol tree. -/
theorem rebuilt_root_single {s : State} (hinv : s.Inv) (hphase : s.ctx.phase = .rebuilt) {b : Byte}
    (hsingle : s.ctx.symlen = [{ sym := b, len := 1 }]) : s.ctx.root = .internal 0 (.leaf 1 b 0) .absent 0 := by
  obtain ⟨_, _, hdec, n, htree, _⟩ := rebuilt_ctx hinv hphase
  rw [rebuildTree_single _ hdec hsingle] at htree
  exact (congrArg Prod.fst (Option.some.inj htree)).symm

/-- On the Huffman path, once the padding and the codes of some symbols have been read, the walk is back at the root with
those symbols written (R167, R168). -/
theorem decodeContent_afterCodes {s : State} {code : Byte → BitString} {bs : List Byte} {pad r : BitString}
    (hempty : s.ctx.empty = false) (hdisable : s.ctx.disable = false) (hpad : pad.length = s.ctx.pad.toNat)
    (hlen : bs.length ≤ s.ctx.clen.toNat) (hcodes : ∀ x ∈ bs, code x ≠ [] ∧ s.ctx.root.hasPath (code x) x)
    (hrest : s.io.is.rest = pad ++ (bs.flatMap code ++ r)) :
    decodeContent s.ctx s =
      walk s.ctx.root s.ctx.clen.toNat (r.length + 1) s.ctx.root bs.length (pad.length + (bs.flatMap code).length)
        (s.decoded 0 (pad.length + (bs.flatMap code).length) bs) := by
  have hskip := discardPadding_ok pad.length 0 s (by rw [hrest, List.length_append]; omega)
  have hstart : (s.consume 0 pad.length).io.is.rest = bs.flatMap code ++ r := by
    rw [consume_rest, hrest, List.drop_left]
  have hpasses : (s.consume 0 pad.length).io.is.rest.length + 1 = r.length + 1 + (bs.flatMap code).length := by
    rw [hstart, List.length_append]
    omega
  have hdecoded := decoded_decoded s 0 pad.length (bs.flatMap code).length [] bs
  rw [Nat.zero_add, decoded_nil, List.nil_append] at hdecoded
  rw [decodeContent, if_neg (Bool.eq_false_iff.1 hempty), if_neg (Bool.eq_false_iff.1 hdisable), ← hpad, bind_ok hskip,
    bind_ok (run_bitsLeft _), hpasses, walk_prefix _ _ code bs 0 _ _ _ r hcodes hstart (by omega), hdecoded, Nat.zero_add]

/-- A bit that then leads to an absent child of the root: E_TREE after that bit, the symbols before it having been
written (R169). -/
theorem decodeContent_absentChild {s : State} {code : Byte → BitString} {bs : List Byte} {pad r : BitString} {b : Bool}
    (hempty : s.ctx.empty = false) (hdisable : s.ctx.disable = false) (hpad : pad.length = s.ctx.pad.toNat)
    (hlen : bs.length < s.ctx.clen.toNat) (hcodes : ∀ x ∈ bs, code x ≠ [] ∧ s.ctx.root.hasPath (code x) x)
    (habsent : s.ctx.root.child b = .absent) (hrest : s.io.is.rest = pad ++ (bs.flatMap code ++ b :: r)) :
    decodeContent s.ctx s = .error .eTree (s.decoded 0 (pad.length + (bs.flatMap code).length + 1) bs) := by
  have hbit : (s.decoded 0 (pad.length + (bs.flatMap code).length) bs).io.is.rest = b :: r := by
    rw [decoded_rest, hrest, ← List.append_assoc, ← List.length_append, List.drop_left]
  have hlast := decoded_decoded s 0 (pad.length + (bs.flatMap code).length) 1 bs []
  rw [Nat.zero_add, List.append_nil] at hlast
  rw [decodeContent_afterCodes hempty hdisable hpad hlen.le hcodes hrest, walk_absent hlen hbit habsent, hlast]

/-- Settles O41: a tree with two children everywhere never sends the walk to an absent child; in the single-symbol tree
each 0 bit is a code, and a 1 bit leads to the absent right child. -/
theorem decbitsAbsentChild : Obligations.DecbitsAbsentChild := by
  intro s hinv hphase his hos
  have haccept := decbits_acceptance his hos (.inl hphase)
  obtain ⟨hdisable, hempty, _⟩ := rebuilt_ctx hinv hphase
  refine ⟨fun hsingle => ?branching, fun b pad r k hsingle hpad hk hrest => ?single⟩
  case branching =>
    rcases decodeContent_ends s with ⟨t, _, ht, _⟩ | ⟨e, t, _, ht, _, _, hend⟩
    · exact ⟨_, exec_decbits_of_content haccept ht, nofun⟩
    · refine ⟨_, exec_decbits_of_error haccept ht, ?_⟩
      rcases hend with ⟨rfl, _⟩ | ⟨_, _, _, hlacks⟩
      · nofun
      · exact absurd (rebuilt_branching hinv hphase hsingle) hlacks
  case single =>
    have hroot := rebuilt_root_single hinv hphase hsingle
    have hbits : (List.replicate k b).flatMap (fun _ => [false]) = List.replicate k false := by
      rw [List.flatMap_replicate, List.flatten_replicate_singleton]
    have hcontent := decodeContent_absentChild (s := s) (code := fun _ => [false]) (bs := List.replicate k b) (b := true)
      hempty hdisable hpad (by rwa [List.length_replicate])
      (fun x hx => ⟨List.cons_ne_nil _ _, 1, 0, by rw [hroot, List.eq_of_mem_replicate hx]; rfl⟩)
      (by rw [hroot]; rfl) (by rw [hbits]; exact hrest)
    rw [hbits, List.length_replicate] at hcontent
    rw [exec_decbits_of_error haccept hcontent, decoded_completed]
    exact ⟨_, rfl⟩

end Sys2Proof.Machine

/-!
SUPPORT. Proofs of 70_reset_and_hazards.md, 60_exceptions.md and 47_sequencer.md about every command: reset and the clean
context, the acceptance check, the completion codes, the phases, and the calls from IDLE to IDLE.
-/

namespace Sys2Proof.Machine

/-! ### The clean context (R30, R180, R220) -/

theorem isClean_iff (c : Context) : c.isClean = true ↔ c = Context.clean := decide_eq_true_iff

theorem clean_isClean : Context.clean.isClean = true := (isClean_iff _).2 rfl

/-- Settles O9: every arm of the dispatch answers a next state. -/
theorem everyCommandCompletes : Obligations.EveryCommandCompletes := fun i s => ⟨run i s, exec_eq i s⟩

/-- Settles O19: CLEAR is accepted in every state, and its next state is known whole. -/
theorem clearCompletes : Obligations.ClearCompletes := by
  refine ⟨clean_isClean, fun s => ?_⟩
  have hclear : exec .clear s = .next { s with ctx := Context.clean, err := .ok } := by rw [exec_eq, run, clear_eq]
  refine ⟨hclear, fun hclean => ?_⟩
  rw [hclear, ← (isClean_iff s.ctx).1 hclean]

/-- Settles O5: a hardware reset is the step of its host action. -/
theorem hardwareReset : Obligations.HardwareReset := fun _ _ hpending =>
  ⟨_, step_action hpending, clean_isClean, rfl, rfl, rfl, rfl⟩

/-- CLEAN, entry by entry of the tables. -/
theorem eq_clean_iff (c : Context) : c = Context.clean ↔
    (∀ b : Byte, symAt c.freq b = 0 ∧ symAt c.code b = []) ∧ c.symlen = [] ∧ c.nsym = 0 ∧ c.root = .absent ∧
    c.nodeCnt = 0 ∧ c.pad = 0 ∧ c.clen = 0 ∧ c.disable = false ∧ (∀ L, 1 ≤ L → L ≤ 16 → lenAt c.lcnt L = 0) ∧
    c.maxlen = 0 ∧ c.empty = false ∧ c.phase = .idle := by
  constructor
  · rintro rfl
    exact ⟨fun b => ⟨symAt_replicate 0 b, symAt_replicate [] b⟩, rfl, rfl, rfl, rfl, rfl, rfl, rfl,
      fun L hpos hle => lenAt_replicate 0 L ⟨hpos, hle⟩, rfl, rfl, rfl⟩
  · rintro ⟨htables, hsymlen, hnsym, hroot, hcount, hpad, hclen, hdisable, hlcnt, hmaxlen, hempty, hphase⟩
    have hfreq : c.freq = Vector.replicate 256 0 := symTable_ext fun b => by rw [(htables b).1, symAt_replicate]
    have hcode : c.code = Vector.replicate 256 [] := symTable_ext fun b => by rw [(htables b).2, symAt_replicate]
    have hlens : c.lcnt = Vector.replicate 16 0 := lenTable_ext fun L hpos hle => by
      rw [hlcnt L hpos hle, lenAt_replicate 0 L ⟨hpos, hle⟩]
    cases c
    simp_all only [Context.clean]

/-- Settles O7: the tables are equal when their entries are, and the invariant makes an idle context clean. -/
theorem idleIffClean : Obligations.IdleIffClean := by
  refine ⟨fun c => (isClean_iff c).trans (eq_clean_iff c), fun s hinv => ?_⟩
  rw [isClean_iff]
  exact ⟨idle_ctx hinv, fun hclean => by rw [hclean]; rfl⟩

/-! ### The acceptance check (R183) -/

/-- A command that fails its acceptance check changes ERR alone. -/
theorem exec_of_rejected {i : Instr} {s : State} {e : Res} (h : acceptance i s = e) (he : e ≠ .ok) :
    exec i s = .next { s with err := e } := by
  subst h
  rw [exec_eq, run_rejected i s he]
  rfl

/-- A command in its phase, one of whose streams is not attached, ends with E_NULL. -/
theorem exec_eNull {i : Instr} {s : State} (hcommand : isCommand i = true) (hphase : phaseAllows i s.ctx = true)
    (hstream : (needsIS i = true ∧ s.isValid = false) ∨ (needsOS i = true ∧ s.osValid = false)) :
    exec i s = .next { s with err := .eNull } := by
  refine exec_of_rejected ?_ nofun
  rw [acceptance_eq, if_neg (by simp [hcommand]), if_neg (by simp [hphase]), if_pos hstream]

/-- What a command raises once it is accepted is none of the codes of the acceptance check. -/
theorem mayRaise_headerError {i : Instr} {e : Res} (h : mayRaise i e) : HeaderError e := by
  cases i
  case rdhdr => exact h
  case decode => exact h
  case rebuild => exact .inr (.inr (.inl h))
  case decbits => exact .inr (.inr h.symm)
  all_goals exact h.elim

/-- A row of R183's table, told by the definitions of the acceptance check. -/
structure AcceptanceRow (i : Instr) (allowed : Context → Prop) (usesIS usesOS : Bool) : Prop where
  command : isCommand i = true
  phase : ∀ c, phaseAllows i c = true ↔ allowed c
  input : needsIS i = usesIS
  output : needsOS i = usesOS

/-- A command whose row holds completes with a code that is not the acceptance check's. -/
theorem AcceptanceRow.accepted {i : Instr} {allowed : Context → Prop} {usesIS usesOS : Bool}
    (row : AcceptanceRow i allowed usesIS usesOS) {s : State} (hallowed : allowed s.ctx)
    (hIS : usesIS = true → s.isValid = true) (hOS : usesOS = true → s.osValid = true) :
    (run i s).err ≠ .eCmd ∧ (run i s).err ≠ .eSeq ∧ (run i s).err ≠ .eNull := by
  have haccept : acceptance i s = .ok := (acceptance_ok_iff i s).2
    ⟨row.command, (row.phase _).2 hallowed, row.input ▸ hIS, row.output ▸ hOS⟩
  rcases run_ends i s haccept with hok | ⟨hraise, _⟩
  · simp [hok]
  · rcases mayRaise_headerError hraise with he | he | he | he <;> simp [he]

/-- Settles O10: each row is the model's own check, and one argument serves all rows. -/
theorem acceptanceCheck : Obligations.AcceptanceCheck := by
  refine ⟨fun i hi s => exec_of_not_command ?reserved s, fun i allowed usesIS usesOS hrow s => ?_⟩
  case reserved =>
    simp only [List.mem_cons, List.not_mem_nil, or_false] at hi
    rcases hi with rfl | rfl | rfl <;> rfl
  have row : AcceptanceRow i allowed usesIS usesOS := by
    simp only [List.mem_cons, List.not_mem_nil, or_false, Prod.mk.injEq] at hrow
    rcases hrow with ⟨rfl, rfl, rfl, rfl⟩ | ⟨rfl, rfl, rfl, rfl⟩ | ⟨rfl, rfl, rfl, rfl⟩ | ⟨rfl, rfl, rfl, rfl⟩ |
      ⟨rfl, rfl, rfl, rfl⟩ | ⟨rfl, rfl, rfl, rfl⟩ | ⟨rfl, rfl, rfl, rfl⟩ | ⟨rfl, rfl, rfl, rfl⟩ |
      ⟨rfl, rfl, rfl, rfl⟩ | ⟨rfl, rfl, rfl, rfl⟩ | ⟨rfl, rfl, rfl, rfl⟩ | ⟨rfl, rfl, rfl, rfl⟩ | ⟨rfl, rfl, rfl, rfl⟩
    all_goals exact ⟨rfl, fun c => by simp [phaseAllows, noneSeen_false_iff, noneSeen_iff, and_assoc], rfl, rfl⟩
  refine ⟨fun hnot => ?_, fun hallowed hstream => ?_, fun hallowed hIS hOS =>
    ⟨run i s, exec_eq i s, row.accepted hallowed hIS hOS⟩⟩
  · exact exec_eSeq row.command (Bool.eq_false_iff.2 fun hphase => hnot ((row.phase _).1 hphase))
  · refine exec_eNull row.command ((row.phase _).2 hallowed) ?_
    rwa [row.input, row.output]

/-! ### Completion codes and phases (R184, R195, R206) -/

/-- A command that ends with a code of the acceptance check was not accepted, and changed ERR alone (R206). -/
theorem run_of_rejectCode {i : Instr} {s : State}
    (he : (run i s).err = .eCmd ∨ (run i s).err = .eSeq ∨ (run i s).err = .eNull) :
    run i s = { s with err := (run i s).err } := by
  have hrejected : acceptance i s ≠ .ok := fun haccept => by
    rcases run_ends i s haccept with hok | ⟨hraise, _⟩
    · simp [hok] at he
    · rcases mayRaise_headerError hraise with h | h | h | h <;> simp [h] at he
  rw [run_rejected i s hrejected]
  rfl

/-- A command that raises an error after its acceptance leaves the clean context (R206). -/
theorem run_of_headerError {i : Instr} {s : State} (he : HeaderError (run i s).err) :
    (run i s).ctx = Context.clean := by
  by_cases haccept : acceptance i s = .ok
  · rcases run_ends i s haccept with hok | ⟨_, hclean⟩
    · simp [hok, HeaderError] at he
    · exact hclean
  · rw [run_rejected i s haccept, reject_err] at he
    rcases acceptance_codes i s with h | h | h | h <;> simp [h, HeaderError] at he

/-- Settles O11: the table of transitions for OK, and what each kind of error does to the context. -/
theorem phaseTransitions : Obligations.PhaseTransitions := by
  intro i s t hexec
  rw [exec_eq] at hexec
  cases hexec
  refine ⟨run_transition i s, fun he => ?_, fun he => ?_⟩
  · rw [run_of_rejectCode he]
  · rw [run_of_headerError he]
    rfl

/-- Settles O13: the common frame of the commands, with the clean context of a raised error. -/
theorem errorEntry : Obligations.ErrorEntry := by
  intro i s t hexec
  rw [exec_eq] at hexec
  cases hexec
  have hframe := run_frame i s
  exact ⟨fun he => ⟨(isClean_iff _).2 (run_of_headerError he), hframe.isBytes, hframe.osBits, hframe.osBytes,
    hframe.isValid, hframe.osValid, hframe.pending⟩, run_of_rejectCode⟩

/-- What an accepted command may raise, as a list. -/
def raisedCodes : Instr → List Res
  | .rdhdr | .decode => [.eMarker, .eHdrlen, .eTree, .eEos]
  | .rebuild => [.eTree]
  | .decbits => [.eTree, .eEos]
  | _ => []

theorem mem_raisedCodes {i : Instr} {e : Res} (h : mayRaise i e) : e ∈ raisedCodes i := by
  cases i
  case rdhdr => simpa [mayRaise, raisedCodes] using h
  case decode => simpa [mayRaise, raisedCodes] using h
  case rebuild => simpa [mayRaise, raisedCodes] using h
  case decbits => simpa [mayRaise, raisedCodes, or_comm] using h
  all_goals exact h.elim

/-- The codes a command can end with: OK, what its acceptance check can answer, and what it may raise. -/
def endCodes (i : Instr) : List Res :=
  if isCommand i then
    [.ok] ++ (if i = .clear then [] else [.eSeq]) ++ (if needsIS i || needsOS i then [.eNull] else []) ++ raisedCodes i
  else [.eCmd]

theorem run_err_mem (i : Instr) (s : State) : (run i s).err ∈ endCodes i := by
  by_cases haccept : acceptance i s = .ok
  · obtain ⟨hcommand, _⟩ := (acceptance_ok_iff i s).1 haccept
    rcases run_ends i s haccept with hok | ⟨hraise, _⟩
    · simp [endCodes, hcommand, hok]
    · simp [endCodes, hcommand, mem_raisedCodes hraise]
  · rw [run_rejected i s haccept, reject_err]
    rw [acceptance_eq] at haccept ⊢
    split_ifs at haccept ⊢ with hcommand hphase hstream
    · simp [endCodes, hcommand]
    · have hclear : i ≠ .clear := by
        rintro rfl
        cases hphase
      simp [endCodes, hcommand, hclear]
    · simp [endCodes, hcommand, hstream.imp And.left And.left]
    · exact absurd rfl haccept

/-- Settles O14: each row lists the codes of the command's acceptance check and of its body. -/
theorem whichErrors : Obligations.WhichErrors := by
  intro i codes hrow s t hexec
  rw [exec_eq] at hexec
  cases hexec
  have hcodes : endCodes i = codes := (by decide : ∀ row ∈ _, endCodes row.1 = row.2) (i, codes) hrow
  exact hcodes ▸ run_err_mem i s

/-! ### Calls (R184) -/

/-- The command sequences that lead from a phase to IDLE, by the table of transitions. -/
def Phase.tails : Phase → List (List Instr)
  | .hdrWritten => [[.encbits]]
  | .policed => [[.wrhdr, .encbits]]
  | .histed => [[.policy, .wrhdr, .encbits]]
  | .coded => [[.hist, .policy, .wrhdr, .encbits]]
  | .built => [[.gencode, .hist, .policy, .wrhdr, .encbits]]
  | .counted => [[.build, .gencode, .hist, .policy, .wrhdr, .encbits], [.wrhdr, .encbits]]
  | .rebuilt => [[.decbits]]
  | .hdrRead => [[.rebuild, .decbits], [.decbits]]
  | .idle => [[.count, .build, .gencode, .hist, .policy, .wrhdr, .encbits], [.count, .wrhdr, .encbits],
      [.rdhdr, .rebuild, .decbits], [.rdhdr, .decbits], [.encode], [.decode]]

theorem tails_last : ∀ p ∈ transitions, p.2.2 = .idle → [p.1] ∈ p.2.1.tails := by decide

theorem tails_cons : ∀ p ∈ transitions, p.2.2 ≠ .idle → ∀ rest ∈ p.2.2.tails, p.1 :: rest ∈ p.2.1.tails := by decide

/-- A command other than CLEAR that completes with OK makes a transition of the table. -/
theorem exec_transition {i : Instr} {s u : State} (hexec : exec i s = .next u) (hok : u.err = .ok) (hclear : i ≠ .clear) :
    (i, s.ctx.phase, u.ctx.phase) ∈ transitions := by
  rw [exec_eq] at hexec
  cases hexec
  exact (run_transition i s hok).resolve_left fun h => hclear h.1

/-- A call without CLEAR is one of the sequences its first phase allows. -/
theorem call_mem_tails {cs : List Instr} : ∀ {s t : State}, s.call cs t → .clear ∉ cs → cs ∈ s.ctx.phase.tails := by
  induction cs with
  | nil => exact fun h => h.elim
  | cons i rest ih =>
    intro s t hcall hclear
    rw [List.mem_cons, not_or] at hclear
    cases rest with
    | nil =>
      obtain ⟨hexec, hok, hidle⟩ := hcall
      exact tails_last _ (exec_transition hexec hok (Ne.symm hclear.1)) hidle
    | cons j rest =>
      obtain ⟨u, hexec, hok, hidle, hcall⟩ := hcall
      exact tails_cons _ (exec_transition hexec hok (Ne.symm hclear.1)) hidle _ (ih hcall hclear.2)

/-- A command that completes with OK was allowed in its phase. -/
theorem phaseAllows_of_exec_ok {i : Instr} {s u : State} (hexec : exec i s = .next u) (hok : u.err = .ok) :
    phaseAllows i s.ctx = true := by
  rw [exec_eq] at hexec
  cases hexec
  exact ((acceptance_ok_iff i s).1 (acceptance_of_run_ok hok)).2.1

theorem phase_of_exec_ok {i : Instr} {s u : State} {p : Phase} (hexec : exec i s = .next u) (hok : u.err = .ok)
    (hafter : phaseAfter i = some p) : u.ctx.phase = p := by
  rw [exec_eq] at hexec
  cases hexec
  exact Option.some.inj ((run_phase i s (acceptance_of_run_ok hok) hok).symm.trans hafter)

/-- In the short encode COUNT has seen no symbol. -/
theorem shortEncode_noneSeen {s u v : State} (hcount : exec .count s = .next u) (hok : u.err = .ok)
    (hwrhdr : exec .wrhdr u = .next v) (hok' : v.err = .ok) : u.ctx.noneSeen = true := by
  have hphase : u.ctx.phase = .counted := phase_of_exec_ok hcount hok rfl
  have hallowed := phaseAllows_of_exec_ok hwrhdr hok'
  simpa [phaseAllows, hphase] using hallowed

/-- From a state of the invariant, COUNT sees no symbol of an input below 2^32 bytes only when it is empty. -/
theorem count_noneSeen {s u : State} (hinv : s.Inv) (hphase : s.ctx.phase = .idle) (hcount : exec .count s = .next u)
    (hok : u.err = .ok) (hlen : s.io.is.bytes.length < 2 ^ 32) : u.ctx.noneSeen = true ↔ s.io.is.bytes = [] := by
  rw [exec_eq] at hcount
  cases hcount
  rw [run, count_accepted s (acceptance_of_run_ok hok), idle_ctx hinv hphase]
  exact counted_noneSeen_iff _ hlen

/-- In the short decode RDHDR has read the raw or the empty form. -/
theorem shortDecode_form {s u v : State} (hrdhdr : exec .rdhdr s = .next u) (hok : u.err = .ok)
    (hdecbits : exec .decbits u = .next v) (hok' : v.err = .ok) : u.ctx.disable = true ∨ u.ctx.empty = true := by
  have hphase : u.ctx.phase = .hdrRead := phase_of_exec_ok hrdhdr hok rfl
  have hallowed := phaseAllows_of_exec_ok hdecbits hok'
  simpa [phaseAllows, hphase] using hallowed

/-- Settles O12: the table of transitions leaves six sequences, and two of them need what their second command needs. -/
theorem legalCallSequences : Obligations.LegalCallSequences := by
  intro s t cs hphase hcall hclear
  have hmem := call_mem_tails hcall hclear
  simp only [hphase, Phase.tails, List.mem_cons, List.not_mem_nil, or_false] at hmem
  rcases hmem with rfl | rfl | rfl | rfl | rfl | rfl
  · exact .inl rfl
  · obtain ⟨u, hcount, hok, _, v, hwrhdr, hok', _⟩ := hcall
    have hnone := shortEncode_noneSeen hcount hok hwrhdr hok'
    exact .inr (.inl ⟨rfl, ⟨u, hcount, (noneSeen_iff _).1 hnone⟩, fun hinv hlen =>
      (count_noneSeen hinv hphase hcount hok hlen).1 hnone⟩)
  · exact .inr (.inr (.inl rfl))
  · obtain ⟨u, hrdhdr, hok, _, hdecbits, hok', _⟩ := hcall
    exact .inr (.inr (.inr (.inl ⟨rfl, u, hrdhdr, shortDecode_form hrdhdr hok hdecbits hok'⟩)))
  · exact .inr (.inr (.inr (.inr (.inl rfl))))
  · exact .inr (.inr (.inr (.inr (.inr rfl))))

end Sys2Proof.Machine

/-!
SUPPORT. Proofs of 47_sequencer.md about ENCODE and DECODE: each call is its unit commands one by one, both streams are
checked before any work, and no call leaves a trace in the context.
-/

namespace Sys2Proof.Machine

/-! ### ENCODE as its unit commands (R181) -/

/-- An accepted command that can raise nothing completes with OK. -/
theorem run_ok_of_accepted {i : Instr} {s : State} (haccept : acceptance i s = .ok) (hnever : ∀ e, ¬ mayRaise i e) :
    (run i s).err = .ok := (run_ends i s haccept).resolve_right fun h => hnever _ h.1

/-- In IDLE with an input attached, COUNT completes with OK at the end of the input. -/
theorem exec_count_of_idle {s : State} (hphase : s.ctx.phase = .idle) (hvalid : s.isValid = true) :
    exec .count s = .next (s.scanned (s.ctx.counted s.io.is.bytes)) := by
  rw [exec_eq, run, count_accepted s (count_acceptance hphase hvalid)]
  rfl

/-- Once COUNT has seen a symbol, the commands from BUILD to POLICY complete with OK one after the other. -/
theorem exec_build_to_policy {s : State} (hphase : s.ctx.phase = .counted) (hseen : ∃ b : Byte, symAt s.ctx.freq b ≠ 0) :
    ∃ built coded histed : State, exec .build s = .next built ∧ built.err = .ok ∧
      exec .gencode built = .next coded ∧ coded.err = .ok ∧ exec .hist coded = .next histed ∧ histed.err = .ok ∧
      exec .policy histed = .next { s with ctx := s.ctx.build.gencode.hist.policy, err := .ok } :=
  ⟨_, _, _, exec_build_of_seen hphase hseen, rfl, exec_gencode_of_built rfl, rfl, exec_hist_of_coded rfl, rfl,
    exec_policy_of_histed rfl⟩

/-- WRHDR is accepted where the commands up to POLICY, or COUNT alone, have led an encode. -/
theorem wrhdr_acceptance_of_prepared {s : State} (hos : s.osValid = true) :
    acceptance .wrhdr (s.scanned (s.ctx.prepared s.io.is.bytes)) = .ok :=
  (acceptance_ok_iff _ _).2 ⟨rfl, prepared_allows_wrhdr _ _, nofun, fun _ => hos⟩

/-- ENCBITS is accepted after that WRHDR. -/
theorem encbits_acceptance_of_prepared {s : State} (his : s.isValid = true) (hos : s.osValid = true) :
    acceptance .encbits (wrhdr (s.scanned (s.ctx.prepared s.io.is.bytes))) = .ok := by
  rw [wrhdr_accepted _ (wrhdr_acceptance_of_prepared hos)]
  exact encbits_acceptance rfl his hos

/-- ENCODE, accepted, is WRHDR and ENCBITS from the state its first commands lead to. -/
theorem encodeCall_eq_units {s : State} (hphase : s.ctx.phase = .idle) (his : s.isValid = true) (hos : s.osValid = true) :
    encodeCall s = encbits (wrhdr (s.scanned (s.ctx.prepared s.io.is.bytes))) := by
  have hcount : count s = s.scanned (s.ctx.counted s.io.is.bytes) := count_accepted s (count_acceptance hphase his)
  have hunits : encodeUnits s = ((s.scanned (s.ctx.prepared s.io.is.bytes)).andThen wrhdr).andThen encbits := by
    rw [← encode_prepares s, encodeUnits, hcount]
    rfl
  rw [encodeCall, issue_accepted (encode_acceptance hphase his hos), hunits, andThen_ok (f := wrhdr) rfl]
  exact andThen_ok (run_ok_of_accepted (i := .wrhdr) (wrhdr_acceptance_of_prepared hos) nofun)

/-- Settles O42: none of the unit commands can fail, so ENCODE runs each of them. -/
theorem encodeIsItsExpansion : Obligations.EncodeIsItsExpansion := by
  refine ⟨fun s hphase => exec_eSeq rfl (decide_eq_false hphase), fun s hphase hstream =>
    exec_eNull rfl (decide_eq_true hphase) (hstream.imp (⟨rfl, ·⟩) (⟨rfl, ·⟩)), fun s hphase his hos => ?_⟩
  refine ⟨_, s.scanned (s.ctx.prepared s.io.is.bytes), _, _, exec_count_of_idle hphase his, rfl, ?prepared,
    exec_eq .wrhdr _, run_ok_of_accepted (wrhdr_acceptance_of_prepared hos) nofun,
    exec_eq .encbits _, run_ok_of_accepted (encbits_acceptance_of_prepared his hos) nofun, ?call⟩
  case prepared =>
    cases hnone : (s.ctx.counted s.io.is.bytes).noneSeen with
    | true => exact .inl ⟨(noneSeen_iff _).1 hnone, by rw [Context.prepared, if_pos hnone]⟩
    | false =>
      have hseen := not_forall.1 ((noneSeen_false_iff _).1 hnone)
      rw [Context.prepared, hnone, if_neg Bool.false_ne_true]
      obtain ⟨built, coded, histed, hbuild, hbuilt, hgencode, hcoded, hhist, hhisted, hpolicy⟩ :=
        exec_build_to_policy (s := s.scanned (s.ctx.counted s.io.is.bytes)) rfl hseen
      exact .inr ⟨hseen, built, coded, histed, hbuild, hbuilt, hgencode, hcoded, hhist, hhisted, hpolicy, rfl⟩
  case call => exact (exec_eq .encode s).trans (congrArg _ (encodeCall_eq_units hphase his hos))

/-! ### DECODE as its unit commands (R182) -/

section decode

variable {s : State} (haccept : acceptance .decode s = .ok)

include haccept

theorem decodeCall_of_rdhdr_error (herr : (rdhdr s).err ≠ .ok) : decodeCall s = rdhdr s := by
  rw [decodeCall, issue_accepted haccept, decodeUnits, andThen_error herr]

theorem decodeCall_of_direct (hok : (rdhdr s).err = .ok)
    (hform : (rdhdr s).ctx.disable = true ∨ (rdhdr s).ctx.empty = true) : decodeCall s = decbits (rdhdr s) := by
  have hskip : (!(rdhdr s).ctx.disable && !(rdhdr s).ctx.empty) = false := by
    rcases hform with hf | hf <;> simp [hf]
  rw [decodeCall, issue_accepted haccept, decodeUnits, andThen_ok hok, hskip, if_neg Bool.false_ne_true, andThen_ok hok]

theorem decodeCall_of_full (hok : (rdhdr s).err = .ok) (hdisable : (rdhdr s).ctx.disable = false)
    (hempty : (rdhdr s).ctx.empty = false) : decodeCall s = (rebuild (rdhdr s)).andThen decbits := by
  rw [decodeCall, issue_accepted haccept, decodeUnits, andThen_ok hok, hdisable, hempty, if_pos (by decide)]

end decode

/-- Settles O43: DECODE's `andThen`s stop at the first error, and the form decides whether REBUILD runs. -/
theorem decodeIsItsExpansion : Obligations.DecodeIsItsExpansion := by
  refine ⟨fun s hphase => exec_eSeq rfl (decide_eq_false hphase), fun s hphase hstream =>
    exec_eNull rfl (decide_eq_true hphase) (hstream.imp (⟨rfl, ·⟩) (⟨rfl, ·⟩)), fun s hphase his hos => ?_⟩
  have haccept := decode_acceptance hphase his hos
  refine ⟨rdhdr s, decodeCall s, exec_eq .rdhdr s, exec_eq .decode s, decodeCall_of_rdhdr_error haccept,
    fun hok hform => ?direct, fun hok hdisable hempty => ⟨rebuild (rdhdr s), exec_eq .rebuild _, ?full⟩⟩
  case direct => rw [decodeCall_of_direct haccept hok hform, exec_eq, run]
  case full =>
    rw [decodeCall_of_full haccept hok hdisable hempty]
    refine ⟨andThen_error, fun hrebuilt => ?_⟩
    rw [andThen_ok hrebuilt, exec_eq, run]

/-! ### Both streams before any work (R186) -/

/-- Settles O45: the calls' own check fails at once, the hand-issued commands' only at WRHDR. -/
theorem bothStreamsFirst : Obligations.BothStreamsFirst := by
  intro s hinv hphase his hos hne hlen
  have hnull : ∀ i, isCommand i = true → phaseAllows i s.ctx = true → needsOS i = true →
      exec i s = .next { s with err := .eNull } := fun i hcommand hallowed hneeds =>
    exec_eNull hcommand hallowed (.inr ⟨hneeds, hos⟩)
  have hseen : ∃ b : Byte, symAt (s.ctx.counted s.io.is.bytes).freq b ≠ 0 := by
    rw [idle_ctx hinv hphase]
    exact exists_counted_freq_ne_zero hne hlen
  obtain ⟨built, coded, histed, hbuild, hbuilt, hgencode, hcoded, hhist, hhisted, hpolicy⟩ :=
    exec_build_to_policy (s := s.scanned (s.ctx.counted s.io.is.bytes)) rfl hseen
  exact ⟨hnull .encode rfl (decide_eq_true hphase) rfl, hnull .decode rfl (decide_eq_true hphase) rfl,
    _, built, coded, histed, _, exec_count_of_idle hphase his, rfl, hbuild, hbuilt, hgencode, hcoded, hhist, hhisted,
    hpolicy, rfl, exec_eNull rfl rfl (.inr ⟨rfl, hos⟩)⟩

/-! ### A call leaves no trace in the context (R188) -/

/-- ENCODE and DECODE, issued in IDLE, leave the clean context, whether they complete, raise or are rejected. -/
theorem call_ctx_clean {i : Instr} {s : State} (hi : i = .encode ∨ i = .decode) (hinv : s.Inv)
    (hphase : s.ctx.phase = .idle) : (run i s).ctx = Context.clean := by
  by_cases haccept : acceptance i s = .ok
  · rcases hi with rfl | rfl
    · rw [run, encodeCall_accepted s haccept]
    · exact decodeCall_ctx s haccept
  · rw [run_rejected i s haccept, reject_ctx]
    exact idle_ctx hinv hphase

/-- Settles O49: the next call starts from the clean context, as after reset, and reads nothing else that differs. -/
theorem reusedContextIsFresh : Obligations.ReusedContextIsFresh := by
  intro i j s t is os hi _ hinv hphase hexec
  rw [exec_eq] at hexec
  cases hexec
  obtain ⟨v, w, _, hv, hw, hctx, herr, his, hos, _⟩ := nothingReadsErrOrProg j
    { run i s with io := { (run i s).io with is := is, os := os }, isValid := true, osValid := true }
    { State.reset with io := { is := is, os := os, prog := [] }, isValid := true, osValid := true }
    (call_ctx_clean hi hinv hphase) rfl rfl rfl rfl
  exact ⟨v, w, hv, hw, hctx, herr, his, hos⟩

end Sys2Proof.Machine

/-!
SUPPORT. Proofs of 40_frequency_counter.md to 43_histogram_and_policy.md and of 10_state.md R34: the totals of COUNT, the
encoder's tree, the canonical codes, the policy's guarantee, and the bounds of every state of the invariant.
-/

namespace Sys2Proof.Machine

/-! ### The totals of COUNT (R92, R93) -/

/-- The symbols with a nonzero count are as many as the input has distinct bytes. -/
theorem seen_length_eq_dedup {bs : List Byte} (hlen : bs.length < 2 ^ 32) :
    (allSymbols.filter fun b => symAt (Context.clean.counted bs).freq b != 0).length = bs.dedup.length := by
  refine List.Perm.length_eq ((List.perm_ext_iff_of_nodup (allSymbols_nodup.filter _) bs.nodup_dedup).2 fun b => ?_)
  rw [List.mem_filter, List.mem_dedup, bne_iff_ne, ne_eq, counted_freq_zero_iff bs hlen, not_not]
  exact and_iff_right (mem_allSymbols b)

/-- Settles O21: in IDLE the context is clean, so that each count is the byte's number of occurrences and none wraps. -/
theorem countTotals : Obligations.CountTotals := by
  intro s hinv hphase hvalid hlen
  refine ⟨_, exec_count_of_idle hphase hvalid, ?_⟩
  rw [State.scanned, idle_ctx hinv hphase]
  have hfreq := clean_counted_freq s.io.is.bytes hlen
  have hclen := clean_counted_clen s.io.is.bytes hlen
  refine ⟨?sum, hclen, hfreq, seen_length_eq_dedup hlen, noneSeen_iff _, counted_noneSeen_iff _ hlen⟩
  case sum => rw [List.map_congr_left fun b _ => hfreq b, sum_counts, hclen]

/-! ### The encoder's tree (R17, R34) -/

/-- A leaf of a full tree lies less deep than the tree has leaves. -/
theorem follow_leaf_depth {t : Node} (hfull : t.full = true) {path : BitString} {i : BitVec 9} {b : Byte} {f : Word32}
    (hleaf : t.follow path = .leaf i b f) : path.length + 1 ≤ t.leaves.length := by
  have hmem : (b, path.length) ∈ leafDepths t 0 := (mem_leafDepths t 0 b _).2 ⟨path, i, f, hleaf, (Nat.zero_add _).symm⟩
  simpa using (leafDepths_bound t 0 hfull _ hmem).2

/-- Settles O53: from BUILD to POLICY the context holds the tree BUILD makes of its counts. -/
theorem encoderTree : Obligations.EncoderTree := by
  intro s hinv hphase
  have htree := encoder_hasTree hinv hphase
  obtain ⟨hfull, hsums, hleaves, _, _, _⟩ := buildTree_spec s.ctx.freq htree.ne
  have hroom : (buildTree s.ctx.freq).1.leaves.length ≤ 256 := hleaves.length_eq ▸ seenSymbols_length_le s.ctx.freq
  rw [htree.root]
  refine ⟨hfull, hsums, build_leaves_nodup _ htree.ne, hroom, fun p => ?_, fun path i b f hleaf => ?_⟩
  · rw [hleaves.mem_iff, mem_seenSymbols]
  · have := follow_leaf_depth hfull hleaf
    omega

/-! ### The canonical codes (R120) -/

/-- A record that comes earlier in canonical order has the smaller code value, scaled to the later one's length. -/
theorem recordValue_lt {rs : List SymLen} (h : canonicalOrder rs) {i j : Nat} {a b : SymLen} (hi : rs[i]? = some a)
    (hj : rs[j]? = some b) (hab : a.len.toNat < b.len.toNat ∨ (a.len.toNat = b.len.toNat ∧ a.sym.toNat < b.sym.toNat)) :
    recordValue rs i * 2 ^ (b.len.toNat - a.len.toNat) < recordValue rs j := by
  rw [recordValue_of_getElem? hi, recordValue_of_getElem? hj]
  refine lt_of_lt_of_le ?_ (canonicalValue_step rs (canonical_ascends h) i j (canonical_lt h hi hj hab) a b hi hj).2
  exact Nat.mul_lt_mul_of_pos_right (Nat.lt_succ_self _) (Nat.two_pow_pos _)

/-- In CODED the records are the canonical ones of the counts, and each has its canonical code. -/
theorem coded_spec {s : State} (hinv : s.Inv) (hphase : s.ctx.phase = .coded) :
    ∃ root freq, SymlenSpec root s.ctx.symlen ∧ Coded freq s.ctx.symlen ∧ s.ctx.nsym.toNat = s.ctx.symlen.length ∧
      ∀ i r, s.ctx.symlen[i]? = some r → symAt s.ctx.code r.sym = canonicalCode s.ctx.symlen i := by
  obtain ⟨hctx, hnone⟩ := coded_ctx hinv hphase
  have hseen := counted_seen _ hnone
  have hcoded := build_coded _ hseen
  rw [hctx, gencode_symlen, gencode_nsym, gencode_code]
  refine ⟨_, _, build_symlen _ hseen, hcoded, ?count, assignCodes_record _ _ (canonical_ascends hcoded.canonical)
    hcoded.distinct⟩
  case count =>
    have := hcoded.room.2
    rw [BitVec.toNat_ofNat, Nat.mod_eq_of_lt (by omega)]

/-- The codes of two symbols are no prefixes of each other. -/
theorem codes_prefix_free {root : Node} {rs : List SymLen} (h : SymlenSpec root rs) {code : SymbolTable BitString}
    (hcode : ∀ i r, rs[i]? = some r → symAt code r.sym = canonicalCode rs i) {a b : SymLen} (ha : a ∈ rs) (hb : b ∈ rs)
    (hne : a.sym ≠ b.sym) : ¬ symAt code a.sym <+: symAt code b.sym := by
  obtain ⟨i, hi⟩ := List.getElem?_of_mem ha
  obtain ⟨j, hj⟩ := List.getElem?_of_mem hb
  have hij : i ≠ j := by
    rintro rfl
    exact hne (congrArg SymLen.sym (Option.some.inj (hi.symm.trans hj)))
  rw [hcode i a hi, hcode j b hj]
  exact canonicalCode_prefix_free rs (canonical_ascends h.canonical) h.kraft i j (List.getElem?_eq_some_iff.1 hi).1
    (List.getElem?_eq_some_iff.1 hj).1 hij

/-- REBUILD of the encoder's records, none longer than 16, succeeds and puts each symbol where its code leads. -/
theorem exec_rebuild_of_coded {d : State} {freq : SymbolTable Word32} (hcoded : Coded freq d.ctx.symlen)
    (hlens : ∀ r ∈ d.ctx.symlen, r.len.toNat ≤ 16) (hcount : d.ctx.nsym.toNat = d.ctx.symlen.length)
    (hphase : d.ctx.phase = .hdrRead) (hdisable : d.ctx.disable = false) (hempty : d.ctx.empty = false) :
    ∃ t, exec .rebuild d = .next t ∧ t.err = .ok ∧
      ∀ i r, d.ctx.symlen[i]? = some r → t.ctx.root.hasPath (canonicalCode d.ctx.symlen i) r.sym := by
  have hdec : d.ctx.decodable :=
    ⟨hcount, hcoded.room.2, canonical_ascends hcoded.canonical, fun r hr => ⟨hcoded.lenPos r hr, hlens r hr⟩⟩
  obtain ⟨tree, n, hrebuild, hpaths⟩ := rebuildTree_paths hdec (hcoded.space hlens)
  refine ⟨d.treeBuilt tree n, ?_, rfl, fun i r hi => (hpaths i r hi).2⟩
  rw [exec_eq, run, rebuild_accepted d (rebuild_acceptance hphase hdisable hempty) hrebuild, State.treeBuilt]

/-- Settles O26: the values are those of the canonical codes, whose laws give the bounds, the order and the paths. -/
theorem canonicalCodes : Obligations.CanonicalCodes := by
  intro s hinv hphase
  obtain ⟨root, freq, hspec, hcoded, hcount, hcode⟩ := coded_spec hinv hphase
  have hasc := canonical_ascends hspec.canonical
  refine ⟨recordValue s.ctx.symlen, fun i r hi => ⟨?_, ?_, recordValue_of_getElem? hi⟩, fun i j a b hi hj => ⟨?_, ?_⟩,
    fun a ha b hb => codes_prefix_free hspec hcode ha hb, fun hlens d hdphase hdisable hempty hsymlen hnsym => ?_⟩
  · rw [hcode i r hi, canonicalCode_eq_bin hi]
  · rw [recordValue_of_getElem? hi]
    exact canonicalValue_fits _ hasc hspec.kraft i r hi
  · intro hlen hsym
    have hlt := recordValue_lt hspec.canonical hi hj (.inr ⟨congrArg BitVec.toNat hlen, hsym⟩)
    rwa [hlen, Nat.sub_self, pow_zero, Nat.mul_one] at hlt
  · exact fun hlen => recordValue_lt hspec.canonical hi hj (.inl hlen)
  · obtain ⟨t, hexec, hok, hpaths⟩ := exec_rebuild_of_coded (d := d) (hsymlen ▸ hcoded) (hsymlen ▸ hlens)
      (by rw [hsymlen, hnsym, hcount]) hdphase hdisable hempty
    rw [hsymlen] at hpaths
    refine ⟨t, hexec, hok, fun r hr => ?_⟩
    obtain ⟨i, hi⟩ := List.getElem?_of_mem hr
    rw [hcode i r hi]
    exact hpaths i r hi

/-! ### What POLICY guarantees (R127, R128) -/

/-- In POLICED the context is what the commands from BUILD on make of the counts of the input. -/
theorem policed_of_phase {s : State} (hinv : s.Inv) (hphase : s.ctx.phase = .policed) :
    ∃ freq, seenSymbols freq ≠ [] ∧ Policed s.ctx freq := by
  obtain ⟨hctx, hnone⟩ := policed_ctx hinv hphase
  rw [hctx]
  exact ⟨_, counted_seen _ hnone, policed_spec _ (counted_seen _ hnone)⟩

/-- MAXLEN is at most 16 when every record's length is. -/
theorem Policed.maxlen_le {c : Context} {freq : SymbolTable Word32} (h : Policed c freq)
    (hlens : ∀ r ∈ c.symlen, r.len.toNat ≤ 16) : c.maxlen.toNat ≤ 16 := by
  rw [h.maxlen]
  rcases (histogram_maxlen c.symlen).2 with hzero | ⟨r, hr, hmax⟩
  · rw [hzero]
    exact Nat.zero_le 16
  · rw [hmax]
    exact hlens r hr

/-- Settles O29: with DISABLE = 0 every length lies in 1 to 16, so the histogram has counted every record. -/
theorem policyGuarantee : Obligations.PolicyGuarantee := by
  intro s hinv hphase hdisable
  obtain ⟨freq, _, hpoliced⟩ := policed_of_phase hinv hphase
  obtain ⟨hlens, hcounts⟩ := hpoliced.enabled hdisable
  have hrange : ∀ r ∈ s.ctx.symlen, 1 ≤ r.len.toNat ∧ r.len.toNat ≤ 16 := fun r hr =>
    ⟨hpoliced.coded.lenPos r hr, hlens r hr⟩
  refine ⟨hpoliced.maxlen_le hlens, hrange, ?sum, fun L hpos hle => ?count⟩
  case sum =>
    rw [hpoliced.nsym, ← countLength_sum s.ctx.symlen hrange, bucketLengths, List.map_map]
    refine congrArg List.sum (List.map_congr_left fun k hk => ?_)
    have := List.mem_range.1 hk
    exact (hcounts (k + 1) (by omega) (by omega)).1
  case count =>
    obtain ⟨heq, hle⟩ := hcounts L hpos hle
    exact ⟨heq, heq ▸ hle⟩

/-- Along the records lengths do not decrease. -/
theorem lengthsAscend.le_of_le {rs : List SymLen} (h : lengthsAscend rs) {i j : Nat} {a b : SymLen}
    (hi : rs[i]? = some a) (hj : rs[j]? = some b) (hij : i ≤ j) : a.len.toNat ≤ b.len.toNat := by
  obtain ⟨hilt, rfl⟩ := List.getElem?_eq_some_iff.1 hi
  obtain ⟨hjlt, rfl⟩ := List.getElem?_eq_some_iff.1 hj
  rcases hij.eq_or_lt with rfl | hlt
  · exact le_rfl
  · exact List.pairwise_iff_getElem.1 h i j hilt hjlt hlt

/-- When the first and the last of 256 sorted records have one length, all have. -/
theorem lengthsAscend.all_eq {rs : List SymLen} (h : lengthsAscend rs) {a b : SymLen} (hlen : rs.length = 256)
    (hfirst : rs[0]? = some a) (hlast : rs[255]? = some b) (hab : a.len = b.len) :
    ∀ r ∈ rs, r.len.toNat = a.len.toNat := by
  intro r hr
  obtain ⟨i, hi⟩ := List.getElem?_of_mem hr
  have hlt := (List.getElem?_eq_some_iff.1 hi).1
  have hlow := h.le_of_le hfirst hi (Nat.zero_le i)
  have hhigh := h.le_of_le hi hlast (by omega)
  rw [← hab] at hhigh
  omega

/-- The leaves of a full tree, all at depth `L`, are `2 ^ L`. -/
theorem leaves_length_of_depth {t : Node} (hfull : t.full = true) {L : Nat} (hdepth : ∀ p ∈ leafDepths t 0, p.2 = L) :
    t.leaves.length = 2 ^ L := by
  have hkraft := leafDepths_kraft t 0 L hfull fun p hp => (hdepth p hp).le
  have hones : ((leafDepths t 0).map fun p => 2 ^ (L - p.2)) = (leafDepths t 0).map fun _ => 1 :=
    List.map_congr_left fun p hp => by rw [hdepth p hp, Nat.sub_self, pow_zero]
  rw [hones] at hkraft
  simpa [leafDepths_length] using hkraft

/-- 256 records of one length have length 8. -/
theorem SymlenSpec.eight_of_all_eq {t : Node} {rs : List SymLen} (h : SymlenSpec t rs) (hfull : t.full = true)
    (hlen : rs.length = 256) {L : Nat} (hall : ∀ r ∈ rs, r.len.toNat = L) : L = 8 := by
  have hleaves : t.leaves.length = 256 := h.length_eq.symm.trans hlen
  obtain ⟨hperm, hfits⟩ := h.many (by omega)
  have hdepth : ∀ p ∈ leafDepths t 0, p.2 = L := fun p hp => by
    rw [← hfits p hp]
    exact hall _ (hperm.mem_iff.2 (List.mem_map_of_mem hp))
  have hpow : 2 ^ L = 2 ^ 8 := (leaves_length_of_depth hfull hdepth).symm.trans hleaves
  exact Nat.pow_right_injective le_rfl hpow

/-- LCNT[8] = 256 says that all 256 records have length 8. -/
theorem Policed.lcnt_eight_iff {c : Context} {freq : SymbolTable Word32} (h : Policed c freq) :
    (lenAt c.lcnt 8).toNat = 256 ↔ countLength c.symlen 8 = 256 := by
  have hle := (countLength_le c.symlen 8).trans h.coded.room.2
  rw [h.lcnt, histogram_lcnt _ 8 ⟨by decide, by decide⟩, BitVec.toNat_ofNat, Nat.mod_eq_of_lt (by omega)]

/-- Settles O30: the tree is full, so 256 leaves at one depth lie at depth 8; and a count of 256 is all the records. -/
theorem equalLengthsAreEight : Obligations.EqualLengthsAreEight := by
  intro s hinv hphase
  obtain ⟨freq, hseen, hpoliced⟩ := policed_of_phase hinv hphase
  obtain ⟨hfull, _⟩ := buildTree_spec freq hseen
  rw [hpoliced.lcnt_eight_iff, hpoliced.nsym]
  constructor
  · rintro ⟨hlen, hends⟩
    have hfirst : s.ctx.symlen[0]? = some s.ctx.symlen[0] := List.getElem?_eq_getElem (by omega)
    have hlast : s.ctx.symlen[255]? = some s.ctx.symlen[255] := List.getElem?_eq_getElem (by omega)
    rw [hfirst, hlast] at hends
    have hall := (canonical_ascends hpoliced.coded.canonical).all_eq hlen hfirst hlast (Option.some.inj hends)
    have height := hpoliced.spec.eight_of_all_eq hfull hlen hall
    rw [countLength, ← hlen, List.countP_eq_length]
    exact fun r hr => decide_eq_true ((hall r hr).trans height)
  · intro hcount
    obtain ⟨hlen, hall⟩ := countLength_256 _ hpoliced.coded.room.2 8 hcount.ge
    have hlast : s.ctx.symlen[255]? = some s.ctx.symlen[255] := List.getElem?_eq_getElem (by omega)
    have hfirst : s.ctx.symlen[0]? = some s.ctx.symlen[0] := List.getElem?_eq_getElem (by omega)
    refine ⟨hlen, ?_⟩
    rw [hfirst, hlast]
    exact congrArg some (BitVec.eq_of_toNat_eq
      ((hall _ (List.getElem_mem _)).trans (hall _ (List.getElem_mem _)).symm))

end Sys2Proof.Machine

/-!
SUPPORT. Proofs of 10_state.md R34, 45_bit_encoder.md and 30_encoding.md R83: the bounds of every state of the invariant,
the whole bytes of the content, and the stream ENCODE writes, field by field.
-/

namespace Sys2Proof.Machine

/-! ### The bounds of every state (R34) -/

/-- NSYM counts the records, of which there is room for 256, and NODE_CNT the nodes. -/
structure Context.Bounded (c : Context) : Prop where
  nsym : c.nsym.toNat = c.symlen.length
  room : c.symlen.length ≤ 256
  nodeCnt : c.nodeCnt.toNat = c.root.indices.length

theorem clean_bounded : Context.clean.Bounded := ⟨rfl, Nat.zero_le 256, rfl⟩

theorem Context.Bounded.counted {c : Context} (h : c.Bounded) (bs : List Byte) : (c.counted bs).Bounded := by
  rw [counted_others]
  exact ⟨h.nsym, h.room, h.nodeCnt⟩

theorem Context.Bounded.build {c : Context} (h : c.Bounded) (hseen : seenSymbols c.freq ≠ []) : c.build.Bounded :=
  ⟨h.nsym, h.room, hasTree_count (hasTree_build c hseen)⟩

theorem Context.HasTree.bounded_gencode {c : Context} (h : c.HasTree) : c.gencode.Bounded := by
  have hroom := (build_coded c.freq h.ne).room.2
  rw [← h.root] at hroom
  refine ⟨?_, hroom, hasTree_count (hasTree_gencode h)⟩
  rw [ctx_gencode_nsym, ctx_gencode_symlen, BitVec.toNat_ofNat, Nat.mod_eq_of_lt (by omega)]

theorem Context.Bounded.hist {c : Context} (h : c.Bounded) : c.hist.Bounded := ⟨h.nsym, h.room, h.nodeCnt⟩

theorem Context.Bounded.policy {c : Context} (h : c.Bounded) : c.policy.Bounded := ⟨h.nsym, h.room, h.nodeCnt⟩

theorem Context.Bounded.headed {c : Context} (h : c.Bounded) : c.headed.Bounded := ⟨h.nsym, h.room, h.nodeCnt⟩

/-- The commands from BUILD to POLICY keep the bounds, whatever was counted. -/
theorem chain_bounded {c : Context} (hseen : seenSymbols c.freq ≠ []) : c.build.gencode.hist.policy.Bounded :=
  (hasTree_build c hseen).bounded_gencode.hist.policy

theorem loadHeader_bounded {h : Header} (hchecked : h.checked) : (Context.clean.loadHeader h).Bounded := by
  have hdec := checked_decodable hchecked
  refine ⟨hdec.count, hdec.room, ?_⟩
  cases h <;> rfl

theorem rebuilt_bounded {c : Context} (hdec : c.decodable) {n : Nat} (hrebuild : rebuildTree c = some (c.root, n))
    (hcount : c.nodeCnt = BitVec.ofNat 9 n) : c.Bounded := by
  refine ⟨hdec.count, hdec.room, ?_⟩
  rcases rebuildTree_spec c hdec with ⟨hnone, _⟩ | ⟨t, m, hsome, hplaced, hle, _⟩
  · rw [hnone] at hrebuild
    cases hrebuild
  · cases hsome.symm.trans hrebuild
    rw [hcount, hplaced.indices.length_eq, List.length_map, List.length_range, BitVec.toNat_ofNat,
      Nat.mod_eq_of_lt (by omega)]

/-- What WRHDR finds is what COUNT left, or what the commands from BUILD to POLICY made of it. -/
theorem prepared_cases (c : Context) (bs : List Byte) : c.prepared bs = c.counted bs ∨
    (seenSymbols (c.counted bs).freq ≠ [] ∧ c.prepared bs = (c.counted bs).build.gencode.hist.policy) := by
  cases hnone : (c.counted bs).noneSeen with
  | true => exact .inl (by rw [Context.prepared, if_pos hnone])
  | false => exact .inr ⟨seenSymbols_ne_nil _ hnone, by rw [Context.prepared, hnone, if_neg Bool.false_ne_true]⟩

theorem inv_bounded {s : State} (hinv : s.Inv) : s.ctx.Bounded := by
  have hcounted := clean_bounded.counted s.io.is.bytes
  cases hphase : s.ctx.phase with
  | idle =>
    rw [idle_ctx hinv hphase]
    exact clean_bounded
  | counted =>
    rw [counted_ctx hinv hphase]
    exact hcounted
  | built =>
    obtain ⟨hctx, hnone⟩ := built_ctx hinv hphase
    rw [hctx]
    exact hcounted.build (counted_seen _ hnone)
  | coded =>
    obtain ⟨hctx, hnone⟩ := coded_ctx hinv hphase
    rw [hctx]
    exact (hasTree_build _ (counted_seen _ hnone)).bounded_gencode
  | histed =>
    obtain ⟨hctx, hnone⟩ := histed_ctx hinv hphase
    rw [hctx]
    exact (hasTree_build _ (counted_seen _ hnone)).bounded_gencode.hist
  | policed =>
    obtain ⟨hctx, hnone⟩ := policed_ctx hinv hphase
    rw [hctx]
    exact chain_bounded (counted_seen _ hnone)
  | hdrWritten =>
    rw [hdrWritten_ctx hinv hphase]
    rcases prepared_cases Context.clean s.io.is.bytes with heq | ⟨hseen, heq⟩
    · rw [heq]
      exact hcounted.headed
    · rw [heq]
      exact (chain_bounded hseen).headed
  | hdrRead =>
    have hconsistent := hinv.consistent
    simp only [Context.consistent, hphase] at hconsistent
    obtain ⟨h, hchecked, hctx⟩ := hconsistent
    rw [hctx]
    exact loadHeader_bounded hchecked
  | rebuilt =>
    obtain ⟨_, _, hdec, n, hrebuild, hcount⟩ := rebuilt_ctx hinv hphase
    exact rebuilt_bounded hdec hrebuild hcount

/-- PAD as GENCODE leaves it. -/
theorem gencode_pad_le (c : Context) : c.gencode.pad.toNat ≤ 7 := (paddingOf_spec _ _).1

theorem chain_pad_le (c : Context) : c.gencode.hist.policy.pad.toNat ≤ 7 := by
  rw [ctx_policy_pad, ctx_hist_pad]
  exact gencode_pad_le c

theorem headed_pad (c : Context) : c.headed.pad = c.pad := rfl

/-- PAD is 0 to 7 from GENCODE on, also in an encode that has skipped GENCODE. -/
theorem encoder_pad_le {s : State} (hinv : s.Inv)
    (hphase : s.ctx.phase = .coded ∨ s.ctx.phase = .histed ∨ s.ctx.phase = .policed ∨ s.ctx.phase = .hdrWritten) :
    s.ctx.pad.toNat ≤ 7 := by
  rcases hphase with hphase | hphase | hphase | hphase
  · rw [(coded_ctx hinv hphase).1]
    exact gencode_pad_le _
  · rw [(histed_ctx hinv hphase).1, ctx_hist_pad]
    exact gencode_pad_le _
  · rw [(policed_ctx hinv hphase).1]
    exact chain_pad_le _
  · rw [hdrWritten_ctx hinv hphase, headed_pad]
    rcases prepared_cases Context.clean s.io.is.bytes with heq | ⟨_, heq⟩
    · rw [heq, counted_others]
      exact Nat.zero_le 7
    · rw [heq]
      exact chain_pad_le _

/-- What the header of the full form has room for. -/
def Context.fitsHeader (c : Context) : Prop :=
  c.maxlen.toNat ≤ 16 ∧ ∀ L, 1 ≤ L → L ≤ 16 → (lenAt c.lcnt L).toNat ≤ 255

theorem Policed.fitsHeader {c : Context} {freq : SymbolTable Word32} (h : Policed c freq) (hdisable : c.disable = false) :
    c.fitsHeader := by
  obtain ⟨hlens, hcounts⟩ := h.enabled hdisable
  refine ⟨h.maxlen_le hlens, fun L hpos hle => ?_⟩
  obtain ⟨heq, hle⟩ := hcounts L hpos hle
  exact heq ▸ hle

theorem clean_fitsHeader : Context.clean.fitsHeader := by
  refine ⟨Nat.zero_le 16, fun L hpos hle => ?_⟩
  have hzero : lenAt Context.clean.lcnt L = 0 := lenAt_replicate 0 L ⟨hpos, hle⟩
  rw [hzero]
  exact Nat.zero_le 255

theorem counted_fitsHeader {c : Context} (h : c.fitsHeader) (bs : List Byte) : (c.counted bs).fitsHeader := by
  rw [counted_others]
  exact h

theorem headed_fitsHeader {c : Context} (h : c.fitsHeader) : c.headed.fitsHeader := h

theorem headed_disable (c : Context) : c.headed.disable = c.disable := rfl

/-- From POLICY on, a context that is not disabled fits the header. -/
theorem encoder_fitsHeader {s : State} (hinv : s.Inv) (hphase : s.ctx.phase = .policed ∨ s.ctx.phase = .hdrWritten)
    (hdisable : s.ctx.disable = false) : s.ctx.fitsHeader := by
  rcases hphase with hphase | hphase
  · obtain ⟨freq, _, hpoliced⟩ := policed_of_phase hinv hphase
    exact hpoliced.fitsHeader hdisable
  · rw [hdrWritten_ctx hinv hphase] at hdisable ⊢
    rw [headed_disable] at hdisable
    refine headed_fitsHeader ?_
    rcases prepared_cases Context.clean s.io.is.bytes with heq | ⟨hseen, heq⟩
    · rw [heq]
      exact counted_fitsHeader clean_fitsHeader _
    · rw [heq] at hdisable ⊢
      exact (policed_spec _ hseen).fitsHeader hdisable

/-- Settles O52: the invariant gives the context of each phase, and each command keeps the bounds. -/
theorem stateBounds : Obligations.StateBounds := by
  intro s hinv
  obtain ⟨hnsym, hroom, hnodes⟩ := inv_bounded hinv
  have hcapacity := s.ctx.nodeCnt.isLt
  exact ⟨hnsym ▸ hroom, hnsym, by omega, hnodes, encoder_pad_le hinv, encoder_fitsHeader hinv⟩

/-! ### The content of an encode is whole bytes (R154, R229) -/

/-- Settles O33: the content is whole bytes, which an aligned output takes as they are. -/
theorem contentEndsOnByte : Obligations.ContentEndsOnByte := by
  intro s hinv hphase his hos hlen hnacc
  have hwhole : (s.ctx.content s.io.is.bytes).length % 8 = 0 := by
    rw [hdrWritten_ctx hinv hphase]
    exact content_whole _ hlen
  obtain ⟨out, hout⟩ := exists_bytes _ hwhole
  refine ⟨run .encbits s, out, exec_eq _ s, hout.symm, ?_⟩
  have haligned : (s.io.os.nacc.val + (s.ctx.content s.io.is.bytes).length) % 8 = 0 := by
    rw [hnacc]
    simpa using hwhole
  rw [run, encbits_accepted s (encbits_acceptance hphase his hos)]
  calc (encodedStreams s.ctx s.io).os
      = s.io.os.wrBits (s.ctx.content s.io.is.bytes) := encoded_bits_aligned s.ctx s.io haligned
    _ = s.io.os.wrBytes out := by rw [hout, wrBytes_eq_wrBits]
    _ = { s.io.os with bytes := s.io.os.bytes ++ out } := wrBytes_aligned _ _ hnacc hinv.accumulator

/-! ### The stream ENCODE writes (R83) -/

/-- The bytes of an encode, by form: the empty form, the raw form, or the full form. -/
theorem encoded_forms {bs out : List Byte} (hlen : bs.length < 2 ^ 32) (hout : bytesBits out = encodedBits bs) :
    (bs = [] ∧ out = emptyForm) ∨
    (bs ≠ [] ∧ (Context.clean.prepared bs).disable = true ∧ out = rawHeader (Context.clean.prepared bs) ++ bs) ∨
    (bs ≠ [] ∧ (Context.clean.prepared bs).disable = false ∧ ∃ content,
      out = huffmanHeader (Context.clean.prepared bs) ++ content ∧
      bytesBits content = List.replicate (Context.clean.prepared bs).pad.toNat false ++
        bs.flatMap (symAt (Context.clean.prepared bs).code)) := by
  by_cases hne : bs = []
  · subst hne
    exact .inl ⟨rfl, bytesBits_injective (hout.trans encodedBits_nil)⟩
  have hprep := prepared_spec bs hlen hne
  cases hdisable : (Context.clean.prepared bs).disable with
  | true =>
    refine .inr (.inl ⟨hne, rfl, bytesBits_injective ?_⟩)
    rw [hout, encodedBits_raw hprep hdisable, bytesBits_append]
  | false =>
    obtain ⟨content, hcontent⟩ := exists_bytes (List.replicate (Context.clean.prepared bs).pad.toNat false ++
      bs.flatMap (symAt (Context.clean.prepared bs).code))
        (by rw [List.length_append, List.length_replicate]; exact hprep.pad.2)
    refine .inr (.inr ⟨hne, rfl, content, bytesBits_injective ?_, hcontent.symm⟩)
    rw [hout, encodedBits_huffman hprep hdisable, bytesBits_append, hcontent]

/-- Of a nonempty input, WRHDR finds what the commands from BUILD to POLICY made. -/
theorem prepared_eq_policed {bs : List Byte} (hlen : bs.length < 2 ^ 32) (hne : bs ≠ []) :
    Context.clean.prepared bs = Context.ofInput .policed bs := by
  rw [Context.prepared, if_neg fun hnone => hne ((counted_noneSeen_iff bs hlen).1 hnone)]
  rfl

/-- No record is longer than MAXLEN. -/
theorem prepared_len_le_maxlen (c : Context) (bs : List Byte) (h : (c.prepared bs).phase = .policed) :
    ∀ r ∈ (c.prepared bs).symlen, r.len.toNat ≤ (c.prepared bs).maxlen.toNat := by
  rcases prepared_cases c bs with heq | ⟨hseen, heq⟩
  · rw [heq] at h
    cases h
  · rw [heq, (policed_spec _ hseen).maxlen]
    exact (histogram_maxlen _).1

section prepared

variable {bs : List Byte} {p : Context} (h : Prepared bs p)

include h

theorem Prepared.clen_eq : p.clen = BitVec.ofNat 32 bs.length := by
  rw [← h.clen, BitVec.ofNat_toNat, BitVec.setWidth_eq]

theorem Prepared.records_eq : p.records = p.symlen := by rw [Context.records, h.nsym, List.take_length]

/-- The full header, in the parts of R75. -/
theorem Prepared.header_eq : huffmanHeader p =
    [0x48, BitVec.ofNat 8 ((23 + (p.symlen.map SymLen.sym).length) / 256),
      BitVec.ofNat 8 (23 + (p.symlen.map SymLen.sym).length)] ++
    u32Bytes (BitVec.ofNat 32 bs.length) ++ countBytes p.lcnt ++ p.symlen.map SymLen.sym ++ [p.pad] := by
  obtain ⟨hhigh, hlow⟩ := headerLength_halves p
  rw [huffmanHeader, hhigh, hlow, h.clen_eq, h.records_eq, h.nsym, List.length_map]
  rfl

/-- The counts sort the symbols back into the records. -/
theorem Prepared.buckets (hdisable : p.disable = false) :
    bucketRecords 1 (countBytes p.lcnt) (p.symlen.map SymLen.sym) = p.symlen ∧
      countSum (countBytes p.lcnt) = p.symlen.length := by
  obtain ⟨hlens, hcounts⟩ := h.enabled hdisable
  refine bucketRecords_back _ 1 _ (canonical_ascends h.coded.canonical) (fun r hr => ?_) fun j hj => ?_
  · have := hlens r hr
    rw [countBytes_length]
    omega
  · rw [countBytes_length] at hj
    obtain ⟨heq, hle⟩ := hcounts (j + 1) (by omega) (by omega)
    rw [countBytes_getD _ _ hj, BitVec.extractLsb'_toNat, heq, Nat.shiftRight_zero, Nat.add_comm 1 j,
      Nat.mod_eq_of_lt (by omega)]

/-- No record is longer than `m`, so the counts above `m` are 0. -/
theorem Prepared.count_above (hdisable : p.disable = false) {m k : Nat} (hm : ∀ r ∈ p.symlen, r.len.toNat ≤ m)
    (hk : k < 16) (hmk : m < k + 1) : (countBytes p.lcnt).getD k 0 = 0 := by
  have hzero : countLength p.symlen (k + 1) = 0 := countLength_zero fun r hr => by
    have := hm r hr
    omega
  have hlcnt : lenAt p.lcnt (k + 1) = 0 := BitVec.eq_of_toNat_eq
    (((h.enabled hdisable).2 (k + 1) (by omega) (by omega)).1.trans hzero)
  rw [countBytes_getD _ _ hk, hlcnt]
  rfl

theorem Prepared.mem_syms (hlen : bs.length < 2 ^ 32) (b : Byte) : b ∈ p.symlen.map SymLen.sym ↔ b ∈ bs := by
  rw [h.coded.seen, ne_eq, counted_freq_zero_iff bs hlen, not_not]

/-- The length of the code bits, by the number of times each symbol occurs (R117). -/
theorem Prepared.codes_length (hlen : bs.length < 2 ^ 32) :
    (bs.flatMap (symAt p.code)).length = (p.symlen.map fun r => r.len.toNat * bs.count r.sym).sum := by
  rw [content_bits bs hlen p.symlen h.coded.distinct h.bytes, codeBits]
  · exact congrArg List.sum (List.map_congr_left fun r _ => by rw [clean_counted_freq bs hlen])
  · intro r hr
    obtain ⟨i, hi⟩ := List.getElem?_of_mem hr
    rw [h.codes i r hi, canonicalCode_length _ _ _ hi]

end prepared

/-- Settles O46: the bytes ENCODE appends are one of the three forms, and the fields of the full form are the prepared
context's. -/
theorem encoderOutput : Obligations.EncoderOutput := by
  intro s hinv hphase his hos hnacc hlen
  have haccept := encode_acceptance hphase his hos
  obtain ⟨out, hbits, herr, hos'⟩ := encodeCall_aligned s haccept (idle_ctx hinv hphase) hlen hnacc hinv.accumulator
  refine ⟨out, encodeCall s, exec_eq .encode s, herr, hos', ?clean, ?_⟩
  case clean =>
    rw [encodeCall_accepted s haccept]
    exact clean_isClean
  rcases encoded_forms hlen hbits with ⟨hempty, hout⟩ | ⟨hne, hdisable, hout⟩ | ⟨hne, hdisable, content, hout, hcontent⟩
  · have hfirst : out.head? ≠ some 0x4E := by
      rw [hout]
      decide
    exact ⟨iff_of_true hout hempty, iff_of_false hfirst fun h => h.1 hempty, fun h => absurd hempty h,
      fun h => absurd hempty h⟩
  · have hprep := prepared_spec _ hlen hne
    rw [rawHeader, hprep.clen_eq] at hout
    have hmarker : out ≠ [0x48, 0x00, 0x02] := by
      rw [hout]
      exact fun h => absurd (List.head_eq_of_cons_eq h) (by decide)
    rw [← prepared_eq_policed hlen hne]
    exact ⟨iff_of_false hmarker hne, iff_of_true (by rw [hout]; rfl) ⟨hne, hdisable⟩, fun _ _ => hout,
      fun _ h => absurd (h.symm.trans hdisable) Bool.false_ne_true⟩
  · have hprep := prepared_spec _ hlen hne
    obtain ⟨hbuckets, hsum⟩ := hprep.buckets hdisable
    have hroom := hprep.coded.room
    rw [hprep.header_eq] at hout
    have hlong : out ≠ [0x48, 0x00, 0x02] := fun h => by
      have hcount := congrArg List.length h
      simp only [hout, List.length_append, countBytes_length, List.length_cons, List.length_nil] at hcount
      omega
    have hfirst : out.head? ≠ some 0x4E := by
      rw [hout]
      exact fun h => absurd (Option.some.inj h) (by decide)
    rw [← prepared_eq_policed hlen hne]
    refine ⟨iff_of_false hlong hne, iff_of_false hfirst fun h => Bool.false_ne_true (hdisable.symm.trans h.2),
      fun _ h => absurd (hdisable.symm.trans h) Bool.false_ne_true, fun _ _ =>
      ⟨_, _, content, _, hout, ?some, ?room, countBytes_length _, ?sum, fun k hk hmax =>
        hprep.count_above hdisable (prepared_len_le_maxlen _ _ hprep.phase) hk hmax, hbuckets, hprep.coded.canonical,
        hprep.coded.distinct, hprep.mem_syms hlen, hprep.pad.1, ?whole, hcontent⟩⟩
    case some => exact (List.length_map _).symm ▸ hroom.1
    case room => exact (List.length_map _).symm ▸ hroom.2
    case sum => exact hsum.trans (List.length_map _).symm
    case whole =>
      rw [← hprep.codes_length hlen, ← bytesBits_length, hcontent, List.length_append, List.length_replicate]

end Sys2Proof.Machine
